-- ==== Sys2Proof/Word.lean ====
section
/-! DEFINITION. The word the host exchanges with the engine: 32 bits (20_memory.md R61). -/

namespace Sys2Proof

/-- A host register, a word of `BIN`, an entry of `BOUT`, a command word, a next-hop: 32 bits
(00_scope.md R6, 20_memory.md R61). -/
abbrev Word := BitVec 32

/-- `SENT`, the miss sentinel (00_scope.md R6, R14). -/
abbrev sentinel : Word := 0xFFFFFFFF#32

end Sys2Proof
end

