-- ==== Sys2Proof/Syntax.lean ====
section
/-! DEFINITION. The commands: one constructor for each row of the opcode table (30_encoding.md R92). -/

namespace Sys2Proof

/-- The two address families, `FAMILY` of 30_encoding.md R93. -/
inductive Family where
  | ipv4
  | ipv6
deriving DecidableEq, Repr

/-- The four values of the `ALGO` field of a CONSTRUCT word (30_encoding.md R93, named as in R102). `algo3` is no
algorithm: a CONSTRUCT that carries it decodes, and fails when it is executed. -/
inductive AlgoTag where
  | stride8
  | dir24
  | wide16
  | algo3
deriving DecidableEq, Repr

/-- A command, as `decode` reads it (30_encoding.md R99). -/
inductive Instr where
  /-- CONSTRUCT, format C. -/
  | construct (algo : AlgoTag) (family : Family) (strict : Bool)
  /-- INSERT, format P; `len` is the field `LEN`. -/
  | insert (len : Nat)
  /-- DELETE, format P; `len` is the field `LEN`. -/
  | delete (len : Nat)
  /-- LOOKUP, format Z. -/
  | lookup
  /-- LOOKUP_BATCH, format B; `count` is the field `COUNT`. -/
  | lookupBatch (count : Nat)
  /-- STATS, format Z. -/
  | stats
  /-- CLOSE, format Z. -/
  | close
deriving DecidableEq, Repr

end Sys2Proof
end

