-- ==== Sys2Proof/WellFormed.lean ====
section
/-! DEFINITION. When a command fits its encoding: each field in the range its bits give it. -/

namespace Sys2Proof

/-- `LEN` has 8 bits (30_encoding.md R94), `COUNT` has 24 (R95). Lengths above the family's width and counts above
`BATCH_MAX` are well formed: they fail when executed. -/
def Instr.wellFormed : Instr → Bool
  | .construct _ _ _ => true
  | .insert len => decide (len < 2 ^ 8)
  | .delete len => decide (len < 2 ^ 8)
  | .lookup => true
  | .lookupBatch count => decide (count < 2 ^ 24)
  | .stats => true
  | .close => true

end Sys2Proof
end

