-- ==== Sys2Proof/Decode.lean ====
section
/-! DEFINITION. The decoder and the encoder of command words (30_encoding.md R90 to R99, R104). -/

namespace Sys2Proof

/-- `v[hi:lo]`, the field of bits `hi` down to `lo` (00_scope.md R8). -/
def bits (v hi lo : Nat) : Nat := (v >>> lo) % 2 ^ (hi + 1 - lo)

/-- What a command word decodes to: a command, or an illegal word with the reason (30_encoding.md R98). -/
inductive Decoded where
  /-- One of the seven commands. -/
  | instr (i : Instr)
  /-- `c[3:0]` is 0x0 or 0x8 to 0xF. -/
  | reservedOpcode (op : Nat)
  /-- `c[3:0]` names a command and a must-be-zero bit of its format is one. -/
  | reservedBits (op : Nat)
deriving DecidableEq, Repr

/-- The `ALGO` field (30_encoding.md R93). -/
def AlgoTag.ofBits (n : Nat) : AlgoTag :=
  if n = 0 then .stride8 else if n = 1 then .dir24 else if n = 2 then .wide16 else .algo3

/-- The `ALGO` field's number (30_encoding.md R93). -/
def AlgoTag.toBits : AlgoTag → Nat
  | .stride8 => 0
  | .dir24 => 1
  | .wide16 => 2
  | .algo3 => 3

/-- The `FAMILY` bit (30_encoding.md R93). -/
def Family.ofBit (n : Nat) : Family := if n = 0 then .ipv4 else .ipv6

/-- The `FAMILY` bit's value (30_encoding.md R93). -/
def Family.toBit : Family → Nat
  | .ipv4 => 0
  | .ipv6 => 1

/-- 30_encoding.md R99: every word decodes to one of the seven commands or is illegal. -/
def decode (c : Word) : Decoded :=
  let n := c.toNat
  let op := bits n 3 0
  if op = 1 then
    if bits n 31 8 = 0 then
      .instr (.construct (AlgoTag.ofBits (bits n 5 4)) (Family.ofBit (bits n 6 6)) (decide (bits n 7 7 = 1)))
    else .reservedBits op
  else if op = 2 then
    if bits n 31 16 = 0 ∧ bits n 7 4 = 0 then .instr (.insert (bits n 15 8)) else .reservedBits op
  else if op = 3 then
    if bits n 31 16 = 0 ∧ bits n 7 4 = 0 then .instr (.delete (bits n 15 8)) else .reservedBits op
  else if op = 4 then
    if bits n 31 4 = 0 then .instr .lookup else .reservedBits op
  else if op = 5 then
    if bits n 7 4 = 0 then .instr (.lookupBatch (bits n 31 8)) else .reservedBits op
  else if op = 6 then
    if bits n 31 4 = 0 then .instr .stats else .reservedBits op
  else if op = 7 then
    if bits n 31 4 = 0 then .instr .close else .reservedBits op
  else .reservedOpcode op

/-- The opcode `OP = c[3:0]` of a command (30_encoding.md R92). -/
def Instr.opcode : Instr → Nat
  | .construct _ _ _ => 1
  | .insert _ => 2
  | .delete _ => 3
  | .lookup => 4
  | .lookupBatch _ => 5
  | .stats => 6
  | .close => 7

/-- The bits a command's fields take above the opcode, as formats C, P, Z and B place them (30_encoding.md R91). -/
def Instr.fieldBits : Instr → Nat
  | .construct algo family strict => algo.toBits <<< 4 + family.toBit <<< 6 + strict.toNat <<< 7
  | .insert len => len <<< 8
  | .delete len => len <<< 8
  | .lookup => 0
  | .lookupBatch count => count <<< 8
  | .stats => 0
  | .close => 0

/-- The word of a command (30_encoding.md R91, R99). -/
def encode (i : Instr) : Word := BitVec.ofNat 32 (i.opcode + i.fieldBits)

/-- A row of the opcode table: a word `c` encodes the row's command when `c & mask = pattern` (30_encoding.md R92,
where `pattern` is the column `match`). -/
structure OpcodeRow where
  mnemonic : String
  pattern : Word
  mask : Word
deriving DecidableEq, Repr

/-- The seven rows of 30_encoding.md R92. -/
def opcodeRows : List OpcodeRow :=
  [⟨"CONSTRUCT", 0x00000001#32, 0xFFFFFF0F#32⟩,
   ⟨"INSERT", 0x00000002#32, 0xFFFF00FF#32⟩,
   ⟨"DELETE", 0x00000003#32, 0xFFFF00FF#32⟩,
   ⟨"LOOKUP", 0x00000004#32, 0xFFFFFFFF#32⟩,
   ⟨"LOOKUP_BATCH", 0x00000005#32, 0x000000FF#32⟩,
   ⟨"STATS", 0x00000006#32, 0xFFFFFFFF#32⟩,
   ⟨"CLOSE", 0x00000007#32, 0xFFFFFFFF#32⟩]

/-- A word matches a row (30_encoding.md R92). -/
def OpcodeRow.matchesWord (r : OpcodeRow) (c : Word) : Bool := decide (c &&& r.mask = r.pattern)

/-- The mnemonic of a command, as the opcode table spells it. -/
def Instr.mnemonic : Instr → String
  | .construct _ _ _ => "CONSTRUCT"
  | .insert _ => "INSERT"
  | .delete _ => "DELETE"
  | .lookup => "LOOKUP"
  | .lookupBatch _ => "LOOKUP_BATCH"
  | .stats => "STATS"
  | .close => "CLOSE"

/-- The command word whose low `nbits` bits are those of `w`, the bits above them zero. -/
def tableWord (nbits w : Nat) : Word := BitVec.ofNat 32 (w % 2 ^ nbits)

/-- What the decoder reads from a row of `spec/opcode_table.json` whose bits are `w`. A command is one 32-bit number
written to `CMD`; no byte order is involved (20_memory.md R61). -/
def decodeTableWord (nbits w : Nat) : Option Instr :=
  match decode (tableWord nbits w) with
  | .instr i => some i
  | .reservedOpcode _ => none
  | .reservedBits _ => none

end Sys2Proof
end

