-- ==== Sys2Proof/Config.lean ====
section
/-! DEFINITION. What the spec leaves to the implementation (00_scope.md R6) and the values it leaves free. -/

namespace Sys2Proof

/-- `NODE_SLOTS`: slots in a trie node or an extension block (00_scope.md R6). -/
abbrev nodeSlots : Nat := 256

/-- `DIR_SLOTS`: slots in the DIR-24-8 direct table (00_scope.md R6). -/
abbrev dirSlots : Nat := 2 ^ 24

/-- `WIDE_SLOTS`: slots in the Wide16 root (00_scope.md R6). -/
abbrev wideSlots : Nat := 2 ^ 16

/-- The sizes the spec leaves OPEN (00_scope.md R6): `N_NODES`, `MAX_PREFIXES`, `BATCH_MAX`. A machine carries
one such record, which no step writes, so that every statement holds for every legal value (log 1). -/
structure Params where
  /-- `N_NODES`, blocks in the pool. -/
  nNodes : Nat
  /-- `MAX_PREFIXES`, capacity of the prefix store. -/
  maxPrefixes : Nat
  /-- `BATCH_MAX`, entries in each batch buffer. -/
  batchMax : Nat
deriving DecidableEq, Repr

/-- The ranges of 00_scope.md R6. -/
abbrev Params.Legal (p : Params) : Prop :=
  (1 ≤ p.nNodes ∧ p.nNodes ≤ 2 ^ 32 - 1) ∧ (1 ≤ p.maxPrefixes ∧ p.maxPrefixes ≤ 2 ^ 32 - 1) ∧
    (1 ≤ p.batchMax ∧ p.batchMax ≤ 2 ^ 24 - 1)

/-- An unknown number from which `N_NODES` is made; the spec gives none (00_scope.md R6; log 1). -/
opaque Config.anyNodes : Nat

/-- An unknown number from which `MAX_PREFIXES` is made (00_scope.md R6; log 1). -/
opaque Config.anyMaxPrefixes : Nat

/-- An unknown number from which `BATCH_MAX` is made (00_scope.md R6; log 1). -/
opaque Config.anyBatchMax : Nat

/-- The parameters of the machine at reset: any legal ones, and nothing more is known of them (log 1). -/
def Config.params : Params where
  nNodes := Config.anyNodes % (2 ^ 32 - 1) + 1
  maxPrefixes := Config.anyMaxPrefixes % (2 ^ 32 - 1) + 1
  batchMax := Config.anyBatchMax % (2 ^ 24 - 1) + 1

/-- `REG_BASE`: where the platform places the registers; used by no rule (20_memory.md R65; log 15). -/
opaque Config.regBase : Nat

/-- `BIN_BASE`: where the platform places `BIN`; used by no rule (20_memory.md R65; log 15). -/
opaque Config.binBase : Nat

/-- `BOUT_BASE`: where the platform places `BOUT`; used by no rule (20_memory.md R65; log 15). -/
opaque Config.boutBase : Nat

/-- FREE VALUE: what word `w` of `BIN` holds after reset number `n` while nothing has written it: any value, fixed
until the next reset (10_state.md R44, 93_implementation_defined.md U7; log 3). -/
opaque Config.binAfterReset (n w : Nat) : Word

/-- FREE VALUE: what entry `i` of `BOUT` holds after reset number `n` while nothing has written it
(10_state.md R44, 93_implementation_defined.md U7; log 3). -/
opaque Config.boutAfterReset (n i : Nat) : Word

end Sys2Proof
end

