-- ==== Sys2Proof/Machine/State.lean ====
section
/-! DEFINITION. The state of the engine (10_state.md), as plain data, and the state after reset. -/

namespace Sys2Proof.Machine

/-- The status codes 0 to 9, in order (60_exceptions.md R271). -/
inductive Code where
  | ok
  | errInvalidPrefix
  | errInvalidNexthop
  | errNotFound
  | errAlloc
  | errClosed
  | errInvalidAlgo
  | errState
  | errIllegalCmd
  | errBatchRange
deriving DecidableEq, Repr

/-- `LIFE` (10_state.md R26). -/
inductive Life where
  | closed
  | opened
deriving DecidableEq, Repr

/-- The table layouts, `ALGO` (10_state.md R27). -/
inductive Algo where
  | stride8
  | dir24
  | wide16
deriving DecidableEq, Repr

/-- A prefix `(L, N)`: its length and its network as an integer (00_scope.md R9, R10). -/
structure Prefix where
  len : Nat
  net : Nat
deriving DecidableEq, Repr

/-- The leaf of a slot: the next-hop and `tag`, the length of the prefix that owns it (10_state.md R30). -/
structure Leaf where
  nh : Word
  tag : Nat
deriving DecidableEq, Repr

/-- A slot record (10_state.md R30). `leaf = none` is the spec's `leaf = 0` with `nh` and `tag` at 0; `child = none`
is its `child = 0` with `ptr` at 0 (log 11). -/
structure Slot where
  leaf : Option Leaf
  child : Option Nat
deriving DecidableEq, Repr

/-- A slot array, run by run: an entry `(a, s)` says that the slots from index `a` up to the next entry's index hold
`s`; the slots before the first entry are empty (log 11). -/
abbrev Runs := List (Nat × Slot)

/-- A block of the pool: its slots, and `cnt` (10_state.md R31). -/
structure Block where
  slots : Runs
  cnt : Nat
deriving DecidableEq, Repr

/-- A finite map as a list of keys and values, in one canonical form: each key before the next one, none twice. -/
abbrev Assoc (κ α : Type) := List (κ × α)

/-- The prefix store `P` (10_state.md R28). -/
abbrev PrefixStore := Assoc Prefix Word

/-- The block pool: the blocks in use, by number; a block not listed is free (10_state.md R31, R34). -/
abbrev Pool := Assoc Nat Block

/-- A buffer of 32-bit words, by index; a word not listed has not been written since reset (10_state.md R40; log 3). -/
abbrev Memory := Assoc Nat Word

/-- An operation at the engine's boundary (20_memory.md R62), or a reset (70_reset_and_hazards.md R300). -/
inductive HostOp where
  /-- `RegRead(i)`. -/
  | regRead (i : Nat)
  /-- `RegWrite(i, v)`; register 0 is `CMD`. -/
  | regWrite (i : Nat) (v : Word)
  /-- `BinRead(w)`. -/
  | binRead (w : Nat)
  /-- `BinWrite(w, v)`. -/
  | binWrite (w : Nat) (v : Word)
  /-- `BoutRead(i)`. -/
  | boutRead (i : Nat)
  /-- A host write to `BOUT`, which is ignored (10_state.md R40; log 9). -/
  | boutWrite (i : Nat) (v : Word)
  /-- The platform resets the engine (log 10). -/
  | reset
deriving DecidableEq, Repr

/-- The table (60_exceptions.md R276: the prefix store, every slot, the pool, the counters, `LIFE` and the
configuration). -/
structure Table where
  /-- `LIFE` (10_state.md R26). -/
  life : Life
  /-- `ALGO` (10_state.md R27). -/
  algo : Algo
  /-- `FAMILY` (10_state.md R27). -/
  family : Family
  /-- `STRICT` (10_state.md R27). -/
  strict : Bool
  /-- `P` (10_state.md R28). -/
  prefixes : PrefixStore
  /-- `NUM_PFX` (10_state.md R29). -/
  numPfx : Word
  /-- `NUM_NODES` (10_state.md R29). -/
  numNodes : Word
  /-- `NUM_WIDE` (10_state.md R29). -/
  numWide : Word
  /-- `NODE` and `alloc` (10_state.md R31, R34). -/
  pool : Pool
  /-- `ROOTB` (10_state.md R31). -/
  rootb : Nat
  /-- `DIR` (10_state.md R32). -/
  dir : Runs
  /-- `ROOT16` (10_state.md R33). -/
  root16 : Runs
  /-- The model's own: the free input of the allocations to come (10_state.md R34; log 4). -/
  picks : List Nat
deriving DecidableEq, Repr

/-- The complete state of one engine (10_state.md R20), with the model's own fields at the end. -/
structure State where
  /-- `STATUS.CODE` (10_state.md R25). -/
  code : Code
  /-- `RESULT`, register 2. -/
  result : Word
  /-- `NH`, register 3. -/
  nh : Word
  /-- `KEY0`, register 4. -/
  key0 : Word
  /-- `KEY1`, register 5. -/
  key1 : Word
  /-- `KEY2`, register 6. -/
  key2 : Word
  /-- `KEY3`, register 7. -/
  key3 : Word
  /-- `STAT_PFX`, register 8. -/
  statPfx : Word
  /-- `STAT_NODE`, register 9. -/
  statNode : Word
  /-- `STAT_WIDE`, register 10. -/
  statWide : Word
  /-- The table, `LIFE` and the latched configuration. -/
  table : Table
  /-- `BIN` (10_state.md R40). -/
  bin : Memory
  /-- `BOUT` (10_state.md R40). -/
  bout : Memory
  /-- The model's own: the open parameters, which no step writes (log 1). -/
  params : Params
  /-- The model's own: the operations to come, the next one first (log 2). -/
  pending : List HostOp
  /-- The model's own: the words the host has read, the latest first (log 2). -/
  reads : List Word
  /-- The model's own: the resets since the first (log 3). -/
  resets : Nat
deriving DecidableEq, Repr

/-- The reasons for which the engine would stop with a fault. There are none: a failing command is a next state with a
code in `STATUS.CODE` (60_exceptions.md R276), none is fatal (R278), and no slot access can fault
(40_commands_common.md R148). Safe: nothing stops. -/
inductive Fault where
deriving DecidableEq, Repr

/-- The reasons for which a step has no meaning. -/
inductive Refusal where
  /-- Raised by `exec` for a command without a meaning; no arm raises it. Safe. -/
  | notModelled (mnemonic : String)
  /-- Raised by a host operation whose index is outside its space: it names nothing in the engine (20_memory.md R63,
  93_implementation_defined.md U6; log 8). Safe: the model stops where a platform may go on. -/
  | hostIndexOutOfRange (op : HostOp)
deriving DecidableEq, Repr

/-- The closed table: no prefix, no block in use, the counters 0 (10_state.md R26, R44). `ROOTB` and the unreachable
arrays are unspecified there (log 5). -/
def Table.reset : Table where
  life := .closed
  algo := .stride8
  family := .ipv4
  strict := false
  prefixes := []
  numPfx := 0#32
  numNodes := 0#32
  numWide := 0#32
  pool := []
  rootb := 0
  dir := []
  root16 := []
  picks := []

/-- The machine right after reset (10_state.md R44, 70_reset_and_hazards.md R300). -/
def State.reset : State where
  code := .ok
  result := 0xFFFFFFFF#32
  nh := 0#32
  key0 := 0#32
  key1 := 0#32
  key2 := 0#32
  key3 := 0#32
  statPfx := 0#32
  statNode := 0#32
  statWide := 0#32
  table := Table.reset
  bin := []
  bout := []
  params := Config.params
  pending := []
  reads := []
  resets := 0

end Sys2Proof.Machine
end

