-- ==== Sys2Proof/Machine/Ops.lean ====
section
/-! DEFINITION. The named operations over maps, buffers, slot arrays, the block pool and the status code. -/

namespace Sys2Proof.Machine

/-! ## Finite maps -/

/-- The value at a key, where the map lists it. -/
def Assoc.get? {κ α : Type} [DecidableEq κ] : Assoc κ α → κ → Option α
  | [], _ => none
  | (a, v) :: m, k => if k = a then some v else Assoc.get? m k

/-- The map with `k` at `v`, put where `before` places it. -/
def Assoc.put {κ α : Type} [DecidableEq κ] (before : κ → κ → Bool) : Assoc κ α → κ → α → Assoc κ α
  | [], k, v => [(k, v)]
  | (a, w) :: m, k, v =>
    if k = a then (k, v) :: m
    else if before k a then (k, v) :: (a, w) :: m
    else (a, w) :: Assoc.put before m k v

/-- The map without the key `k`. -/
def Assoc.erase {κ α : Type} [DecidableEq κ] (m : Assoc κ α) (k : κ) : Assoc κ α :=
  m.filter fun e => decide (e.1 ≠ k)

/-- The canonical form: the keys strictly rising under `before`. -/
def Assoc.wf {κ α : Type} (before : κ → κ → Bool) : Assoc κ α → Bool
  | [] => true
  | (a, _) :: m => m.all (fun e => before a e.1) && Assoc.wf before m

/-- The order of block numbers and buffer indices. -/
def natBefore (a b : Nat) : Bool := decide (a < b)

/-- The order of prefixes in the store: shorter first, then by network. The spec fixes none (10_state.md R28). -/
def Prefix.before (p q : Prefix) : Bool :=
  decide (p.len < q.len) || (decide (p.len = q.len) && decide (p.net < q.net))

/-! ## Buffers -/

/-- The word written at an index since reset, if any. -/
def Memory.read? (m : Memory) (i : Nat) : Option Word := Assoc.get? m i

/-- The buffer with `v` at index `i`. -/
def Memory.write (m : Memory) (i : Nat) (v : Word) : Memory := Assoc.put natBefore m i v

/-- The buffer's canonical form: indices strictly rising. An index not listed reads as no written word, so no entry
equals what an unlisted index reads as (log 3). -/
def Memory.wf (m : Memory) : Bool := Assoc.wf natBefore m

/-! ## Slot arrays -/

/-- The empty slot (10_state.md R30). -/
def Slot.empty : Slot := ⟨none, none⟩

/-- A block as `alloc_block` makes it: every slot empty, `cnt` 0 (10_state.md R34). -/
def Block.empty : Block := ⟨[], 0⟩

/-- The slot at index `j` of a list of runs, `d` being the slot in force before the first of them. -/
def Runs.getFrom (d : Slot) : Runs → Nat → Slot
  | [], _ => d
  | (a, s) :: r, j => if j < a then d else Runs.getFrom s r j

/-- The slot at index `j`. -/
def Runs.get (r : Runs) (j : Nat) : Slot := Runs.getFrom Slot.empty r j

/-- The same array with a run starting at index `c`. -/
def Runs.cutFrom (c : Nat) (d : Slot) : Runs → Runs
  | [] => [(c, d)]
  | (a, s) :: r =>
    if c < a then (c, d) :: (a, s) :: r
    else if c = a then (a, s) :: r
    else (a, s) :: Runs.cutFrom c s r

/-- The same array with runs starting at `base` and at `base + cnt`. -/
def Runs.cut (r : Runs) (base cnt : Nat) : Runs :=
  Runs.cutFrom (base + cnt) Slot.empty (Runs.cutFrom base Slot.empty r)

/-- The same array without the entries that repeat the slot already in force. -/
def Runs.mergeFrom (d : Slot) : Runs → Runs
  | [] => []
  | (a, s) :: r => if s = d then Runs.mergeFrom d r else (a, s) :: Runs.mergeFrom s r

/-- A run starts inside `base .. base + cnt − 1`. -/
def inRange (base cnt a : Nat) : Bool := decide (base ≤ a) && decide (a < base + cnt)

/-- The array with `f` applied to each slot of `base .. base + cnt − 1`. -/
def Runs.mapRange (r : Runs) (base cnt : Nat) (f : Slot → Slot) : Runs :=
  Runs.mergeFrom Slot.empty
    ((r.cut base cnt).map fun e => if inRange base cnt e.1 then (e.1, f e.2) else e)

/-- The blocks referred to by the slots of `base .. base + cnt − 1`, one for each run of equal slots. -/
def Runs.childrenIn (r : Runs) (base cnt : Nat) : List Nat :=
  (r.cut base cnt).filterMap fun e => if inRange base cnt e.1 then e.2.child else none

/-- Every slot of the array has `leaf = 0` and `child = 0`. -/
def Runs.vacant (r : Runs) : Bool := r.all fun e => decide (e.2 = Slot.empty)

/-- The canonical form of runs: the starts strictly rising from `lo`, and no entry repeats the slot in force. -/
def Runs.wfFrom (lo : Nat) (d : Slot) : Runs → Bool
  | [] => true
  | (a, s) :: r => decide (lo ≤ a) && decide (s ≠ d) && Runs.wfFrom (a + 1) s r

/-- The canonical form of a slot array. -/
def Runs.wf (r : Runs) : Bool := Runs.wfFrom 0 Slot.empty r

/-! ## The fan-out rules on one slot (41_stride8.md R162) -/

/-- One turn of `fan_write`: longest wins; `child` and `ptr` are never touched. -/
def Slot.fanWrite (nh : Word) (len : Nat) (s : Slot) : Slot :=
  match s.leaf with
  | none => { s with leaf := some ⟨nh, len⟩ }
  | some l => if l.tag ≤ len then { s with leaf := some ⟨nh, len⟩ } else s

/-- One turn of `fan_clear`: only where the tag is ours, to the shadow `sh`; `child` and `ptr` are never touched. -/
def Slot.fanClear (len : Nat) (sh : Option Leaf) (s : Slot) : Slot :=
  match s.leaf with
  | none => s
  | some l => if l.tag = len then { s with leaf := sh } else s

/-! ## The table's slot arrays and its pool -/

/-- A slot array of the table: a block's, the direct table or the Wide16 root (40_commands_common.md R148). -/
inductive SlotArray where
  | node (b : Nat)
  | dir
  | root16
deriving DecidableEq, Repr

/-- Block `b`. A `ptr` always names a block in use (10_state.md R35); any other number reads as an empty block
(log 12). -/
def Table.block (t : Table) (b : Nat) : Block := (Assoc.get? t.pool b).getD Block.empty

/-- `alloc[b]` (10_state.md R34). -/
def Table.inUse (t : Table) (b : Nat) : Bool := (Assoc.get? t.pool b).isSome

/-- The table with block `b` changed by `f`; nothing where `b` is not in use (log 12). -/
def Table.updateBlock (t : Table) (b : Nat) (f : Block → Block) : Table :=
  match Assoc.get? t.pool b with
  | some blk => { t with pool := Assoc.put natBefore t.pool b (f blk) }
  | none => t

/-- The slots of an array of the table. -/
def Table.array (t : Table) : SlotArray → Runs
  | .node b => (t.block b).slots
  | .dir => t.dir
  | .root16 => t.root16

/-- The slot at index `j` of an array (40_commands_common.md R148). -/
def Table.slot (t : Table) (a : SlotArray) (j : Nat) : Slot := (t.array a).get j

/-- The block a slot refers to: `none` where `child = 0`, else its `ptr`. -/
def Table.childAt (t : Table) (a : SlotArray) (j : Nat) : Option Nat := (t.slot a j).child

/-- The table with `f` applied to each slot of `base .. base + cnt − 1` of an array. -/
def Table.mapSlots (t : Table) (a : SlotArray) (base cnt : Nat) (f : Slot → Slot) : Table :=
  match a with
  | .node b => t.updateBlock b fun blk => { blk with slots := blk.slots.mapRange base cnt f }
  | .dir => { t with dir := t.dir.mapRange base cnt f }
  | .root16 => { t with root16 := t.root16.mapRange base cnt f }

/-- `fan_write(arr, base, cnt, nh, L)` (41_stride8.md R162). -/
def Table.fanWrite (t : Table) (a : SlotArray) (base cnt : Nat) (nh : Word) (len : Nat) : Table :=
  t.mapSlots a base cnt (Slot.fanWrite nh len)

/-- `fan_clear(arr, base, cnt, L, sh)` (41_stride8.md R162). -/
def Table.fanClear (t : Table) (a : SlotArray) (base cnt len : Nat) (sh : Option Leaf) : Table :=
  t.mapSlots a base cnt (Slot.fanClear len sh)

/-- `child` and `ptr` of one slot written: to a block, or both cleared (10_state.md R30). -/
def Table.setChild (t : Table) (a : SlotArray) (j : Nat) (c : Option Nat) : Table :=
  t.mapSlots a j 1 fun s => { s with child := c }

/-- The least number, from `n` on, that a pool does not list. -/
def Pool.leastFree : Nat → Pool → Nat
  | n, [] => n
  | n, (b, _) :: p => if b = n then Pool.leastFree (n + 1) p else n

/-- The block the next allocation takes: the one the free input names, where that one is a free block of the pool,
else the least free one (10_state.md R34, 93_implementation_defined.md U8; log 4). -/
def Table.pickFree (t : Table) (nNodes : Nat) : Nat :=
  match t.picks with
  | [] => Pool.leastFree 0 t.pool
  | b :: _ => if b < nNodes && !t.inUse b then b else Pool.leastFree 0 t.pool

/-- `alloc_block()`: the block taken, and the table with it in use and every slot of it empty (10_state.md R34). -/
def Table.allocBlock (t : Table) (nNodes : Nat) : Nat × Table :=
  (t.pickFree nNodes,
    { t with
      pool := Assoc.put natBefore t.pool (t.pickFree nNodes) Block.empty
      numNodes := t.numNodes + 1#32
      picks := t.picks.tail })

/-- `free_block(b)` (10_state.md R34). -/
def Table.freeBlock (t : Table) (b : Nat) : Table :=
  { t with pool := Assoc.erase t.pool b, numNodes := t.numNodes - 1#32 }

/-- `FREE = N_NODES − NUM_NODES` (10_state.md R34). -/
def Table.free (t : Table) (nNodes : Nat) : Nat := nNodes - t.numNodes.toNat

/-! ## Ending a command -/

/-- `STATUS.CODE <- c`, and nothing else. -/
def State.withCode (s : State) (c : Code) : State := { s with code := c }

/-- `raise c`: the command ends with the code written and nothing else changed; there is no handler, nothing is saved
and control goes nowhere (60_exceptions.md R276, 00_scope.md R12). There is nothing to return from (R277). -/
def State.raise (s : State) (c : Code) : State := s.withCode c

/-- The last line of a command that does not fail: `STATUS.CODE <- OK` (40_commands_common.md R120). -/
def State.complete (s : State) : State := s.withCode .ok

/-- The state with another table. -/
def State.withTable (s : State) (t : Table) : State := { s with table := t }

/-- The state with another `RESULT`. -/
def State.withResult (s : State) (v : Word) : State := { s with result := v }

/-- The state with the three counts latched in `STAT_PFX`, `STAT_NODE`, `STAT_WIDE` (40_commands_common.md R128). -/
def State.latchStats (s : State) : State :=
  { s with statPfx := s.table.numPfx, statNode := s.table.numNodes, statWide := s.table.numWide }

/-- A read by the host returns the word `v`. -/
def State.pushRead (s : State) (v : Word) : State := { s with reads := v :: s.reads }

/-- The operation `op` put before all that the host has pending (log 2). -/
def State.pushPending (s : State) (op : HostOp) : State := { s with pending := op :: s.pending }

/-- Word `w` of `BIN`: what was written there since reset, else its free value (93_implementation_defined.md U7; log 3). -/
def State.binWord (s : State) (w : Nat) : Word :=
  (s.bin.read? w).getD (Config.binAfterReset s.resets w)

/-- Entry `i` of `BOUT`: what was written there since reset, else its free value (93_implementation_defined.md U7;
log 3). -/
def State.boutWord (s : State) (i : Nat) : Word :=
  (s.bout.read? i).getD (Config.boutAfterReset s.resets i)

/-- The engine after one more reset: every piece of its state at the reset value, `BIN` and `BOUT` unspecified anew
(70_reset_and_hazards.md R300). The host's side and the parameters are not the engine's state (log 10). -/
def State.afterReset (s : State) : State :=
  { State.reset with
    table := { Table.reset with picks := s.table.picks }
    params := s.params
    pending := s.pending
    reads := s.reads
    resets := s.resets + 1 }

end Sys2Proof.Machine
end

