-- ==== Sys2Proof/Machine/Operands.lean ====
section
/-! DEFINITION. Operands: prefix arithmetic, address assembly, validation, and the reference function `LPM`. -/

namespace Sys2Proof.Machine

/-- `W`, the address width of a family (00_scope.md R6). -/
def Family.width : Family → Nat
  | .ipv4 => 32
  | .ipv6 => 128

/-- `mask(L)` (00_scope.md R10): the `W`-bit value whose top `L` bits are one. -/
def mask (w len : Nat) : Nat := (2 ^ w - 1) - (2 ^ (w - len) - 1)

/-- `canon(N, L)` clears the host bits (00_scope.md R10). -/
def canon (w n len : Nat) : Nat := n &&& mask w len

/-- `hostbits(N, L)` (00_scope.md R10). -/
def hostbits (w n len : Nat) : Nat := n &&& (2 ^ (w - len) - 1)

/-- The prefix `(L, N)` covers address `A` (00_scope.md R10). -/
def Prefix.covers (w : Nat) (p : Prefix) (a : Nat) : Prop := a &&& mask w p.len = p.net

/-- `byte(A, k)`, byte 0 the most significant (00_scope.md R9, 20_memory.md R60). -/
def byte (w a k : Nat) : Nat := bits a (w - 1 - 8 * k) (w - 8 - 8 * k)

/-- `kt(L)`, the terminal level (00_scope.md R15, 41_stride8.md R161). -/
def terminalLevel (len : Nat) : Nat := if len = 0 then 0 else (len - 1) / 8

/-- `r = L − 8·kt(L)`, the in-node length (00_scope.md R15, 41_stride8.md R161). -/
def inNodeLength (len : Nat) : Nat := len - 8 * terminalLevel len

/-- The search of `best`: the lengths `lo + n − 1` down to `lo`, the greatest first. -/
def bestSearch (p : PrefixStore) (w a lo : Nat) : Nat → Option Leaf
  | 0 => none
  | n + 1 =>
    match Assoc.get? p ⟨lo + n, canon w a (lo + n)⟩ with
    | some nh => some ⟨nh, lo + n⟩
    | none => bestSearch p w a lo n

/-- `best(P, lo, hi, A)` (00_scope.md R11): the next-hop and the length of the longest stored prefix of length
`lo .. hi` that covers `A`; `none` when there is none or `lo > hi`. -/
def best (p : PrefixStore) (w lo hi a : Nat) : Option Leaf := bestSearch p w a lo (hi + 1 - lo)

/-- The best stored prefix of a length below `hi`: `best(P, lo, hi − 1, A)`, `none` when `hi = 0`. -/
def bestBelow (p : PrefixStore) (w lo hi a : Nat) : Option Leaf := bestSearch p w a lo (hi - lo)

/-- The next-hop of a leaf, or the sentinel. -/
def leafOr (d : Word) : Option Leaf → Word
  | none => d
  | some l => l.nh

/-- `LPM(P, A)` (00_scope.md R11). -/
def lpm (p : PrefixStore) (w a : Nat) : Word := leafOr sentinel (best p w 0 w a)

/-- An address assembled from four words: the first alone for IPv4, all four for IPv6 (10_state.md R23). -/
def assemble (f : Family) (w0 w1 w2 w3 : Word) : Nat :=
  match f with
  | .ipv4 => w0.toNat
  | .ipv6 => (w0 ++ w1 ++ w2 ++ w3).toNat

/-- The address in `KEY0 .. KEY3`, for the table's family (10_state.md R23, 30_encoding.md R96). -/
def State.keyAddress (s : State) : Nat := assemble s.table.family s.key0 s.key1 s.key2 s.key3

/-- The address in entry `i` of `BIN` (10_state.md R40, 44_batch.md R252). -/
def State.binAddress (s : State) (i : Nat) : Nat :=
  assemble s.table.family (s.binWord (4 * i)) (s.binWord (4 * i + 1)) (s.binWord (4 * i + 2)) (s.binWord (4 * i + 3))

/-- `validate(N_in, len)` (40_commands_common.md R130): the canonical prefix, or `none` where it raises
`ERR_INVALID_PREFIX`. -/
def validate (w : Nat) (strict : Bool) (nIn len : Nat) : Option Prefix :=
  if w < len then none
  else if hostbits w nIn len ≠ 0 ∧ strict = true then none
  else some ⟨len, canon w nIn len⟩

/-- The prefix operand of INSERT and DELETE (40_commands_common.md R130). -/
def State.prefixOperand (s : State) (len : Nat) : Option Prefix :=
  validate (Family.width s.table.family) s.table.strict s.keyAddress len

/-- The layout a CONSTRUCT selects, where its pair of algorithm and family is legal (00_scope.md R2,
40_commands_common.md R124). -/
def legalLayout : AlgoTag → Family → Option Algo
  | .stride8, .ipv4 => some .stride8
  | .stride8, .ipv6 => some .stride8
  | .dir24, .ipv4 => some .dir24
  | .dir24, .ipv6 => none
  | .wide16, .ipv4 => none
  | .wide16, .ipv6 => some .wide16
  | .algo3, .ipv4 => none
  | .algo3, .ipv6 => none

end Sys2Proof.Machine
end

