-- ==== Sys2Proof/Machine/Lifecycle.lean ====
section
/-! DEFINITION. CONSTRUCT, CLOSE and STATS (40_commands_common.md R124, R126, R128). -/

namespace Sys2Proof.Machine

/-- The table before its layout's root is made: the configuration latched, nothing stored, every block free, the
counters 0 (40_commands_common.md R124). -/
def Table.latch (t : Table) (algo : Algo) (family : Family) (strict : Bool) : Table :=
  { t with
    life := .opened
    algo := algo
    family := family
    strict := strict
    prefixes := []
    numPfx := 0#32
    numNodes := 0#32
    numWide := 0#32
    pool := [] }

/-- The root structure of a layout: a root block for Stride8, every direct slot empty for DIR-24-8, every root slot empty
for Wide16 (40_commands_common.md R124). -/
def Table.makeRoot (t : Table) (nNodes : Nat) : Table :=
  match t.algo with
  | .stride8 => { (t.allocBlock nNodes).2 with rootb := (t.allocBlock nNodes).1 }
  | .dir24 => { t with dir := [] }
  | .wide16 => { t with root16 := [], numWide := 1#32 }

/-- The new empty table of a CONSTRUCT (40_commands_common.md R124). -/
def Table.construct (t : Table) (nNodes : Nat) (algo : Algo) (family : Family) (strict : Bool) : Table :=
  (t.latch algo family strict).makeRoot nNodes

/-- The table after a CLOSE: the store empty, every block free, the counters 0, the configuration fields 0
(40_commands_common.md R126; the slot arrays are unreachable and are left as they are, log 6). -/
def Table.shut (t : Table) : Table :=
  { t with
    life := .closed
    algo := .stride8
    family := .ipv4
    strict := false
    prefixes := []
    numPfx := 0#32
    numNodes := 0#32
    numWide := 0#32
    pool := [] }

/-- CONSTRUCT (40_commands_common.md R124). -/
def execConstruct (algo : AlgoTag) (family : Family) (strict : Bool) (s : State) :
    Host.Outcome State Fault Refusal :=
  match s.table.life with
  | .opened => .next (s.raise .errState)
  | .closed =>
    match legalLayout algo family with
    | none => .next (s.raise .errInvalidAlgo)
    | some a => .next (s.withTable (s.table.construct s.params.nNodes a family strict)).complete

/-- STATS (40_commands_common.md R128). -/
def execStats (s : State) : Host.Outcome State Fault Refusal :=
  match s.table.life with
  | .closed => .next (s.raise .errClosed)
  | .opened => .next s.latchStats.complete

/-- CLOSE (40_commands_common.md R126). -/
def execClose (s : State) : Host.Outcome State Fault Refusal :=
  match s.table.life with
  | .closed => .next s.complete
  | .opened => .next (s.withTable s.table.shut).complete

end Sys2Proof.Machine
end

