-- ==== Sys2Proof/Machine/Dir24.lean ====
section
/-! DEFINITION. The DIR-24-8 layout (42_dir24_8.md). -/

namespace Sys2Proof.Machine

/-- The index of the direct table: the top 24 bits of a 32-bit address (42_dir24_8.md R191, R198). -/
def dirIndex (a : Nat) : Nat := a >>> 8

/-- The index in an extension block: the low 8 bits (42_dir24_8.md R191, R198). -/
def extIndex (a : Nat) : Nat := a &&& 0xFF

/-- `d24_need(N, L)` (42_dir24_8.md R192). -/
def Table.d24Need (t : Table) (n len : Nat) : Nat :=
  if len ≤ 24 then 0
  else match t.childAt .dir (dirIndex n) with
    | none => 1
    | some _ => 0

/-- A change applied to every slot of each extension block under a range of the direct table (42_dir24_8.md R193,
R195). -/
def Table.mapExtensions (t : Table) (base cnt : Nat) (f : Slot → Slot) : Table :=
  (t.dir.childrenIn base cnt).foldl (fun t b => t.mapSlots (.node b) 0 nodeSlots f) t

/-- The extension block of direct slot `i`, made where there is none: 256 copies of the direct slot's own leaf
(42_dir24_8.md R194). -/
def Table.openExtension (t : Table) (nNodes i : Nat) : Table :=
  match t.childAt .dir i with
  | some _ => t
  | none =>
    ((t.allocBlock nNodes).2.mapSlots (.node (t.allocBlock nNodes).1) 0 nodeSlots
      fun s => { s with leaf := (t.slot .dir i).leaf }).setChild .dir i (some (t.allocBlock nNodes).1)

/-- The block of direct slot `i`: its `ptr`, 0 where `child = 0` (10_state.md R30). -/
def Table.extBlock (t : Table) (i : Nat) : Nat := (t.childAt .dir i).getD 0

/-- `NODE[b].cnt` written. -/
def Table.setCnt (t : Table) (b cnt : Nat) : Table := t.updateBlock b fun blk => { blk with cnt := cnt }

/-- `d24_insert(N, L, nh, exists)` (42_dir24_8.md R193 for `L ≤ 24`, R194 for `L ≥ 25`). -/
def Table.d24Insert (t : Table) (nNodes n len : Nat) (nh : Word) (exists_ : Bool) : Table :=
  if len ≤ 24 then
    (t.fanWrite .dir (dirIndex n) (2 ^ (24 - len)) nh len).mapExtensions (dirIndex n) (2 ^ (24 - len))
      (Slot.fanWrite nh len)
  else
    let t1 := t.openExtension nNodes (dirIndex n)
    let b := t1.extBlock (dirIndex n)
    let t2 := t1.fanWrite (.node b) (extIndex n) (2 ^ (32 - len)) nh len
    if exists_ then t2 else t2.setCnt b ((t2.block b).cnt + 1)

/-- `d24_delete(N, L)`, the prefix already removed from the store (42_dir24_8.md R195 for `L ≤ 24`, R196 for `L ≥ 25`,
the shadow R197). -/
def Table.d24Delete (t : Table) (n len : Nat) : Table :=
  let sh := bestBelow t.prefixes 32 0 len n
  if len ≤ 24 then
    (t.fanClear .dir (dirIndex n) (2 ^ (24 - len)) len sh).mapExtensions (dirIndex n) (2 ^ (24 - len))
      (Slot.fanClear len sh)
  else
    let b := t.extBlock (dirIndex n)
    let t1 := t.fanClear (.node b) (extIndex n) (2 ^ (32 - len)) len sh
    let t2 := t1.setCnt b ((t1.block b).cnt - 1)
    if (t2.block b).cnt = 0 then (t2.freeBlock b).setChild .dir (dirIndex n) none else t2

/-- `d24_lookup(A)` (42_dir24_8.md R198). -/
def Table.d24Lookup (t : Table) (a : Nat) : Word :=
  match t.childAt .dir (dirIndex a) with
  | some b => leafOr sentinel (t.slot (.node b) (extIndex a)).leaf
  | none => leafOr sentinel (t.slot .dir (dirIndex a)).leaf

end Sys2Proof.Machine
end

