-- ==== Sys2Proof/Machine/Stride8.lean ====
section
/-! DEFINITION. The Stride8 layout (41_stride8.md), and the walks through trie nodes that Wide16 shares. -/

namespace Sys2Proof.Machine

/-- How many blocks a walk of `steps` levels from block `b` of level `k` along the bytes of `N` lacks: once one child is
missing every deeper one is missing too (41_stride8.md R160). -/
def Table.missing (t : Table) (w n : Nat) : (steps k b : Nat) → Nat
  | 0, _, _ => 0
  | steps + 1, k, b =>
    match t.childAt (.node b) (byte w n k) with
    | none => steps + 1
    | some m => t.missing w n steps (k + 1) m

/-- The block a slot refers to, allocated and installed where there is none (41_stride8.md R163, 43_wide16.md R224). -/
def Table.openChild (t : Table) (nNodes : Nat) (a : SlotArray) (j : Nat) : Nat × Table :=
  match t.childAt a j with
  | some m => (m, t)
  | none => ((t.allocBlock nNodes).1, (t.allocBlock nNodes).2.setChild a j (some (t.allocBlock nNodes).1))

/-- The walk of `steps` levels from block `b` of level `k` along the bytes of `N`, allocating the nodes that do not yet
exist; the block it ends in, and the table (41_stride8.md R163). -/
def Table.openPath (nNodes w n : Nat) : (steps k b : Nat) → Table → Nat × Table
  | 0, _, b, t => (b, t)
  | steps + 1, k, b, t =>
    Table.openPath nNodes w n steps (k + 1) (t.openChild nNodes (.node b) (byte w n k)).1
      (t.openChild nNodes (.node b) (byte w n k)).2

/-- The `ptr` of a slot: 0 where `child = 0` (10_state.md R30). -/
def Table.ptrAt (t : Table) (a : SlotArray) (j : Nat) : Nat := (t.childAt a j).getD 0

/-- The walk of `steps` levels of a delete: the block it ends in (41_stride8.md R166: `child = 1` all along). -/
def Table.walkDown (t : Table) (w n : Nat) : (steps k b : Nat) → Nat
  | 0, _, b => b
  | steps + 1, k, b => t.walkDown w n steps (k + 1) (t.ptrAt (.node b) (byte w n k))

/-- The same walk's steps, the deepest first: each a slot (its array and index) and the block it refers to. -/
def Table.trail (t : Table) (w n : Nat) : (steps k b : Nat) → List (SlotArray × Nat × Nat)
  | 0, _, _ => []
  | steps + 1, k, b =>
    t.trail w n steps (k + 1) (t.ptrAt (.node b) (byte w n k)) ++
      [(.node b, byte w n k, t.ptrAt (.node b) (byte w n k))]

/-- The pruning loop of a delete: while the deepest block has no leaf and no child it is freed and the slot that refers
to it stops being internal (41_stride8.md R166, 43_wide16.md R226). -/
def Table.prune : List (SlotArray × Nat × Nat) → Table → Table
  | [], t => t
  | (a, j, b) :: up, t =>
    if (t.block b).slots.vacant then Table.prune up ((t.freeBlock b).setChild a j none) else t

/-- The descent of a lookup through `steps` levels from block `b` of level `k`, `found` being the best so far
(41_stride8.md R169). -/
def Table.descend (t : Table) (w a : Nat) : (steps k b : Nat) → (found : Word) → Word
  | 0, _, _, found => found
  | steps + 1, k, b, found =>
    match t.childAt (.node b) (byte w a k) with
    | none => leafOr found (t.slot (.node b) (byte w a k)).leaf
    | some m => t.descend w a steps (k + 1) m (leafOr found (t.slot (.node b) (byte w a k)).leaf)

/-- The shadow of a prefix that lives in a trie node: the longest remaining one of the same node (41_stride8.md R165,
43_wide16.md R227). -/
def nodeShadow (p : PrefixStore) (w len n : Nat) : Option Leaf :=
  bestBelow p w (if terminalLevel len = 0 then 0 else 8 * terminalLevel len + 1) len n

/-- `s8_need(N, L)` (41_stride8.md R160). -/
def Table.s8Need (t : Table) (w n len : Nat) : Nat := t.missing w n (terminalLevel len) 0 t.rootb

/-- `s8_insert(N, L, nh, exists)` (41_stride8.md R163). -/
def Table.s8Insert (t : Table) (nNodes w n len : Nat) (nh : Word) : Table :=
  (Table.openPath nNodes w n (terminalLevel len) 0 t.rootb t).2.fanWrite
    (.node (Table.openPath nNodes w n (terminalLevel len) 0 t.rootb t).1)
    (byte w n (terminalLevel len)) (2 ^ (8 - inNodeLength len)) nh len

/-- `s8_delete(N, L)`, the prefix already removed from the store (41_stride8.md R166). -/
def Table.s8Delete (t : Table) (w n len : Nat) : Table :=
  Table.prune (t.trail w n (terminalLevel len) 0 t.rootb)
    (t.fanClear (.node (t.walkDown w n (terminalLevel len) 0 t.rootb))
      (byte w n (terminalLevel len)) (2 ^ (8 - inNodeLength len)) len (nodeShadow t.prefixes w len n))

/-- `s8_lookup(A)` (41_stride8.md R169). -/
def Table.s8Lookup (t : Table) (w a : Nat) : Word := t.descend w a (w / 8) 0 t.rootb sentinel

end Sys2Proof.Machine
end

