-- ==== Sys2Proof/Machine/Wide16.lean ====
section
/-! DEFINITION. The Wide16 layout (43_wide16.md). -/

namespace Sys2Proof.Machine

/-- The index of the root: the top 16 bits of a 128-bit address (43_wide16.md R221, R229). -/
def rootIndex (a : Nat) : Nat := a >>> 112

/-- `w16_need(N, L)` (43_wide16.md R222). -/
def Table.w16Need (t : Table) (n len : Nat) : Nat :=
  if len ≤ 16 then 0
  else match t.childAt .root16 (rootIndex n) with
    | none => terminalLevel len - 1
    | some b => t.missing 128 n (terminalLevel len - 2) 2 b

/-- The walk of an insert to its terminal node, through the root slot (43_wide16.md R224). -/
def Table.w16Open (t : Table) (nNodes n len : Nat) : Nat × Table :=
  Table.openPath nNodes 128 n (terminalLevel len - 2) 2 (t.openChild nNodes .root16 (rootIndex n)).1
    (t.openChild nNodes .root16 (rootIndex n)).2

/-- `w16_insert(N, L, nh, exists)` (43_wide16.md R223 for `L ≤ 16`, R224 for `L ≥ 17`). -/
def Table.w16Insert (t : Table) (nNodes n len : Nat) (nh : Word) : Table :=
  if len ≤ 16 then t.fanWrite .root16 (rootIndex n) (2 ^ (16 - len)) nh len
  else
    (t.w16Open nNodes n len).2.fanWrite (.node (t.w16Open nNodes n len).1)
      (byte 128 n (terminalLevel len)) (2 ^ (8 - inNodeLength len)) nh len

/-- The level-2 block under the root slot of an address (43_wide16.md R226). -/
def Table.subRoot (t : Table) (n : Nat) : Nat := t.ptrAt .root16 (rootIndex n)

/-- `w16_delete(N, L)`, the prefix already removed from the store (43_wide16.md R225 for `L ≤ 16`, R226 for `L ≥ 17`,
the shadow R227). -/
def Table.w16Delete (t : Table) (n len : Nat) : Table :=
  if len ≤ 16 then
    t.fanClear .root16 (rootIndex n) (2 ^ (16 - len)) len (bestBelow t.prefixes 128 0 len n)
  else
    Table.prune (t.trail 128 n (terminalLevel len - 2) 2 (t.subRoot n) ++ [(.root16, rootIndex n, t.subRoot n)])
      (t.fanClear (.node (t.walkDown 128 n (terminalLevel len - 2) 2 (t.subRoot n)))
        (byte 128 n (terminalLevel len)) (2 ^ (8 - inNodeLength len)) len (nodeShadow t.prefixes 128 len n))

/-- `w16_lookup(A)` (43_wide16.md R229). -/
def Table.w16Lookup (t : Table) (a : Nat) : Word :=
  match t.childAt .root16 (rootIndex a) with
  | none => leafOr sentinel (t.slot .root16 (rootIndex a)).leaf
  | some b => t.descend 128 a 14 2 b (leafOr sentinel (t.slot .root16 (rootIndex a)).leaf)

end Sys2Proof.Machine
end

