-- ==== Sys2Proof/Machine/Layout.lean ====
section
/-! DEFINITION. Dispatch by the layout latched in `ALGO` (40_commands_common.md R122). -/

namespace Sys2Proof.Machine

/-- The address width of the table (10_state.md R27). -/
def Table.width (t : Table) : Nat := Family.width t.family

/-- `need(N, L)` of the table's layout (40_commands_common.md R132). -/
def Table.need (t : Table) (p : Prefix) : Nat :=
  match t.algo with
  | .stride8 => t.s8Need t.width p.net p.len
  | .dir24 => t.d24Need p.net p.len
  | .wide16 => t.w16Need p.net p.len

/-- `layout_insert(N, L, nh, exists)` (40_commands_common.md R132). -/
def Table.layoutInsert (t : Table) (nNodes : Nat) (p : Prefix) (nh : Word) (exists_ : Bool) : Table :=
  match t.algo with
  | .stride8 => t.s8Insert nNodes t.width p.net p.len nh
  | .dir24 => t.d24Insert nNodes p.net p.len nh exists_
  | .wide16 => t.w16Insert nNodes p.net p.len nh

/-- `layout_delete(N, L)`, which reads the store after the removal (40_commands_common.md R136). -/
def Table.layoutDelete (t : Table) (p : Prefix) : Table :=
  match t.algo with
  | .stride8 => t.s8Delete t.width p.net p.len
  | .dir24 => t.d24Delete p.net p.len
  | .wide16 => t.w16Delete p.net p.len

/-- `layout_lookup(A)` (40_commands_common.md R140). -/
def Table.layoutLookup (t : Table) (a : Nat) : Word :=
  match t.algo with
  | .stride8 => t.s8Lookup t.width a
  | .dir24 => t.d24Lookup a
  | .wide16 => t.w16Lookup a

end Sys2Proof.Machine
end

