-- ==== Sys2Proof/Machine/Lookup.lean ====
section
/-! DEFINITION. LOOKUP and LOOKUP_BATCH (40_commands_common.md R140, 44_batch.md R252). -/

namespace Sys2Proof.Machine

/-- LOOKUP (40_commands_common.md R140). -/
def execLookup (s : State) : Host.Outcome State Fault Refusal :=
  match s.table.life with
  | .closed => .next ((s.withResult sentinel).raise .errClosed)
  | .opened => .next (s.withResult (s.table.layoutLookup s.keyAddress)).complete

/-- `BOUT` after the first `n` turns of the batch loop (44_batch.md R252). -/
def State.batchOut (s : State) : Nat → Memory
  | 0 => s.bout
  | n + 1 => (s.batchOut n).write n (s.table.layoutLookup (s.binAddress n))

/-- LOOKUP_BATCH (44_batch.md R252). -/
def execLookupBatch (count : Nat) (s : State) : Host.Outcome State Fault Refusal :=
  match s.table.life with
  | .closed => .next (s.raise .errClosed)
  | .opened =>
    if s.params.batchMax < count then .next (s.raise .errBatchRange)
    else .next (State.complete { s with bout := s.batchOut count })

end Sys2Proof.Machine
end

