-- ==== Sys2Proof/Machine/Mutation.lean ====
section
/-! DEFINITION. INSERT and DELETE (40_commands_common.md R132, R136). -/

namespace Sys2Proof.Machine

/-- `(L, N) ∈ P` (10_state.md R28). -/
def Table.stores (t : Table) (p : Prefix) : Bool := (Assoc.get? t.prefixes p).isSome

/-- `P[(L, N)] <- nh`, and `NUM_PFX + 1` when the prefix is new (40_commands_common.md R132). -/
def Table.putPrefix (t : Table) (p : Prefix) (nh : Word) (exists_ : Bool) : Table :=
  { t with
    prefixes := Assoc.put Prefix.before t.prefixes p nh
    numPfx := if exists_ then t.numPfx else t.numPfx + 1#32 }

/-- `remove (L, N) from P`, `NUM_PFX − 1` (40_commands_common.md R136). -/
def Table.removePrefix (t : Table) (p : Prefix) : Table :=
  { t with prefixes := Assoc.erase t.prefixes p, numPfx := t.numPfx - 1#32 }

/-- The table after an INSERT that passed its checks (40_commands_common.md R132). -/
def Table.insertPrefix (t : Table) (nNodes : Nat) (p : Prefix) (nh : Word) : Table :=
  (t.layoutInsert nNodes p nh (t.stores p)).putPrefix p nh (t.stores p)

/-- The table after a DELETE of a stored prefix (40_commands_common.md R136). -/
def Table.deletePrefix (t : Table) (p : Prefix) : Table := (t.removePrefix p).layoutDelete p

/-- An INSERT of the prefix would need an entry of the store or a block that is not there (40_commands_common.md
R132). -/
def State.lacksRoom (s : State) (p : Prefix) : Bool :=
  (!s.table.stores p && decide (s.table.numPfx.toNat = s.params.maxPrefixes)) ||
    decide (s.table.free s.params.nNodes < s.table.need p)

/-- INSERT (40_commands_common.md R132). -/
def execInsert (len : Nat) (s : State) : Host.Outcome State Fault Refusal :=
  match s.table.life with
  | .closed => .next (s.raise .errClosed)
  | .opened =>
    match s.prefixOperand len with
    | none => .next (s.raise .errInvalidPrefix)
    | some p =>
      if s.nh = sentinel then .next (s.raise .errInvalidNexthop)
      else if s.lacksRoom p then .next (s.raise .errAlloc)
      else .next (s.withTable (s.table.insertPrefix s.params.nNodes p s.nh)).complete

/-- DELETE (40_commands_common.md R136). -/
def execDelete (len : Nat) (s : State) : Host.Outcome State Fault Refusal :=
  match s.table.life with
  | .closed => .next (s.raise .errClosed)
  | .opened =>
    match s.prefixOperand len with
    | none => .next (s.raise .errInvalidPrefix)
    | some p =>
      if s.table.stores p then .next (s.withTable (s.table.deletePrefix p)).complete
      else .next (s.raise .errNotFound)

end Sys2Proof.Machine
end

