-- ==== Sys2Proof/Machine/Dispatch.lean ====
section
/-! DEFINITION. Each command and its meaning (40_commands_common.md R120). -/

namespace Sys2Proof.Machine

def exec (i : Instr) (s : State) : Host.Outcome State Fault Refusal :=
  match i with
  | .construct algo family strict => Sys2Proof.Machine.execConstruct algo family strict s
  | .insert len => Sys2Proof.Machine.execInsert len s
  | .delete len => Sys2Proof.Machine.execDelete len s
  | .lookup => Sys2Proof.Machine.execLookup s
  | .lookupBatch count => Sys2Proof.Machine.execLookupBatch count s
  | .stats => Sys2Proof.Machine.execStats s
  | .close => Sys2Proof.Machine.execClose s

end Sys2Proof.Machine
end

