-- ==== Sys2Proof/Machine/Flags.lean ====
section
/-! DEFINITION. `STATUS` and the words the host reads from the registers. -/

namespace Sys2Proof.Machine

/-- The number of a status code (60_exceptions.md R271). -/
def Code.number : Code → Nat
  | .ok => 0
  | .errInvalidPrefix => 1
  | .errInvalidNexthop => 2
  | .errNotFound => 3
  | .errAlloc => 4
  | .errClosed => 5
  | .errInvalidAlgo => 6
  | .errState => 7
  | .errIllegalCmd => 8
  | .errBatchRange => 9

/-- The number of a layout in `STATUS.ALGO` (10_state.md R25). -/
def Algo.number : Algo → Nat
  | .stride8 => 0
  | .dir24 => 1
  | .wide16 => 2

/-- `STATUS.OPEN` (10_state.md R25). -/
def Table.openBit (t : Table) : Bool := decide (t.life = .opened)

/-- `STATUS.ALGO`, 0 while Closed (10_state.md R25). -/
def Table.algoBits (t : Table) : Nat := if t.openBit then t.algo.number else 0

/-- `STATUS.FAMILY`, 0 while Closed (10_state.md R25). -/
def Table.familyBit (t : Table) : Nat := if t.openBit then t.family.toBit else 0

/-- `STATUS.STRICT`, 0 while Closed (10_state.md R25). -/
def Table.strictBit (t : Table) : Bool := t.openBit && t.strict

/-- `STATUS`, the table of 10_state.md R25 from bit 31 down: reserved bits 0, `BUSY` 0 (every host read falls between
commands; log 14), `STRICT`, `FAMILY`, `ALGO`, `OPEN`, `CODE`. -/
def State.status (s : State) : Word :=
  0#22 ++ 0#1 ++ BitVec.ofBool s.table.strictBit ++ BitVec.ofNat 1 s.table.familyBit ++
    BitVec.ofNat 2 s.table.algoBits ++ BitVec.ofBool s.table.openBit ++ BitVec.ofNat 4 s.code.number

/-- What `RegRead(i)` returns for `i` in 0 to 15: `CMD` and the reserved numbers 11 to 15 read 0 (10_state.md R21, R42,
R43). -/
def State.regWord (s : State) (i : Nat) : Word :=
  if i = 1 then s.status
  else if i = 2 then s.result
  else if i = 3 then s.nh
  else if i = 4 then s.key0
  else if i = 5 then s.key1
  else if i = 6 then s.key2
  else if i = 7 then s.key3
  else if i = 8 then s.statPfx
  else if i = 9 then s.statNode
  else if i = 10 then s.statWide
  else 0#32

/-- What `RegWrite(i, v)` stores for `i` in 1 to 15: `NH` and `KEY0 .. KEY3` take the value, every other write is ignored
(10_state.md R22, R43). A write to `CMD` is a command and is not a store. -/
def State.setReg (s : State) (i : Nat) (v : Word) : State :=
  if i = 3 then { s with nh := v }
  else if i = 4 then { s with key0 := v }
  else if i = 5 then { s with key1 := v }
  else if i = 6 then { s with key2 := v }
  else if i = 7 then { s with key3 := v }
  else s

/-- The byte address of register `i` on a platform that maps the registers to bytes (10_state.md R21, 20_memory.md R65).
No rule uses it (log 15). -/
def regByteAddress (i : Nat) : Nat := Config.regBase + 4 * i

end Sys2Proof.Machine
end

