-- ==== Sys2Proof/Machine/HostPort.lean ====
section
/-! DEFINITION. The host operations (20_memory.md R62), the write to `CMD` among them. -/

namespace Sys2Proof.Machine

/-- A write of `c` to `CMD` (10_state.md R42, 40_commands_common.md R120): an illegal word raises `ERR_ILLEGAL_CMD` in
either lifecycle state (30_encoding.md R98). -/
def runCommand (c : Word) (s : State) : Host.Outcome State Fault Refusal :=
  match decode c with
  | .instr i => exec i s
  | .reservedOpcode _ => .next (s.raise .errIllegalCmd)
  | .reservedBits _ => .next (s.raise .errIllegalCmd)

/-- One host operation, or a reset (20_memory.md R62 to R64, 10_state.md R40, R43, 70_reset_and_hazards.md R300). -/
def hostStep (op : HostOp) (s : State) : Host.Outcome State Fault Refusal :=
  match op with
  | .regRead i => if i ≤ 15 then .next (s.pushRead (s.regWord i)) else .refused (.hostIndexOutOfRange op)
  | .regWrite i v =>
    if i = 0 then runCommand v s
    else if i ≤ 15 then .next (s.setReg i v)
    else .refused (.hostIndexOutOfRange op)
  | .binRead w =>
    if w < 4 * s.params.batchMax then .next (s.pushRead (s.binWord w)) else .refused (.hostIndexOutOfRange op)
  | .binWrite w v =>
    if w < 4 * s.params.batchMax then .next { s with bin := s.bin.write w v }
    else .refused (.hostIndexOutOfRange op)
  | .boutRead i =>
    if i < s.params.batchMax then .next (s.pushRead (s.boutWord i)) else .refused (.hostIndexOutOfRange op)
  | .boutWrite i _ => if i < s.params.batchMax then .next s else .refused (.hostIndexOutOfRange op)
  | .reset => .next s.afterReset

/-- One step: the next pending operation takes its whole effect (20_memory.md R67). With none pending the engine is idle
and keeps all state (60_exceptions.md R285). -/
def takeNext (s : State) : Host.Outcome State Fault Refusal :=
  match s.pending with
  | [] => .next s
  | op :: rest => hostStep op { s with pending := rest }

end Sys2Proof.Machine
end

