-- ==== Sys2Proof/Machine/Step.lean ====
section
/-! DEFINITION. One step of the machine, and where it takes its next command from. -/

namespace Sys2Proof.Machine

/-- One step: the host's next operation (20_memory.md R67). -/
def step (s : State) : Host.Outcome State Fault Refusal := takeNext s

/-- The state in which the host's next operation writes the command word to `CMD` (10_state.md R42; log 2). -/
def State.withFetchWord (s : State) (nbits w : Nat) : State := s.pushPending (.regWrite 0 (tableWord nbits w))

end Sys2Proof.Machine
end

