-- ==== Sys2Proof/Machine/Abstract.lean ====
section
/-! DEFINITION. The abstract machine of 40_commands_common.md R144: the table as its prefix store alone. -/

namespace Sys2Proof.Machine

/-- `path(N, k)`: the top `8k` bits of a network (10_state.md section 6). -/
def path (w n k : Nat) : Nat := n >>> (w - 8 * k)

/-- `below(k, p)`: some stored prefix is longer than `8k` and has path `p` (10_state.md section 6). -/
def below (ps : PrefixStore) (w k p : Nat) : Bool :=
  ps.any fun e => decide (8 * k < e.1.len) && decide (path w e.1.net k = p)

/-- The pairs `(k, p)` of a level `k` in `lo .. hi` with `below(k, p)`, each once. -/
def nodePaths (ps : PrefixStore) (w lo hi : Nat) : List (Nat × Nat) :=
  (ps.flatMap fun e =>
    ((List.range' lo (hi + 1 - lo)).filter fun k => decide (8 * k < e.1.len)).map fun k => (k, path w e.1.net k)).dedup

/-- `nodes(ALGO, P)` (40_commands_common.md R144). -/
def nodesOf (algo : Algo) (w : Nat) (ps : PrefixStore) : Nat :=
  match algo with
  | .stride8 => 1 + (nodePaths ps w 1 (w / 8 - 1)).length
  | .dir24 => (nodePaths ps w 3 3).length
  | .wide16 => (nodePaths ps w 2 15).length

/-- `NUM_WIDE` of an open table (10_state.md R29). -/
def wideOf (algo : Algo) : Nat :=
  match algo with
  | .stride8 => 0
  | .dir24 => 0
  | .wide16 => 1

/-- The open table of the abstract machine: the configuration and the store; the counters are functions of them, and
there is no slot array (40_commands_common.md R144). -/
def Table.ofStore (algo : Algo) (family : Family) (strict : Bool) (ps : PrefixStore) : Table :=
  { Table.reset with
    life := .opened
    algo := algo
    family := family
    strict := strict
    prefixes := ps
    numPfx := BitVec.ofNat 32 ps.length
    numNodes := BitVec.ofNat 32 (nodesOf algo (Family.width family) ps)
    numWide := BitVec.ofNat 32 (wideOf algo) }

/-- What the abstract machine keeps of a table: everything but the slot arrays, the pool and the free input. -/
def Table.forget (t : Table) : Table :=
  { t with pool := [], rootb := 0, dir := [], root16 := [], picks := [] }

/-- What the abstract machine keeps of a state. -/
def State.forget (s : State) : State := s.withTable s.table.forget

/-- CONSTRUCT of the abstract machine. -/
def absConstruct (algo : AlgoTag) (family : Family) (strict : Bool) (s : State) : State :=
  match s.table.life with
  | .opened => s.raise .errState
  | .closed =>
    match legalLayout algo family with
    | none => s.raise .errInvalidAlgo
    | some a => (s.withTable (Table.ofStore a family strict [])).complete

/-- CLOSE of the abstract machine. -/
def absClose (s : State) : State :=
  match s.table.life with
  | .closed => s.complete
  | .opened => (s.withTable Table.reset).complete

/-- STATS of the abstract machine. -/
def absStats (s : State) : State :=
  match s.table.life with
  | .closed => s.raise .errClosed
  | .opened => s.latchStats.complete

/-- The table of the abstract machine with another store. -/
def Table.withStore (t : Table) (ps : PrefixStore) : Table := Table.ofStore t.algo t.family t.strict ps

/-- `need(N, L)` as a difference of node counts (40_commands_common.md R144). -/
def Table.storeNeed (t : Table) (p : Prefix) (nh : Word) : Nat :=
  nodesOf t.algo t.width (Assoc.put Prefix.before t.prefixes p nh) - nodesOf t.algo t.width t.prefixes

/-- INSERT of the abstract machine. -/
def absInsert (len : Nat) (s : State) : State :=
  match s.table.life with
  | .closed => s.raise .errClosed
  | .opened =>
    match s.prefixOperand len with
    | none => s.raise .errInvalidPrefix
    | some p =>
      if s.nh = sentinel then s.raise .errInvalidNexthop
      else if s.table.stores p = false ∧ s.table.prefixes.length = s.params.maxPrefixes then s.raise .errAlloc
      else if s.params.nNodes - nodesOf s.table.algo s.table.width s.table.prefixes < s.table.storeNeed p s.nh then
        s.raise .errAlloc
      else (s.withTable (s.table.withStore (Assoc.put Prefix.before s.table.prefixes p s.nh))).complete

/-- DELETE of the abstract machine. -/
def absDelete (len : Nat) (s : State) : State :=
  match s.table.life with
  | .closed => s.raise .errClosed
  | .opened =>
    match s.prefixOperand len with
    | none => s.raise .errInvalidPrefix
    | some p =>
      if s.table.stores p then (s.withTable (s.table.withStore (Assoc.erase s.table.prefixes p))).complete
      else s.raise .errNotFound

/-- LOOKUP of the abstract machine: `LPM(P, A)`. -/
def absLookup (s : State) : State :=
  match s.table.life with
  | .closed => (s.withResult sentinel).raise .errClosed
  | .opened => (s.withResult (lpm s.table.prefixes s.table.width s.keyAddress)).complete

/-- `BOUT` of the abstract machine after the first `n` turns of the batch loop. -/
def State.absBatchOut (s : State) : Nat → Memory
  | 0 => s.bout
  | n + 1 => (s.absBatchOut n).write n (lpm s.table.prefixes s.table.width (s.binAddress n))

/-- LOOKUP_BATCH of the abstract machine. -/
def absLookupBatch (count : Nat) (s : State) : State :=
  match s.table.life with
  | .closed => s.raise .errClosed
  | .opened =>
    if s.params.batchMax < count then s.raise .errBatchRange
    else State.complete { s with bout := s.absBatchOut count }

/-- A command of the abstract machine. -/
def absExec (i : Instr) (s : State) : State :=
  match i with
  | .construct algo family strict => absConstruct algo family strict s
  | .insert len => absInsert len s
  | .delete len => absDelete len s
  | .lookup => absLookup s
  | .lookupBatch count => absLookupBatch count s
  | .stats => absStats s
  | .close => absClose s

end Sys2Proof.Machine
end

