-- ==== Sys2Proof/Safety.lean ====
section
/-! DEFINITION. What holds of the engine between two commands (10_state.md R28, R29, R35 to R38), in the terms the
statements use. -/

namespace Sys2Proof.Machine

/-- An array of `n` slots, in its canonical form. -/
abbrev ArrayOk (n : Nat) (r : Runs) : Prop := r.wf = true ∧ ∀ j, n ≤ j → r.get j = Slot.empty

/-- The lowest prefix length that lives in a node of level `k` (10_state.md R36). -/
def levelLow (k : Nat) : Nat := if k = 0 then 0 else 8 * k + 1

/-- The lowest address that begins with the `k` bytes `p` and then the byte `j` (10_state.md R36). -/
def slotAddress (w k p j : Nat) : Nat := (256 * p + j) <<< (w - 8 * (k + 1))

/-- The trie node at depth `d` with path `p`, where it exists: followed, byte by byte of the path, from the node that
`root` gives for the path's first part (10_state.md R35, R36). -/
def Table.nodeFrom (t : Table) (root : Nat → Option Nat) : (d p : Nat) → Option Nat
  | 0, p => root p
  | d + 1, p => (t.nodeFrom root d (p / 256)).bind fun b => t.childAt (.node b) (p % 256)

/-- Where a Stride8 trie begins: `ROOTB`, at the empty path (10_state.md R36). -/
def Table.trieRoot (t : Table) (p : Nat) : Option Nat := if p = 0 then some t.rootb else none

/-- Where the Wide16 sub-tries begin: under each root slot (10_state.md R38). -/
def Table.subRoots (t : Table) (r : Nat) : Option Nat := t.childAt .root16 r

/-- The block of level `k` with path `p`, in the table's layout. An extension block is the block of level 3 under the
direct slot of its 24 top bits (10_state.md R32, R33, R36). -/
def Table.blockAt (t : Table) (k p : Nat) : Option Nat :=
  match t.algo with
  | .stride8 => t.nodeFrom t.trieRoot k p
  | .dir24 => if k = 3 then t.childAt .dir p else none
  | .wide16 => if 2 ≤ k then t.nodeFrom t.subRoots (k - 2) p else none

/-- The slot's leaf is `leaf`, and it is internal exactly when `internal`. -/
abbrev Table.SlotIs (t : Table) (a : SlotArray) (j : Nat) (leaf : Option Leaf) (internal : Bool) : Prop :=
  (t.slot a j).leaf = leaf ∧ (t.slot a j).child.isSome = internal

/-- 10_state.md R35: the blocks in use are those that the root structure reaches, each on one path only. -/
structure Table.Tree (t : Table) : Prop where
  reached : ∀ b, t.inUse b = true ↔ ∃ k p, t.blockAt k p = some b
  onePath : ∀ k p k' p' b, t.blockAt k p = some b → t.blockAt k' p' = some b → k = k' ∧ p = p'

/-- The slots of the trie nodes of level `k`: the best prefix of the level's lengths, and a child exactly where a
longer prefix passes (10_state.md R36, R38). -/
def Table.NodesFilled (t : Table) : Prop :=
  ∀ k p b, t.blockAt k p = some b → (t.block b).cnt = 0 ∧ ∀ j, j < nodeSlots →
    t.SlotIs (.node b) j (best t.prefixes t.width (levelLow k) (8 * k + 8) (slotAddress t.width k p j))
      (below t.prefixes t.width (k + 1) (256 * p + j))

/-- 10_state.md R36. -/
structure Table.Stride8Canonical (t : Table) : Prop where
  exist : ∀ k p, (t.blockAt k p).isSome = if k = 0 then decide (p = 0) else below t.prefixes t.width k p
  filled : t.NodesFilled

/-- How many stored prefixes of length 25 to 32 lie under direct slot `i` (10_state.md R37). -/
def longUnder (ps : PrefixStore) (i : Nat) : Nat :=
  (ps.filter fun e => decide (25 ≤ e.1.len) && decide (e.1.net >>> 8 = i)).length

/-- 10_state.md R37. -/
structure Table.Dir24Canonical (t : Table) : Prop where
  direct : ∀ i, i < dirSlots → t.SlotIs .dir i (best t.prefixes 32 0 24 (i <<< 8)) (below t.prefixes 32 3 i)
  extension : ∀ i b, t.childAt .dir i = some b → (t.block b).cnt = longUnder t.prefixes i ∧ ∀ j, j < nodeSlots →
    t.SlotIs (.node b) j (best t.prefixes 32 0 32 (256 * i + j)) false

/-- 10_state.md R38. -/
structure Table.Wide16Canonical (t : Table) : Prop where
  root : ∀ r, r < wideSlots → t.SlotIs .root16 r (best t.prefixes 128 0 16 (r <<< 112)) (below t.prefixes 128 2 r)
  exist : ∀ k p, 2 ≤ k → (t.blockAt k p).isSome = below t.prefixes 128 k p
  filled : t.NodesFilled

/-- The slot arrays are the function of the prefix store that the layout's rule gives (10_state.md R36, R37, R38). -/
def Table.Canonical (t : Table) : Prop :=
  match t.algo with
  | .stride8 => t.Stride8Canonical
  | .dir24 => t.Dir24Canonical
  | .wide16 => t.Wide16Canonical

/-- A stored entry (10_state.md R28): the length in range, the network canonical, the next-hop not the sentinel. -/
abbrev EntryOk (w : Nat) (e : Prefix × Word) : Prop :=
  e.1.len ≤ w ∧ e.1.net < 2 ^ w ∧ canon w e.1.net e.1.len = e.1.net ∧ e.2 ≠ sentinel

/-- 10_state.md R28: the prefix store. -/
structure Table.StoreOk (maxPrefixes : Nat) (t : Table) : Prop where
  sorted : Assoc.wf Prefix.before t.prefixes = true
  entries : ∀ e ∈ t.prefixes, EntryOk t.width e
  bounded : t.prefixes.length ≤ maxPrefixes

/-- 10_state.md R31, R34: the pool, and its arrays. -/
structure Table.PoolOk (nNodes : Nat) (t : Table) : Prop where
  sorted : Assoc.wf natBefore t.pool = true
  numbers : ∀ e ∈ t.pool, e.1 < nNodes
  arrays : ∀ e ∈ t.pool, ArrayOk nodeSlots e.2.slots
  dir : ArrayOk dirSlots t.dir
  root16 : ArrayOk wideSlots t.root16

/-- 10_state.md R29: the counters. -/
structure Table.CountersOk (t : Table) : Prop where
  pfx : t.numPfx.toNat = t.prefixes.length
  nodes : t.numNodes.toNat = t.pool.length
  wide : t.numWide = if t.life = .opened ∧ t.algo = .wide16 then 1#32 else 0#32

/-- 00_scope.md R2: the legal pairs of layout and family. -/
abbrev legalPair (a : Algo) (f : Family) : Prop :=
  (a = .stride8 ∧ f = .ipv4) ∨ (a = .stride8 ∧ f = .ipv6) ∨ (a = .dir24 ∧ f = .ipv4) ∨ (a = .wide16 ∧ f = .ipv6)

/-- What holds of the table between two commands (10_state.md R26, R28, R29, R35 to R38). -/
structure Table.Ok (ps : Params) (t : Table) : Prop where
  store : t.StoreOk ps.maxPrefixes
  pool : t.PoolOk ps.nNodes
  counters : t.CountersOk
  /-- 10_state.md R25, R26: a closed engine holds no table, and its configuration fields are 0. -/
  closed : t.life = .closed →
    t.prefixes = [] ∧ t.pool = [] ∧ t.algo = .stride8 ∧ t.family = .ipv4 ∧ t.strict = false
  legal : t.life = .opened → legalPair t.algo t.family
  tree : t.life = .opened → t.Tree
  canonical : t.life = .opened → t.Canonical

/-- A buffer of `n` words in its canonical form. -/
abbrev BufferOk (n : Nat) (m : Memory) : Prop := m.wf = true ∧ ∀ e ∈ m, e.1 < n

/-- The invariant of the machine: legal parameters, a table that is the function of its store, and canonical buffers. -/
structure State.Inv (s : State) : Prop where
  params : s.params.Legal
  table : s.table.Ok s.params
  bin : BufferOk (4 * s.params.batchMax) s.bin
  bout : BufferOk s.params.batchMax s.bout

/-- Everything the host can see or has at hand: the registers, `STATUS`, the buffers, its own operations and what it has
read. The slot arrays, the pool, the free input and the store itself are not seen (10_state.md R41). -/
structure HostView where
  status : Word
  result : Word
  nh : Word
  key0 : Word
  key1 : Word
  key2 : Word
  key3 : Word
  statPfx : Word
  statNode : Word
  statWide : Word
  bin : Memory
  bout : Memory
  pending : List HostOp
  reads : List Word
deriving DecidableEq, Repr

/-- The host's view of a state. -/
def State.view (s : State) : HostView where
  status := s.status
  result := s.result
  nh := s.nh
  key0 := s.key0
  key1 := s.key1
  key2 := s.key2
  key3 := s.key3
  statPfx := s.statPfx
  statNode := s.statNode
  statWide := s.statWide
  bin := s.bin
  bout := s.bout
  pending := s.pending
  reads := s.reads

/-- The prefix that INSERT and DELETE of length `len` name, in its canonical form (40_commands_common.md R130). -/
def State.operand (s : State) (len : Nat) : Prefix := ⟨len, canon s.table.width s.keyAddress len⟩

/-- The prefix operand passes validation (40_commands_common.md R130). -/
abbrev State.ValidPrefix (s : State) (len : Nat) : Prop :=
  len ≤ s.table.width ∧ (s.table.strict = true → hostbits s.table.width s.keyAddress len = 0)

/-- The store and the pool have room for an INSERT of `p` (40_commands_common.md R132). -/
abbrev State.HasRoom (s : State) (p : Prefix) : Prop :=
  (s.table.stores p = true ∨ s.table.numPfx.toNat ≠ s.params.maxPrefixes) ∧
    s.table.need p ≤ s.params.nNodes - s.table.numNodes.toNat

/-- An INSERT of length `len` passes every check (40_commands_common.md R132). -/
abbrev State.CanInsert (s : State) (len : Nat) : Prop :=
  s.table.life = .opened ∧ s.ValidPrefix len ∧ s.nh ≠ sentinel ∧ s.HasRoom (s.operand len)

/-- A DELETE of length `len` passes every check (40_commands_common.md R136). -/
abbrev State.CanDelete (s : State) (len : Nat) : Prop :=
  s.table.life = .opened ∧ s.ValidPrefix len ∧ s.table.stores (s.operand len) = true

/-- The operation has an index, and it lies outside the index's space (20_memory.md R63; the write to `BOUT` and the
reset, which R62 does not list, are the model's operations, logs 9 and 10). -/
def HostOp.OutOfRange (ps : Params) : HostOp → Prop
  | .regRead i => 15 < i
  | .regWrite i _ => 15 < i
  | .binRead w => 4 * ps.batchMax ≤ w
  | .binWrite w _ => 4 * ps.batchMax ≤ w
  | .boutRead i => ps.batchMax ≤ i
  | .boutWrite i _ => ps.batchMax ≤ i
  | .reset => False

/-- The layouts and families that no CONSTRUCT accepts (40_commands_common.md R124). -/
abbrev IllegalPair (a : AlgoTag) (f : Family) : Prop :=
  a = .algo3 ∨ (a = .dir24 ∧ f = .ipv6) ∨ (a = .wide16 ∧ f = .ipv4)

/-- The state with the words of `BIN` entry `i` in `KEY0 .. KEY3` (44_batch.md R253). -/
def State.withKeysOfEntry (s : State) (i : Nat) : State :=
  { s with
    key0 := s.binWord (4 * i)
    key1 := s.binWord (4 * i + 1)
    key2 := s.binWord (4 * i + 2)
    key3 := s.binWord (4 * i + 3) }

/-- The codes a command can end with (60_exceptions.md R286). -/
def codesOf : Instr → List Code
  | .construct _ _ _ => [.ok, .errInvalidAlgo, .errState]
  | .insert _ => [.ok, .errInvalidPrefix, .errInvalidNexthop, .errAlloc, .errClosed]
  | .delete _ => [.ok, .errInvalidPrefix, .errNotFound, .errClosed]
  | .lookup => [.ok, .errClosed]
  | .lookupBatch _ => [.ok, .errClosed, .errBatchRange]
  | .stats => [.ok, .errClosed]
  | .close => [.ok]

end Sys2Proof.Machine
end

