-- ==== Sys2Proof/Certificates/Slice0/Obligations.lean ====
section
/-! DEFINITION. The statements for the provers. -/

open Sys2Proof Sys2Proof.Machine

/-! ## Encoding -/

/-- 30_encoding.md R99: `encode` and `decode` are inverse on the seven commands. -/
def Obligations.DecodeEncodeAgree : Prop :=
  (∀ i : Instr, i.wellFormed = true → decode (encode i) = .instr i) ∧
    ∀ (c : Word) (i : Instr), decode c = .instr i → i.wellFormed = true ∧ encode i = c

/-- 30_encoding.md R99, R93 to R95: which fields of a word each command is read from, and which layout and family each
number of a CONSTRUCT word stands for. -/
def Obligations.DecodeReadsTheFormats : Prop :=
  ∀ c : Word,
    (c.extractLsb' 0 4 = 1#4 → c.extractLsb' 8 24 = 0#24 →
      ∃ algo family, decode c = .instr (.construct algo family (c.getLsbD 7)) ∧
        (c.extractLsb' 4 2 = 0#2 → algo = .stride8) ∧ (c.extractLsb' 4 2 = 1#2 → algo = .dir24) ∧
        (c.extractLsb' 4 2 = 2#2 → algo = .wide16) ∧ (c.extractLsb' 4 2 = 3#2 → algo = .algo3) ∧
        (c.extractLsb' 6 1 = 0#1 → family = .ipv4) ∧ (c.extractLsb' 6 1 = 1#1 → family = .ipv6)) ∧
    (c.extractLsb' 0 4 = 2#4 → c.extractLsb' 16 16 = 0#16 → c.extractLsb' 4 4 = 0#4 →
      decode c = .instr (.insert (c.extractLsb' 8 8).toNat)) ∧
    (c.extractLsb' 0 4 = 3#4 → c.extractLsb' 16 16 = 0#16 → c.extractLsb' 4 4 = 0#4 →
      decode c = .instr (.delete (c.extractLsb' 8 8).toNat)) ∧
    (c.extractLsb' 0 4 = 4#4 → c.extractLsb' 4 28 = 0#28 → decode c = .instr .lookup) ∧
    (c.extractLsb' 0 4 = 5#4 → c.extractLsb' 4 4 = 0#4 →
      decode c = .instr (.lookupBatch (c.extractLsb' 8 24).toNat)) ∧
    (c.extractLsb' 0 4 = 6#4 → c.extractLsb' 4 28 = 0#28 → decode c = .instr .stats) ∧
    (c.extractLsb' 0 4 = 7#4 → c.extractLsb' 4 28 = 0#28 → decode c = .instr .close)

/-- 30_encoding.md R92: a word encodes a row's command exactly when it matches the row, and no word matches two. -/
def Obligations.RowsDecideTheCommand : Prop :=
  (∀ (c : Word) (m : String), (∃ i, decode c = .instr i ∧ i.mnemonic = m) ↔
    ∃ r ∈ opcodeRows, r.matchesWord c = true ∧ r.mnemonic = m) ∧
  ∀ (c : Word), ∀ r ∈ opcodeRows, ∀ r' ∈ opcodeRows, r.matchesWord c = true → r'.matchesWord c = true → r = r'

/-- 30_encoding.md R91, R93, R102: words written out from the encoding, one or more for each command, and for each number
of a layout and of a family. -/
def Obligations.SampleWordsDecode : Prop :=
  decode 0b0000_0000_0000_0000_0000_0000_0000_0001#32 = .instr (.construct .stride8 .ipv4 false) ∧
  decode 0b0000_0000_0000_0000_0000_0000_0100_0001#32 = .instr (.construct .stride8 .ipv6 false) ∧
  decode 0b0000_0000_0000_0000_0000_0000_1001_0001#32 = .instr (.construct .dir24 .ipv4 true) ∧
  decode 0b0000_0000_0000_0000_0000_0000_1110_0001#32 = .instr (.construct .wide16 .ipv6 true) ∧
  decode 0b0000_0000_0000_0000_0000_0000_0011_0001#32 = .instr (.construct .algo3 .ipv4 false) ∧
  decode 0b0000_0000_0000_0000_0001_1000_0000_0010#32 = .instr (.insert 24) ∧
  decode 0b0000_0000_0000_0000_1000_0000_0000_0011#32 = .instr (.delete 128) ∧
  decode 0b0000_0000_0000_0000_0000_0000_0000_0100#32 = .instr .lookup ∧
  decode 0b0000_0000_0000_0001_0000_0000_0000_0101#32 = .instr (.lookupBatch 256) ∧
  decode 0b0000_0000_0000_0000_0000_0000_0000_0110#32 = .instr .stats ∧
  decode 0b0000_0000_0000_0000_0000_0000_0000_0111#32 = .instr .close

/-! ## The step -/

/-- 10_state.md R42, 40_commands_common.md R120: the write of a command word to `CMD` is one step, and that step is the
command. -/
def Obligations.StepRunsTheDecodedCommand : Prop :=
  ∀ (s : State) (c : Word) (rest : List HostOp) (i : Instr),
    s.pending = .regWrite 0 c :: rest → decode c = .instr i → step s = exec i { s with pending := rest }

/-- 30_encoding.md R98: a word with a reserved opcode, or with a must-be-zero bit of its row set, writes the code and
nothing else, in either lifecycle state. -/
def Obligations.IllegalWordWritesOnlyTheCode : Prop :=
  ∀ (s : State) (c : Word) (rest : List HostOp), s.pending = .regWrite 0 c :: rest →
    (c.extractLsb' 0 4 = 0#4 ∨ 8 ≤ (c.extractLsb' 0 4).toNat ∨
      ∃ r ∈ opcodeRows, r.pattern.extractLsb' 0 4 = c.extractLsb' 0 4 ∧ c &&& r.mask ≠ r.pattern) →
    step s = .next { s with pending := rest, code := .errIllegalCmd }

/-- 60_exceptions.md R285: with no operation pending the engine keeps all state. -/
def Obligations.IdleStepKeepsTheState : Prop :=
  ∀ s : State, s.pending = [] → step s = .next s

/-- 40_commands_common.md R120, 70_reset_and_hazards.md R322: every command, from every state, ends in a next state. -/
def Obligations.EveryCommandEnds : Prop :=
  ∀ (i : Instr) (s : State), ∃ t, exec i s = .next t

/-- 20_memory.md R63: a step is refused, for whatever reason, exactly when the next operation's index is outside its
space, and then for that reason. That a host write to `BOUT` is an operation with an index is the model's reading (log 9),
and so is that a reset is an operation, which is never refused (log 10). -/
def Obligations.OnlyOutOfRangeIndicesAreRefused : Prop :=
  ∀ s : State,
    ((∃ r, step s = .refused r) ↔ ∃ op rest, s.pending = op :: rest ∧ op.OutOfRange s.params) ∧
    ∀ (op : HostOp) (rest : List HostOp), s.pending = op :: rest → op.OutOfRange s.params →
      step s = .refused (.hostIndexOutOfRange op)

/-! ## Registers and buffers -/

/-- 10_state.md R22: a write to `NH` or to `KEY0 .. KEY3` stores the value, and what the host reads from any other
register is as before. -/
def Obligations.OperandRegistersStore : Prop :=
  ∀ (s : State) (i : Nat) (v : Word) (rest : List HostOp), s.pending = .regWrite i v :: rest → 3 ≤ i → i ≤ 7 →
    ∃ t, step s = .next t ∧
      t = { s with pending := rest, nh := t.nh, key0 := t.key0, key1 := t.key1, key2 := t.key2, key3 := t.key3 } ∧
      ∀ j, j ≤ 15 → t.regWord j = if j = i then v else s.regWord j

/-- 10_state.md R43: the reserved numbers read 0; a write to one of them, or to a read-only register, changes nothing;
a number above 15 is refused. -/
def Obligations.ReservedAndReadOnlyRegisters : Prop :=
  ∀ (s : State) (i : Nat) (v : Word) (rest : List HostOp),
    (11 ≤ i → i ≤ 15 → s.pending = .regRead i :: rest →
      step s = .next { s with pending := rest, reads := 0#32 :: s.reads }) ∧
    ((i ∈ [1, 2, 8, 9, 10] ∨ (11 ≤ i ∧ i ≤ 15)) → s.pending = .regWrite i v :: rest →
      step s = .next { s with pending := rest }) ∧
    (15 < i → s.pending = .regRead i :: rest → step s = .refused (.hostIndexOutOfRange (.regRead i))) ∧
    (15 < i → s.pending = .regWrite i v :: rest → step s = .refused (.hostIndexOutOfRange (.regWrite i v)))

/-- 10_state.md R21, R42, 20_memory.md R64: a read returns the register's word (`CMD` reads 0) and has no other
effect. -/
def Obligations.RegisterReadsHaveNoSideEffect : Prop :=
  ∀ (s : State) (i : Nat) (rest : List HostOp), s.pending = .regRead i :: rest → i ≤ 10 →
    step s = .next { s with
      pending := rest
      reads := [0#32, s.status, s.result, s.nh, s.key0, s.key1, s.key2, s.key3, s.statPfx, s.statNode,
        s.statWide].getD i 0#32 :: s.reads }

/-- 10_state.md R25: the fields of `STATUS`, the numbers of the layouts and families written out. -/
def Obligations.StatusFields : Prop :=
  ∀ s : State,
    (s.status.extractLsb' 0 4).toNat = s.code.number ∧
    (s.status.getLsbD 4 = true ↔ s.table.life = .opened) ∧
    (s.table.life = .closed → s.status.extractLsb' 5 4 = 0#4) ∧
    (s.table.life = .opened →
      (s.table.algo = .stride8 → s.status.extractLsb' 5 2 = 0#2) ∧
      (s.table.algo = .dir24 → s.status.extractLsb' 5 2 = 1#2) ∧
      (s.table.algo = .wide16 → s.status.extractLsb' 5 2 = 2#2) ∧
      (s.table.family = .ipv4 → s.status.extractLsb' 7 1 = 0#1) ∧
      (s.table.family = .ipv6 → s.status.extractLsb' 7 1 = 1#1)) ∧
    (s.status.getLsbD 8 = true ↔ s.table.life = .opened ∧ s.table.strict = true) ∧
    s.status.getLsbD 9 = false ∧
    s.status.extractLsb' 10 22 = 0#22

/-- 60_exceptions.md R271: the numbers of the codes. -/
def Obligations.CodeNumbers : Prop :=
  [Code.ok, .errInvalidPrefix, .errInvalidNexthop, .errNotFound, .errAlloc, .errClosed, .errInvalidAlgo, .errState,
    .errIllegalCmd, .errBatchRange].map Code.number = [0, 1, 2, 3, 4, 5, 6, 7, 8, 9]

/-- 10_state.md R40, 20_memory.md R64: a word of `BIN` written is read back, every other word reads as before, and
nothing else changes. -/
def Obligations.BinStoresWords : Prop :=
  ∀ (s : State) (w : Nat) (v : Word) (rest : List HostOp), s.pending = .binWrite w v :: rest →
    w < 4 * s.params.batchMax →
    ∃ t, step s = .next t ∧ t = { s with pending := rest, bin := t.bin } ∧
      ∀ w', t.binWord w' = if w' = w then v else s.binWord w'

/-- 10_state.md R40, 20_memory.md R62, R64: a read of `BIN` or `BOUT` returns the word and changes nothing; a host write
to `BOUT` is ignored. -/
def Obligations.BufferReadsAndBoutWrites : Prop :=
  ∀ (s : State) (w : Nat) (v : Word) (rest : List HostOp),
    (s.pending = .binRead w :: rest → w < 4 * s.params.batchMax →
      step s = .next { s with pending := rest, reads := s.binWord w :: s.reads }) ∧
    (s.pending = .boutRead w :: rest → w < s.params.batchMax →
      step s = .next { s with pending := rest, reads := s.boutWord w :: s.reads }) ∧
    (s.pending = .boutWrite w v :: rest → w < s.params.batchMax → step s = .next { s with pending := rest })

/-- 10_state.md R23: how the address is packed into the `KEY` registers. -/
def Obligations.AddressPacking : Prop :=
  ∀ s : State,
    (s.table.family = .ipv4 → s.keyAddress = s.key0.toNat ∧ ∀ k, k < 4 →
      byte 32 s.keyAddress k = bits s.key0.toNat (31 - 8 * k) (24 - 8 * k)) ∧
    (s.table.family = .ipv6 → s.keyAddress = (s.key0 ++ s.key1 ++ s.key2 ++ s.key3).toNat ∧ ∀ k, k < 16 →
      byte 128 s.keyAddress k =
        bits ([s.key0, s.key1, s.key2, s.key3].getD (k / 4) 0#32).toNat (31 - 8 * (k % 4)) (24 - 8 * (k % 4)))

/-- 10_state.md R22: no command writes `NH` or `KEY0 .. KEY3`, and only LOOKUP writes `RESULT`. -/
def Obligations.CommandsKeepOperandRegisters : Prop :=
  ∀ (i : Instr) (s t : State), exec i s = .next t →
    t.nh = s.nh ∧ t.key0 = s.key0 ∧ t.key1 = s.key1 ∧ t.key2 = s.key2 ∧ t.key3 = s.key3 ∧
      (i ≠ .lookup → t.result = s.result)

/-- 10_state.md R22: on an IPv4 table `KEY1`, `KEY2`, `KEY3` are ignored by every command. -/
def Obligations.Ipv4IgnoresUpperKeys : Prop :=
  ∀ (i : Instr) (s t : State) (a b c : Word), s.table.family = .ipv4 → exec i s = .next t →
    exec i { s with key1 := a, key2 := b, key3 := c } = .next { t with key1 := a, key2 := b, key3 := c }

/-! ## Reset -/

/-- 10_state.md R44: the values of reset. -/
def Obligations.ResetValues : Prop :=
  State.reset.table.life = .closed ∧ State.reset.status = 0#32 ∧ State.reset.code = .ok ∧
    State.reset.table.algo.number = 0 ∧ State.reset.table.family.toBit = 0 ∧ State.reset.table.strict = false ∧
    State.reset.result = 0xFFFFFFFF#32 ∧ State.reset.nh = 0#32 ∧
    State.reset.key0 = 0#32 ∧ State.reset.key1 = 0#32 ∧ State.reset.key2 = 0#32 ∧ State.reset.key3 = 0#32 ∧
    State.reset.statPfx = 0#32 ∧ State.reset.statNode = 0#32 ∧ State.reset.statWide = 0#32 ∧
    State.reset.table.prefixes = [] ∧ State.reset.table.numPfx = 0#32 ∧ State.reset.table.numNodes = 0#32 ∧
    State.reset.table.numWide = 0#32 ∧ ∀ b, State.reset.table.inUse b = false

/-- 70_reset_and_hazards.md R300: a reset puts the engine at its reset state, whatever it was doing. That it keeps the
parameters, the host's operations and what the host has read is the model's choice (log 10), as are the free input it
leaves to later allocations (log 4) and the values of `ROOTB`, `DIR` and `ROOT16`, which R44 leaves open (log 5). -/
def Obligations.ResetDiscardsTheTable : Prop :=
  ∀ (s : State) (rest : List HostOp), s.pending = .reset :: rest →
    step s = .next { State.reset with
      table := { Table.reset with picks := s.table.picks }
      params := s.params
      pending := rest
      reads := s.reads
      resets := s.resets + 1 }

/-- 70_reset_and_hazards.md R301, 10_state.md R26: CLOSE and a reset leave the same table state, which is no table: the
engine closed, nothing stored, no block in use, the counters 0, `STATUS` 0. CLOSE keeps the host registers and writes the
code, the reset puts them at their reset values. -/
def Obligations.CloseLeavesTheResetTable : Prop :=
  ∀ (s : State) (rest : List HostOp), s.Inv → ∃ t u, exec .close s = .next t ∧
    step { s with pending := .reset :: rest } = .next u ∧
    (∀ v, v = t.table ∨ v = u.table → v.life = .closed ∧ v.prefixes = [] ∧ (∀ b, v.inUse b = false) ∧
      v.numPfx = 0#32 ∧ v.numNodes = 0#32 ∧ v.numWide = 0#32) ∧
    t.status = 0#32 ∧ u.status = 0#32 ∧ t = { s with code := .ok, table := t.table } ∧
    u.result = 0xFFFFFFFF#32 ∧ u.nh = 0#32 ∧ u.key0 = 0#32 ∧ u.key1 = 0#32 ∧ u.key2 = 0#32 ∧ u.key3 = 0#32 ∧
    u.statPfx = 0#32 ∧ u.statNode = 0#32 ∧ u.statWide = 0#32 ∧ u.code = .ok

/-! ## The commands -/

/-- 40_commands_common.md R124: the checks in their order, and the new table, with the slots of the root block or of the
root array empty. Nothing is said of a block that is not in use (93_implementation_defined.md U10). -/
def Obligations.ConstructMakesAnEmptyTable : Prop :=
  ∀ (algo : AlgoTag) (family : Family) (strict : Bool) (s : State), s.params.Legal →
    (s.table.life = .opened → exec (.construct algo family strict) s = .next { s with code := .errState }) ∧
    (s.table.life = .closed → IllegalPair algo family →
      exec (.construct algo family strict) s = .next { s with code := .errInvalidAlgo }) ∧
    (s.table.life = .closed → ¬IllegalPair algo family →
      ∃ t, exec (.construct algo family strict) s = .next t ∧ t = { s with code := .ok, table := t.table } ∧
        t.table.life = .opened ∧ t.table.family = family ∧ t.table.strict = strict ∧ t.table.prefixes = [] ∧
        t.table.numPfx = 0#32 ∧
        (algo = .stride8 → t.table.algo = .stride8 ∧
          t.status.toNat = 16 + (if family = .ipv6 then 128 else 0) + (if strict = true then 256 else 0) ∧
          t.table.numNodes = 1#32 ∧ t.table.numWide = 0#32 ∧ t.table.rootb < s.params.nNodes ∧
          (∀ b, t.table.inUse b = true ↔ b = t.table.rootb) ∧
          ∀ j, j < nodeSlots → t.table.slot (.node t.table.rootb) j = Slot.empty) ∧
        (algo = .dir24 → t.table.algo = .dir24 ∧ t.status.toNat = 48 + (if strict = true then 256 else 0) ∧
          t.table.numNodes = 0#32 ∧ t.table.numWide = 0#32 ∧ (∀ b, t.table.inUse b = false) ∧
          ∀ i, i < dirSlots → t.table.slot .dir i = Slot.empty) ∧
        (algo = .wide16 → t.table.algo = .wide16 ∧ t.status.toNat = 208 + (if strict = true then 256 else 0) ∧
          t.table.numNodes = 0#32 ∧ t.table.numWide = 1#32 ∧ (∀ b, t.table.inUse b = false) ∧
          ∀ r, r < wideSlots → t.table.slot .root16 r = Slot.empty))

/-- 40_commands_common.md R126. -/
def Obligations.CloseReleasesTheTable : Prop :=
  ∀ s : State,
    (s.table.life = .closed → exec .close s = .next { s with code := .ok }) ∧
    (s.table.life = .opened → ∃ t, exec .close s = .next t ∧ t = { s with code := .ok, table := t.table } ∧
      t.table.life = .closed ∧ t.table.prefixes = [] ∧ (∀ b, t.table.inUse b = false) ∧ t.table.numPfx = 0#32 ∧
      t.table.numNodes = 0#32 ∧ t.table.numWide = 0#32 ∧ t.status = 0#32 ∧ exec .close t = .next t ∧
      ∀ i u, exec i t = .next u → u.code = .errClosed ∨ i = .close ∨ ∃ a f x, i = .construct a f x)

/-- 40_commands_common.md R128. -/
def Obligations.StatsLatchesTheCounts : Prop :=
  ∀ s : State,
    (s.table.life = .closed → exec .stats s = .next { s with code := .errClosed }) ∧
    (s.table.life = .opened → exec .stats s = .next { s with
      code := .ok
      statPfx := s.table.numPfx
      statNode := s.table.numNodes
      statWide := s.table.numWide })

/-- 70_reset_and_hazards.md R314: the `STAT_*` registers change only on a successful STATS (and at a reset). -/
def Obligations.StatsAreSnapshots : Prop :=
  ∀ (s t : State), step s = .next t →
    (t.statPfx ≠ s.statPfx ∨ t.statNode ≠ s.statNode ∨ t.statWide ≠ s.statWide) →
    (∃ c rest, s.pending = .regWrite 0 c :: rest ∧ decode c = .instr .stats ∧ t.code = .ok) ∨
      ∃ rest, s.pending = .reset :: rest

/-- 40_commands_common.md R132: an INSERT that passes its checks stores the prefix and counts it; the store is otherwise
as before, and so is everything outside the table. -/
def Obligations.InsertStoresThePrefix : Prop :=
  ∀ (len : Nat) (s : State), s.CanInsert len →
    ∃ t, exec (.insert len) s = .next t ∧ t = { s with code := .ok, table := t.table } ∧
      (∀ q, Assoc.get? t.table.prefixes q =
        if q = s.operand len then some s.nh else Assoc.get? s.table.prefixes q) ∧
      t.table.numPfx = (if s.table.stores (s.operand len) = true then s.table.numPfx else s.table.numPfx + 1#32) ∧
      t.table.life = .opened ∧ t.table.algo = s.table.algo ∧ t.table.family = s.table.family ∧
      t.table.strict = s.table.strict ∧ t.table.numWide = s.table.numWide ∧ t.table.rootb = s.table.rootb

/-- 40_commands_common.md R132: an INSERT that passes its checks takes `need(N, L)` blocks. -/
def Obligations.InsertTakesTheBlocksItNeeds : Prop :=
  ∀ (len : Nat) (s : State), s.Inv → s.CanInsert len →
    ∃ t, exec (.insert len) s = .next t ∧
      t.table.numNodes.toNat = s.table.numNodes.toNat + s.table.need (s.operand len)

/-- 40_commands_common.md R134: a re-insert needs no block, replaces the next-hop, changes no count, makes every lookup
answer from the new store, leaves every slot of a longer prefix alone, and with the same next-hop changes no slot. -/
def Obligations.ReinsertReplacesTheNextHop : Prop :=
  ∀ (len : Nat) (s : State), s.Inv → s.table.life = .opened → s.ValidPrefix len → s.nh ≠ sentinel →
    s.table.stores (s.operand len) = true →
    s.table.need (s.operand len) = 0 ∧
    ∃ t, exec (.insert len) s = .next t ∧ t = { s with code := .ok, table := t.table } ∧
      (∀ q, Assoc.get? t.table.prefixes q =
        if q = s.operand len then some s.nh else Assoc.get? s.table.prefixes q) ∧
      t.table.numPfx = s.table.numPfx ∧ t.table.numNodes = s.table.numNodes ∧ t.table.numWide = s.table.numWide ∧
      (∀ a, a < 2 ^ s.table.width → t.table.layoutLookup a = lpm t.table.prefixes s.table.width a) ∧
      (∀ a j l, (s.table.slot a j).leaf = some l → len < l.tag → t.table.slot a j = s.table.slot a j) ∧
      (Assoc.get? s.table.prefixes (s.operand len) = some s.nh →
        t.table.forget = s.table.forget ∧ ∀ a j, t.table.slot a j = s.table.slot a j)

/-- 40_commands_common.md R136: a DELETE of a stored prefix removes exactly that one and counts it; the store is
otherwise as before, and so is everything outside the table. -/
def Obligations.DeleteRemovesThePrefix : Prop :=
  ∀ (len : Nat) (s : State), s.CanDelete len →
    ∃ t, exec (.delete len) s = .next t ∧ t = { s with code := .ok, table := t.table } ∧
      (∀ q, Assoc.get? t.table.prefixes q = if q = s.operand len then none else Assoc.get? s.table.prefixes q) ∧
      t.table.numPfx = s.table.numPfx - 1#32 ∧
      t.table.life = .opened ∧ t.table.algo = s.table.algo ∧ t.table.family = s.table.family ∧
      t.table.strict = s.table.strict ∧ t.table.numWide = s.table.numWide ∧ t.table.rootb = s.table.rootb

/-- 40_commands_common.md R137: after a DELETE every lookup answers from the store without the prefix, and in a block
still in use only slots with the prefix's own tag have another leaf. -/
def Obligations.DeleteRestoresTheNextBest : Prop :=
  ∀ (len : Nat) (s : State), s.Inv → s.CanDelete len →
    ∃ t, exec (.delete len) s = .next t ∧
      (∀ k0 k1 k2 k3 u, exec .lookup { t with key0 := k0, key1 := k1, key2 := k2, key3 := k3 } = .next u →
        u.result = lpm (Assoc.erase s.table.prefixes (s.operand len)) s.table.width
          (assemble s.table.family k0 k1 k2 k3)) ∧
      ∀ a j, (∀ b, a = .node b → t.table.inUse b = true) →
        (t.table.slot a j).leaf = (s.table.slot a j).leaf ∨
          ∃ l, (s.table.slot a j).leaf = some l ∧ l.tag = len

/-- 40_commands_common.md R140, R141: a LOOKUP answers `LPM(P, A)`; on a closed engine it leaves the sentinel. -/
def Obligations.LookupAnswersLpm : Prop :=
  ∀ s : State,
    (s.table.life = .closed → exec .lookup s = .next { s with result := sentinel, code := .errClosed }) ∧
    (s.Inv → s.table.life = .opened →
      exec .lookup s = .next { s with result := lpm s.table.prefixes s.table.width s.keyAddress, code := .ok })

/-- 10_state.md R39: in an open table whose slot arrays satisfy R36, R37 or R38 for a store of R28, the layout's lookup is
`LPM(P, A)` for every address. Nothing is asked of the counters, of the capacity, or of the pool beyond the blocks that
R36, R37 or R38 speak of. -/
def Obligations.CanonicalTablesAnswerLpm : Prop :=
  ∀ (maxPrefixes : Nat) (t : Table), t.life = .opened → legalPair t.algo t.family → t.StoreOk maxPrefixes →
    t.Canonical → ∀ a, a < 2 ^ t.width → t.layoutLookup a = lpm t.prefixes t.width a

/-- 40_commands_common.md R141: two tables of one family that store the same prefixes answer every LOOKUP alike, whatever
their layouts. -/
def Obligations.LayoutsAgree : Prop :=
  ∀ s s' : State, s.Inv → s'.Inv → s.table.life = .opened → s'.table.life = .opened →
    s.table.family = s'.table.family → s.table.prefixes = s'.table.prefixes → s.keyAddress = s'.keyAddress →
    ∃ t t', exec .lookup s = .next t ∧ exec .lookup s' = .next t' ∧ t.result = t'.result

/-- 40_commands_common.md R141: a stored default route is the answer for every address that no longer stored prefix
covers. -/
def Obligations.DefaultRouteAnswersTheRest : Prop :=
  ∀ (s : State) (nh : Word), s.Inv → s.table.life = .opened → Assoc.get? s.table.prefixes ⟨0, 0⟩ = some nh →
    (∀ e ∈ s.table.prefixes, e.1.len ≠ 0 → ¬e.1.covers s.table.width s.keyAddress) →
    exec .lookup s = .next { s with result := nh, code := .ok }

/-- 44_batch.md R253: a batch answers for each entry of `BIN` what a LOOKUP of that entry answers, which is `LPM(P, A)`;
it writes nothing but the first `count` entries of `BOUT` and the code. -/
def Obligations.BatchIsManyLookups : Prop :=
  ∀ (count : Nat) (s : State), s.table.life = .opened → count ≤ s.params.batchMax →
    ∃ t, exec (.lookupBatch count) s = .next t ∧ t = { s with code := .ok, bout := t.bout } ∧
      (∀ i, i < count → ∃ u, exec .lookup (s.withKeysOfEntry i) = .next u ∧ t.boutWord i = u.result) ∧
      (∀ i, count ≤ i → t.boutWord i = s.boutWord i) ∧
      (s.Inv → ∀ i, i < count → t.boutWord i = lpm s.table.prefixes s.table.width (s.binAddress i))

/-- 44_batch.md R254: an empty batch writes the code and nothing else; on a closed engine it fails. -/
def Obligations.EmptyBatchTouchesNothing : Prop :=
  ∀ s : State,
    (s.table.life = .opened → exec (.lookupBatch 0) s = .next { s with code := .ok }) ∧
    (s.table.life = .closed → exec (.lookupBatch 0) s = .next { s with code := .errClosed })

/-! ## Failures -/

/-- 60_exceptions.md R274: the order of the checks. -/
def Obligations.FailurePriority : Prop :=
  ∀ (s : State) (len count : Nat) (algo : AlgoTag) (family : Family) (strict : Bool) (c : Word),
    ((∀ i, decode c ≠ .instr i) → runCommand c s = .next { s with code := .errIllegalCmd }) ∧
    (s.table.life = .opened → exec (.construct algo family strict) s = .next { s with code := .errState }) ∧
    (s.table.life = .closed → IllegalPair algo family →
      exec (.construct algo family strict) s = .next { s with code := .errInvalidAlgo }) ∧
    (s.table.life = .closed →
      exec (.insert len) s = .next { s with code := .errClosed } ∧
      exec (.delete len) s = .next { s with code := .errClosed } ∧
      exec .lookup s = .next { s with result := sentinel, code := .errClosed } ∧
      exec (.lookupBatch count) s = .next { s with code := .errClosed } ∧
      exec .stats s = .next { s with code := .errClosed }) ∧
    (s.table.life = .opened → ¬s.ValidPrefix len →
      exec (.insert len) s = .next { s with code := .errInvalidPrefix } ∧
      exec (.delete len) s = .next { s with code := .errInvalidPrefix }) ∧
    (s.table.life = .opened → s.ValidPrefix len → s.nh = sentinel →
      exec (.insert len) s = .next { s with code := .errInvalidNexthop }) ∧
    (s.table.life = .opened → s.ValidPrefix len → s.nh ≠ sentinel → ¬s.HasRoom (s.operand len) →
      exec (.insert len) s = .next { s with code := .errAlloc }) ∧
    (s.table.life = .opened → s.ValidPrefix len → s.table.stores (s.operand len) = false →
      exec (.delete len) s = .next { s with code := .errNotFound }) ∧
    (s.table.life = .opened → s.params.batchMax < count →
      exec (.lookupBatch count) s = .next { s with code := .errBatchRange })

/-- 60_exceptions.md R276: a command that fails writes its code and, for a LOOKUP of a closed engine, `RESULT`; the table
and all else are what they were. -/
def Obligations.FailuresKeepTheTable : Prop :=
  ∀ (i : Instr) (s t : State), exec i s = .next t → t.code ≠ .ok →
    t = { s with code := t.code, result := t.result } ∧
      (t.result = s.result ∨ (i = .lookup ∧ s.table.life = .closed ∧ t.result = sentinel))

/-- 60_exceptions.md R286: which command can end with which code. -/
def Obligations.CommandsEndWithTheirCodes : Prop :=
  ∀ (i : Instr) (s t : State), exec i s = .next t → t.code ∈ codesOf i

/-- 60_exceptions.md R280: what a command may do depends on `LIFE`. -/
def Obligations.LifecycleGate : Prop :=
  ∀ (i : Instr) (s : State), ∃ t, exec i s = .next t ∧
    (s.table.life = .closed →
      match i with
      | .construct _ _ _ => t.code = .ok ∨ t.code = .errInvalidAlgo
      | .insert _ => t.code = .errClosed
      | .delete _ => t.code = .errClosed
      | .lookup => t.code = .errClosed
      | .lookupBatch _ => t.code = .errClosed
      | .stats => t.code = .errClosed
      | .close => t = { s with code := .ok }) ∧
    (s.table.life = .opened →
      match i with
      | .construct _ _ _ => t.code = .errState
      | .insert _ => t.code ≠ .errClosed
      | .delete _ => t.code ≠ .errClosed
      | .lookup => t.code ≠ .errClosed
      | .lookupBatch _ => t.code ≠ .errClosed
      | .stats => t.code ≠ .errClosed
      | .close => t.code = .ok ∧ t.table.life = .closed)

/-- 10_state.md R26, R27, 40_commands_common.md R122: `LIFE` and the latched configuration change only by a successful
CONSTRUCT, a CLOSE or a reset. -/
def Obligations.OnlyConstructAndCloseReconfigure : Prop :=
  ∀ (s t : State), step s = .next t →
    (t.table.life ≠ s.table.life ∨ t.table.algo ≠ s.table.algo ∨ t.table.family ≠ s.table.family ∨
      t.table.strict ≠ s.table.strict) →
    (∃ c rest a f x, s.pending = .regWrite 0 c :: rest ∧ decode c = .instr (.construct a f x) ∧
      s.table.life = .closed ∧ t.table.life = .opened ∧ t.code = .ok) ∨
    (∃ c rest, s.pending = .regWrite 0 c :: rest ∧ decode c = .instr .close ∧ s.table.life = .opened ∧
      t.table.life = .closed) ∨
    ∃ rest, s.pending = .reset :: rest

/-- 10_state.md R20: the parameters never change. -/
def Obligations.ParametersNeverChange : Prop :=
  ∀ (s t : State), step s = .next t → t.params = s.params

/-! ## Operations -/

/-- 00_scope.md R10. -/
def Obligations.PrefixArithmetic : Prop :=
  ∀ w n len : Nat, len ≤ w → n < 2 ^ w →
    mask w 0 = 0 ∧ mask w w = 2 ^ w - 1 ∧
    (∀ i, (mask w len).testBit i = (decide (w - len ≤ i) && decide (i < w))) ∧
    (∀ i, (canon w n len).testBit i = (n.testBit i && decide (w - len ≤ i))) ∧
    hostbits w n len = n % 2 ^ (w - len) ∧
    (∀ a, a < 2 ^ w →
      (Prefix.covers w ⟨len, canon w n len⟩ a ↔ a / 2 ^ (w - len) = n / 2 ^ (w - len))) ∧
    ∀ a, Prefix.covers w ⟨0, 0⟩ a

/-- 00_scope.md R11: `best` is the longest stored prefix in range that covers the address, `LPM` its next-hop or the
sentinel, and at each length one prefix at most covers it. -/
def Obligations.BestIsTheLongest : Prop :=
  ∀ (p : PrefixStore) (w lo hi a : Nat),
    (∀ nh len, best p w lo hi a = some ⟨nh, len⟩ ↔
      lo ≤ len ∧ len ≤ hi ∧ Assoc.get? p ⟨len, canon w a len⟩ = some nh ∧
        ∀ len', len < len' → len' ≤ hi → Assoc.get? p ⟨len', canon w a len'⟩ = none) ∧
    (best p w lo hi a = none ↔ ∀ len, lo ≤ len → len ≤ hi → Assoc.get? p ⟨len, canon w a len⟩ = none) ∧
    (∀ nh len, best p w 0 w a = some ⟨nh, len⟩ → lpm p w a = nh) ∧
    (best p w 0 w a = none → lpm p w a = sentinel) ∧
    ∀ q q' : Prefix, q.len = q'.len → q.covers w a → q'.covers w a → q = q'

/-- 41_stride8.md R162, for any array of the table that is in use. -/
def Obligations.FanOutRules : Prop :=
  ∀ (t : Table) (a : SlotArray) (base cnt : Nat) (nh : Word) (len : Nat) (sh : Option Leaf),
    (t.array a).wf = true → (∀ b, a = .node b → t.inUse b = true) → ∀ j,
      ((t.fanWrite a base cnt nh len).slot a j).child = (t.slot a j).child ∧
      ((t.fanClear a base cnt len sh).slot a j).child = (t.slot a j).child ∧
      ((t.fanWrite a base cnt nh len).slot a j).leaf =
        (if base ≤ j ∧ j < base + cnt ∧ ∀ l, (t.slot a j).leaf = some l → l.tag ≤ len then some ⟨nh, len⟩
        else (t.slot a j).leaf) ∧
      ((t.fanClear a base cnt len sh).slot a j).leaf =
        (if base ≤ j ∧ j < base + cnt ∧ ((t.slot a j).leaf.map Leaf.tag) = some len then sh
        else (t.slot a j).leaf) ∧
      ∀ a', a' ≠ a → (t.fanWrite a base cnt nh len).slot a' j = t.slot a' j ∧
        (t.fanClear a base cnt len sh).slot a' j = t.slot a' j

/-- 41_stride8.md R161, 42_dir24_8.md R191, 43_wide16.md R221: the ranges of a canonical prefix stay in their arrays. -/
def Obligations.FanOutRangesFit : Prop :=
  ∀ (w : Nat) (q : Prefix), w = 32 ∨ w = 128 → q.len ≤ w → q.net < 2 ^ w → canon w q.net q.len = q.net →
    (8 * (terminalLevel q.len + 1) ≤ w ∧
      byte w q.net (terminalLevel q.len) % 2 ^ (8 - inNodeLength q.len) = 0 ∧
      byte w q.net (terminalLevel q.len) + 2 ^ (8 - inNodeLength q.len) ≤ nodeSlots) ∧
    (w = 32 → q.len ≤ 24 → dirIndex q.net + 2 ^ (24 - q.len) ≤ dirSlots) ∧
    (w = 32 → 25 ≤ q.len → extIndex q.net + 2 ^ (32 - q.len) ≤ nodeSlots) ∧
    (w = 128 → q.len ≤ 16 → rootIndex q.net + 2 ^ (16 - q.len) ≤ wideSlots)

/-- 10_state.md R34: `alloc_block` takes a block that was free and makes it empty; `free_block` gives one back; no other
block changes. -/
def Obligations.AllocAndFree : Prop :=
  ∀ (n : Nat) (t : Table), n ≤ 2 ^ 32 - 1 → t.PoolOk n → t.numNodes.toNat = t.pool.length →
    (1 ≤ t.free n →
      t.inUse (t.allocBlock n).1 = false ∧ (t.allocBlock n).1 < n ∧
      (∀ b, (t.allocBlock n).2.inUse b = true ↔ (b = (t.allocBlock n).1 ∨ t.inUse b = true)) ∧
      (t.allocBlock n).2.block (t.allocBlock n).1 = Block.empty ∧
      (∀ b, b ≠ (t.allocBlock n).1 → (t.allocBlock n).2.block b = t.block b) ∧
      (t.allocBlock n).2.numNodes.toNat = t.numNodes.toNat + 1) ∧
    ∀ b, t.inUse b = true →
      (∀ b', (t.freeBlock b).inUse b' = true ↔ (b' ≠ b ∧ t.inUse b' = true)) ∧
      (∀ b', b' ≠ b → (t.freeBlock b).block b' = t.block b') ∧
      (t.freeBlock b).numNodes.toNat + 1 = t.numNodes.toNat

/-! ## The whole machine -/

/-- 10_state.md R26, R44: the reset state meets the invariant of the machine. That the lists which hold the buffers, the
store, the pool and the slot arrays are in their canonical form is the model's choice (logs 3 and 11), and that the
configuration fields of a closed engine are 0 is its reading (log 6). -/
def Obligations.ResetMeetsTheInvariant : Prop := State.reset.Inv

/-- 10_state.md R26, R28, R29, R35 to R38: between any two host operations the engine's table is well formed: the slot
arrays, the pool and the counters are the function of the prefix store that the layout's rule gives. The clauses of the
invariant about the form of the lists that hold the buffers (log 3), the store, the pool and the slot arrays (log 11) are
the model's choice, and the clause that a closed engine's configuration fields are 0 is its reading (log 6). -/
def Obligations.StepKeepsTheInvariant : Prop :=
  ∀ s t : State, s.Inv → step s = .next t → t.Inv

/-- The buffers keep their canonical form and their size, whatever the table is (log 3). -/
def Obligations.StepKeepsTheBuffers : Prop :=
  ∀ s t : State, BufferOk (4 * s.params.batchMax) s.bin → BufferOk s.params.batchMax s.bout → step s = .next t →
    BufferOk (4 * t.params.batchMax) t.bin ∧ BufferOk t.params.batchMax t.bout

/-- 40_commands_common.md R144: `NUM_NODES` is a function of the layout and the store. -/
def Obligations.NodeCountIsAFunctionOfTheStore : Prop :=
  ∀ s : State, s.Inv → s.table.life = .opened →
    s.table.numNodes.toNat = nodesOf s.table.algo s.table.width s.table.prefixes

/-- 40_commands_common.md R144: `need(N, L)` is a difference of node counts. -/
def Obligations.NeedIsADifferenceOfNodeCounts : Prop :=
  ∀ (len : Nat) (s : State), s.Inv → s.table.life = .opened → s.ValidPrefix len →
    s.table.need (s.operand len) = s.table.storeNeed (s.operand len) s.nh

/-- 40_commands_common.md R144: on every command the slot-level machine and the abstract machine, whose whole table is
the prefix store, agree in all that the abstract machine has (of the configuration after a CLOSE: log 6). -/
def Obligations.SlotsRefineTheAbstractMachine : Prop :=
  ∀ (i : Instr) (s t : State), s.Inv → exec i s = .next t → t.forget = absExec i s.forget

/-- 10_state.md R34, 93_implementation_defined.md U8: which free blocks the allocations take is seen by no host
operation. -/
def Obligations.FreeBlockChoiceIsUnobservable : Prop :=
  ∀ s s' t t' : State, s.Inv → s'.Inv → s.forget = s'.forget → step s = .next t → step s' = .next t' →
    t.forget = t'.forget ∧ t.view = t'.view

/-- 40_commands_common.md R142: an INSERT of a new prefix and the DELETE of it leave the store, the counts and every
answer as they were. -/
def Obligations.ChurnLeavesNoTrace : Prop :=
  ∀ (len : Nat) (s : State), s.Inv → s.CanInsert len → s.table.stores (s.operand len) = false →
    ∃ t u, exec (.insert len) s = .next t ∧ exec (.delete len) t = .next u ∧ u.code = .ok ∧
      u.table.forget = s.table.forget ∧
      ∀ a, a < 2 ^ s.table.width → u.table.layoutLookup a = s.table.layoutLookup a

/-- 40_commands_common.md R132, R141: after an INSERT, a LOOKUP of an address that the prefix covers, and that no longer
stored prefix covers, answers its next-hop. -/
def Obligations.InsertedPrefixAnswers : Prop :=
  ∀ (len : Nat) (s : State) (k0 k1 k2 k3 : Word), s.Inv → s.CanInsert len →
    (s.operand len).covers s.table.width (assemble s.table.family k0 k1 k2 k3) →
    (∀ e ∈ s.table.prefixes, len < e.1.len → ¬e.1.covers s.table.width (assemble s.table.family k0 k1 k2 k3)) →
    ∃ t u, exec (.insert len) s = .next t ∧
      exec .lookup { t with key0 := k0, key1 := k1, key2 := k2, key3 := k3 } = .next u ∧ u.result = s.nh ∧
      u.code = .ok

/-- 70_reset_and_hazards.md R315: with `STRICT = 0` the host bits of the network do not matter, and the `KEY` registers
keep what the host wrote. -/
def Obligations.CanonicalisationIsSilent : Prop :=
  ∀ (len : Nat) (s s' t : State) (i : Instr), i = .insert len ∨ i = .delete len → s.table.strict = false →
    s' = { s with key0 := s'.key0, key1 := s'.key1, key2 := s'.key2, key3 := s'.key3 } →
    s.operand len = s'.operand len → exec i s = .next t →
    exec i s' = .next { t with key0 := s'.key0, key1 := s'.key1, key2 := s'.key2, key3 := s'.key3 }

/-- 40_commands_common.md R126, 10_state.md R25: CLOSE and a reset leave the same configuration, store and counters, those
of the reset state. R126 says so of the fields of `STATUS`; that the latched configuration itself is 0 after a CLOSE
is the model's reading (log 6). -/
def Obligations.CloseZeroesTheConfiguration : Prop :=
  ∀ (s : State) (rest : List HostOp), s.Inv → ∃ t u, exec .close s = .next t ∧
    step { s with pending := .reset :: rest } = .next u ∧
    t.table.forget = u.table.forget ∧ u.table.forget = State.reset.table.forget
end

