-- ==== Sys2Proof/Laws/State.lean ====
section
/-! SUPPORT. One lemma for each field and each update of State and Table: what the update does to the field. -/

namespace Sys2Proof.Machine

/-! ### Updates of a state -/

@[simp] theorem State.withCode_code (s : State) (c : Code) : (s.withCode c).code = c := rfl
@[simp] theorem State.withCode_result (s : State) (c : Code) : (s.withCode c).result = s.result := rfl
@[simp] theorem State.withCode_nh (s : State) (c : Code) : (s.withCode c).nh = s.nh := rfl
@[simp] theorem State.withCode_key0 (s : State) (c : Code) : (s.withCode c).key0 = s.key0 := rfl
@[simp] theorem State.withCode_key1 (s : State) (c : Code) : (s.withCode c).key1 = s.key1 := rfl
@[simp] theorem State.withCode_key2 (s : State) (c : Code) : (s.withCode c).key2 = s.key2 := rfl
@[simp] theorem State.withCode_key3 (s : State) (c : Code) : (s.withCode c).key3 = s.key3 := rfl
@[simp] theorem State.withCode_statPfx (s : State) (c : Code) : (s.withCode c).statPfx = s.statPfx := rfl
@[simp] theorem State.withCode_statNode (s : State) (c : Code) : (s.withCode c).statNode = s.statNode := rfl
@[simp] theorem State.withCode_statWide (s : State) (c : Code) : (s.withCode c).statWide = s.statWide := rfl
@[simp] theorem State.withCode_table (s : State) (c : Code) : (s.withCode c).table = s.table := rfl
@[simp] theorem State.withCode_bin (s : State) (c : Code) : (s.withCode c).bin = s.bin := rfl
@[simp] theorem State.withCode_bout (s : State) (c : Code) : (s.withCode c).bout = s.bout := rfl
@[simp] theorem State.withCode_params (s : State) (c : Code) : (s.withCode c).params = s.params := rfl
@[simp] theorem State.withCode_pending (s : State) (c : Code) : (s.withCode c).pending = s.pending := rfl
@[simp] theorem State.withCode_reads (s : State) (c : Code) : (s.withCode c).reads = s.reads := rfl
@[simp] theorem State.withCode_resets (s : State) (c : Code) : (s.withCode c).resets = s.resets := rfl

@[simp] theorem State.raise_code (s : State) (c : Code) : (s.raise c).code = c := rfl
@[simp] theorem State.raise_result (s : State) (c : Code) : (s.raise c).result = s.result := rfl
@[simp] theorem State.raise_nh (s : State) (c : Code) : (s.raise c).nh = s.nh := rfl
@[simp] theorem State.raise_key0 (s : State) (c : Code) : (s.raise c).key0 = s.key0 := rfl
@[simp] theorem State.raise_key1 (s : State) (c : Code) : (s.raise c).key1 = s.key1 := rfl
@[simp] theorem State.raise_key2 (s : State) (c : Code) : (s.raise c).key2 = s.key2 := rfl
@[simp] theorem State.raise_key3 (s : State) (c : Code) : (s.raise c).key3 = s.key3 := rfl
@[simp] theorem State.raise_statPfx (s : State) (c : Code) : (s.raise c).statPfx = s.statPfx := rfl
@[simp] theorem State.raise_statNode (s : State) (c : Code) : (s.raise c).statNode = s.statNode := rfl
@[simp] theorem State.raise_statWide (s : State) (c : Code) : (s.raise c).statWide = s.statWide := rfl
@[simp] theorem State.raise_table (s : State) (c : Code) : (s.raise c).table = s.table := rfl
@[simp] theorem State.raise_bin (s : State) (c : Code) : (s.raise c).bin = s.bin := rfl
@[simp] theorem State.raise_bout (s : State) (c : Code) : (s.raise c).bout = s.bout := rfl
@[simp] theorem State.raise_params (s : State) (c : Code) : (s.raise c).params = s.params := rfl
@[simp] theorem State.raise_pending (s : State) (c : Code) : (s.raise c).pending = s.pending := rfl
@[simp] theorem State.raise_reads (s : State) (c : Code) : (s.raise c).reads = s.reads := rfl
@[simp] theorem State.raise_resets (s : State) (c : Code) : (s.raise c).resets = s.resets := rfl

@[simp] theorem State.complete_code (s : State) : (s.complete).code = .ok := rfl
@[simp] theorem State.complete_result (s : State) : (s.complete).result = s.result := rfl
@[simp] theorem State.complete_nh (s : State) : (s.complete).nh = s.nh := rfl
@[simp] theorem State.complete_key0 (s : State) : (s.complete).key0 = s.key0 := rfl
@[simp] theorem State.complete_key1 (s : State) : (s.complete).key1 = s.key1 := rfl
@[simp] theorem State.complete_key2 (s : State) : (s.complete).key2 = s.key2 := rfl
@[simp] theorem State.complete_key3 (s : State) : (s.complete).key3 = s.key3 := rfl
@[simp] theorem State.complete_statPfx (s : State) : (s.complete).statPfx = s.statPfx := rfl
@[simp] theorem State.complete_statNode (s : State) : (s.complete).statNode = s.statNode := rfl
@[simp] theorem State.complete_statWide (s : State) : (s.complete).statWide = s.statWide := rfl
@[simp] theorem State.complete_table (s : State) : (s.complete).table = s.table := rfl
@[simp] theorem State.complete_bin (s : State) : (s.complete).bin = s.bin := rfl
@[simp] theorem State.complete_bout (s : State) : (s.complete).bout = s.bout := rfl
@[simp] theorem State.complete_params (s : State) : (s.complete).params = s.params := rfl
@[simp] theorem State.complete_pending (s : State) : (s.complete).pending = s.pending := rfl
@[simp] theorem State.complete_reads (s : State) : (s.complete).reads = s.reads := rfl
@[simp] theorem State.complete_resets (s : State) : (s.complete).resets = s.resets := rfl

@[simp] theorem State.withTable_code (s : State) (t : Table) : (s.withTable t).code = s.code := rfl
@[simp] theorem State.withTable_result (s : State) (t : Table) : (s.withTable t).result = s.result := rfl
@[simp] theorem State.withTable_nh (s : State) (t : Table) : (s.withTable t).nh = s.nh := rfl
@[simp] theorem State.withTable_key0 (s : State) (t : Table) : (s.withTable t).key0 = s.key0 := rfl
@[simp] theorem State.withTable_key1 (s : State) (t : Table) : (s.withTable t).key1 = s.key1 := rfl
@[simp] theorem State.withTable_key2 (s : State) (t : Table) : (s.withTable t).key2 = s.key2 := rfl
@[simp] theorem State.withTable_key3 (s : State) (t : Table) : (s.withTable t).key3 = s.key3 := rfl
@[simp] theorem State.withTable_statPfx (s : State) (t : Table) : (s.withTable t).statPfx = s.statPfx := rfl
@[simp] theorem State.withTable_statNode (s : State) (t : Table) : (s.withTable t).statNode = s.statNode := rfl
@[simp] theorem State.withTable_statWide (s : State) (t : Table) : (s.withTable t).statWide = s.statWide := rfl
@[simp] theorem State.withTable_table (s : State) (t : Table) : (s.withTable t).table = t := rfl
@[simp] theorem State.withTable_bin (s : State) (t : Table) : (s.withTable t).bin = s.bin := rfl
@[simp] theorem State.withTable_bout (s : State) (t : Table) : (s.withTable t).bout = s.bout := rfl
@[simp] theorem State.withTable_params (s : State) (t : Table) : (s.withTable t).params = s.params := rfl
@[simp] theorem State.withTable_pending (s : State) (t : Table) : (s.withTable t).pending = s.pending := rfl
@[simp] theorem State.withTable_reads (s : State) (t : Table) : (s.withTable t).reads = s.reads := rfl
@[simp] theorem State.withTable_resets (s : State) (t : Table) : (s.withTable t).resets = s.resets := rfl

@[simp] theorem State.withResult_code (s : State) (v : Word) : (s.withResult v).code = s.code := rfl
@[simp] theorem State.withResult_result (s : State) (v : Word) : (s.withResult v).result = v := rfl
@[simp] theorem State.withResult_nh (s : State) (v : Word) : (s.withResult v).nh = s.nh := rfl
@[simp] theorem State.withResult_key0 (s : State) (v : Word) : (s.withResult v).key0 = s.key0 := rfl
@[simp] theorem State.withResult_key1 (s : State) (v : Word) : (s.withResult v).key1 = s.key1 := rfl
@[simp] theorem State.withResult_key2 (s : State) (v : Word) : (s.withResult v).key2 = s.key2 := rfl
@[simp] theorem State.withResult_key3 (s : State) (v : Word) : (s.withResult v).key3 = s.key3 := rfl
@[simp] theorem State.withResult_statPfx (s : State) (v : Word) : (s.withResult v).statPfx = s.statPfx := rfl
@[simp] theorem State.withResult_statNode (s : State) (v : Word) : (s.withResult v).statNode = s.statNode := rfl
@[simp] theorem State.withResult_statWide (s : State) (v : Word) : (s.withResult v).statWide = s.statWide := rfl
@[simp] theorem State.withResult_table (s : State) (v : Word) : (s.withResult v).table = s.table := rfl
@[simp] theorem State.withResult_bin (s : State) (v : Word) : (s.withResult v).bin = s.bin := rfl
@[simp] theorem State.withResult_bout (s : State) (v : Word) : (s.withResult v).bout = s.bout := rfl
@[simp] theorem State.withResult_params (s : State) (v : Word) : (s.withResult v).params = s.params := rfl
@[simp] theorem State.withResult_pending (s : State) (v : Word) : (s.withResult v).pending = s.pending := rfl
@[simp] theorem State.withResult_reads (s : State) (v : Word) : (s.withResult v).reads = s.reads := rfl
@[simp] theorem State.withResult_resets (s : State) (v : Word) : (s.withResult v).resets = s.resets := rfl

@[simp] theorem State.latchStats_code (s : State) : (s.latchStats).code = s.code := rfl
@[simp] theorem State.latchStats_result (s : State) : (s.latchStats).result = s.result := rfl
@[simp] theorem State.latchStats_nh (s : State) : (s.latchStats).nh = s.nh := rfl
@[simp] theorem State.latchStats_key0 (s : State) : (s.latchStats).key0 = s.key0 := rfl
@[simp] theorem State.latchStats_key1 (s : State) : (s.latchStats).key1 = s.key1 := rfl
@[simp] theorem State.latchStats_key2 (s : State) : (s.latchStats).key2 = s.key2 := rfl
@[simp] theorem State.latchStats_key3 (s : State) : (s.latchStats).key3 = s.key3 := rfl
@[simp] theorem State.latchStats_statPfx (s : State) : (s.latchStats).statPfx = s.table.numPfx := rfl
@[simp] theorem State.latchStats_statNode (s : State) : (s.latchStats).statNode = s.table.numNodes := rfl
@[simp] theorem State.latchStats_statWide (s : State) : (s.latchStats).statWide = s.table.numWide := rfl
@[simp] theorem State.latchStats_table (s : State) : (s.latchStats).table = s.table := rfl
@[simp] theorem State.latchStats_bin (s : State) : (s.latchStats).bin = s.bin := rfl
@[simp] theorem State.latchStats_bout (s : State) : (s.latchStats).bout = s.bout := rfl
@[simp] theorem State.latchStats_params (s : State) : (s.latchStats).params = s.params := rfl
@[simp] theorem State.latchStats_pending (s : State) : (s.latchStats).pending = s.pending := rfl
@[simp] theorem State.latchStats_reads (s : State) : (s.latchStats).reads = s.reads := rfl
@[simp] theorem State.latchStats_resets (s : State) : (s.latchStats).resets = s.resets := rfl

@[simp] theorem State.pushRead_code (s : State) (v : Word) : (s.pushRead v).code = s.code := rfl
@[simp] theorem State.pushRead_result (s : State) (v : Word) : (s.pushRead v).result = s.result := rfl
@[simp] theorem State.pushRead_nh (s : State) (v : Word) : (s.pushRead v).nh = s.nh := rfl
@[simp] theorem State.pushRead_key0 (s : State) (v : Word) : (s.pushRead v).key0 = s.key0 := rfl
@[simp] theorem State.pushRead_key1 (s : State) (v : Word) : (s.pushRead v).key1 = s.key1 := rfl
@[simp] theorem State.pushRead_key2 (s : State) (v : Word) : (s.pushRead v).key2 = s.key2 := rfl
@[simp] theorem State.pushRead_key3 (s : State) (v : Word) : (s.pushRead v).key3 = s.key3 := rfl
@[simp] theorem State.pushRead_statPfx (s : State) (v : Word) : (s.pushRead v).statPfx = s.statPfx := rfl
@[simp] theorem State.pushRead_statNode (s : State) (v : Word) : (s.pushRead v).statNode = s.statNode := rfl
@[simp] theorem State.pushRead_statWide (s : State) (v : Word) : (s.pushRead v).statWide = s.statWide := rfl
@[simp] theorem State.pushRead_table (s : State) (v : Word) : (s.pushRead v).table = s.table := rfl
@[simp] theorem State.pushRead_bin (s : State) (v : Word) : (s.pushRead v).bin = s.bin := rfl
@[simp] theorem State.pushRead_bout (s : State) (v : Word) : (s.pushRead v).bout = s.bout := rfl
@[simp] theorem State.pushRead_params (s : State) (v : Word) : (s.pushRead v).params = s.params := rfl
@[simp] theorem State.pushRead_pending (s : State) (v : Word) : (s.pushRead v).pending = s.pending := rfl
@[simp] theorem State.pushRead_reads (s : State) (v : Word) : (s.pushRead v).reads = v :: s.reads := rfl
@[simp] theorem State.pushRead_resets (s : State) (v : Word) : (s.pushRead v).resets = s.resets := rfl

@[simp] theorem State.pushPending_code (s : State) (op : HostOp) : (s.pushPending op).code = s.code := rfl
@[simp] theorem State.pushPending_result (s : State) (op : HostOp) : (s.pushPending op).result = s.result := rfl
@[simp] theorem State.pushPending_nh (s : State) (op : HostOp) : (s.pushPending op).nh = s.nh := rfl
@[simp] theorem State.pushPending_key0 (s : State) (op : HostOp) : (s.pushPending op).key0 = s.key0 := rfl
@[simp] theorem State.pushPending_key1 (s : State) (op : HostOp) : (s.pushPending op).key1 = s.key1 := rfl
@[simp] theorem State.pushPending_key2 (s : State) (op : HostOp) : (s.pushPending op).key2 = s.key2 := rfl
@[simp] theorem State.pushPending_key3 (s : State) (op : HostOp) : (s.pushPending op).key3 = s.key3 := rfl
@[simp] theorem State.pushPending_statPfx (s : State) (op : HostOp) : (s.pushPending op).statPfx = s.statPfx := rfl
@[simp] theorem State.pushPending_statNode (s : State) (op : HostOp) : (s.pushPending op).statNode = s.statNode := rfl
@[simp] theorem State.pushPending_statWide (s : State) (op : HostOp) : (s.pushPending op).statWide = s.statWide := rfl
@[simp] theorem State.pushPending_table (s : State) (op : HostOp) : (s.pushPending op).table = s.table := rfl
@[simp] theorem State.pushPending_bin (s : State) (op : HostOp) : (s.pushPending op).bin = s.bin := rfl
@[simp] theorem State.pushPending_bout (s : State) (op : HostOp) : (s.pushPending op).bout = s.bout := rfl
@[simp] theorem State.pushPending_params (s : State) (op : HostOp) : (s.pushPending op).params = s.params := rfl
@[simp] theorem State.pushPending_pending (s : State) (op : HostOp) : (s.pushPending op).pending = op :: s.pending := rfl
@[simp] theorem State.pushPending_reads (s : State) (op : HostOp) : (s.pushPending op).reads = s.reads := rfl
@[simp] theorem State.pushPending_resets (s : State) (op : HostOp) : (s.pushPending op).resets = s.resets := rfl

/-! ### Updates of a table -/

@[simp] theorem Table.latch_life (t : Table) (a : Algo) (f : Family) (b : Bool) : (t.latch a f b).life = .opened := rfl
@[simp] theorem Table.latch_algo (t : Table) (a : Algo) (f : Family) (b : Bool) : (t.latch a f b).algo = a := rfl
@[simp] theorem Table.latch_family (t : Table) (a : Algo) (f : Family) (b : Bool) : (t.latch a f b).family = f := rfl
@[simp] theorem Table.latch_strict (t : Table) (a : Algo) (f : Family) (b : Bool) : (t.latch a f b).strict = b := rfl
@[simp] theorem Table.latch_prefixes (t : Table) (a : Algo) (f : Family) (b : Bool) : (t.latch a f b).prefixes = [] := rfl
@[simp] theorem Table.latch_numPfx (t : Table) (a : Algo) (f : Family) (b : Bool) : (t.latch a f b).numPfx = 0#32 := rfl
@[simp] theorem Table.latch_numNodes (t : Table) (a : Algo) (f : Family) (b : Bool) : (t.latch a f b).numNodes = 0#32 := rfl
@[simp] theorem Table.latch_numWide (t : Table) (a : Algo) (f : Family) (b : Bool) : (t.latch a f b).numWide = 0#32 := rfl
@[simp] theorem Table.latch_pool (t : Table) (a : Algo) (f : Family) (b : Bool) : (t.latch a f b).pool = [] := rfl
@[simp] theorem Table.latch_rootb (t : Table) (a : Algo) (f : Family) (b : Bool) : (t.latch a f b).rootb = t.rootb := rfl
@[simp] theorem Table.latch_dir (t : Table) (a : Algo) (f : Family) (b : Bool) : (t.latch a f b).dir = t.dir := rfl
@[simp] theorem Table.latch_root16 (t : Table) (a : Algo) (f : Family) (b : Bool) : (t.latch a f b).root16 = t.root16 := rfl
@[simp] theorem Table.latch_picks (t : Table) (a : Algo) (f : Family) (b : Bool) : (t.latch a f b).picks = t.picks := rfl

@[simp] theorem Table.shut_life (t : Table) : (t.shut).life = .closed := rfl
@[simp] theorem Table.shut_algo (t : Table) : (t.shut).algo = .stride8 := rfl
@[simp] theorem Table.shut_family (t : Table) : (t.shut).family = .ipv4 := rfl
@[simp] theorem Table.shut_strict (t : Table) : (t.shut).strict = false := rfl
@[simp] theorem Table.shut_prefixes (t : Table) : (t.shut).prefixes = [] := rfl
@[simp] theorem Table.shut_numPfx (t : Table) : (t.shut).numPfx = 0#32 := rfl
@[simp] theorem Table.shut_numNodes (t : Table) : (t.shut).numNodes = 0#32 := rfl
@[simp] theorem Table.shut_numWide (t : Table) : (t.shut).numWide = 0#32 := rfl
@[simp] theorem Table.shut_pool (t : Table) : (t.shut).pool = [] := rfl
@[simp] theorem Table.shut_rootb (t : Table) : (t.shut).rootb = t.rootb := rfl
@[simp] theorem Table.shut_dir (t : Table) : (t.shut).dir = t.dir := rfl
@[simp] theorem Table.shut_root16 (t : Table) : (t.shut).root16 = t.root16 := rfl
@[simp] theorem Table.shut_picks (t : Table) : (t.shut).picks = t.picks := rfl

@[simp] theorem Table.freeBlock_life (t : Table) (b : Nat) : (t.freeBlock b).life = t.life := rfl
@[simp] theorem Table.freeBlock_algo (t : Table) (b : Nat) : (t.freeBlock b).algo = t.algo := rfl
@[simp] theorem Table.freeBlock_family (t : Table) (b : Nat) : (t.freeBlock b).family = t.family := rfl
@[simp] theorem Table.freeBlock_strict (t : Table) (b : Nat) : (t.freeBlock b).strict = t.strict := rfl
@[simp] theorem Table.freeBlock_prefixes (t : Table) (b : Nat) : (t.freeBlock b).prefixes = t.prefixes := rfl
@[simp] theorem Table.freeBlock_numPfx (t : Table) (b : Nat) : (t.freeBlock b).numPfx = t.numPfx := rfl
@[simp] theorem Table.freeBlock_numNodes (t : Table) (b : Nat) : (t.freeBlock b).numNodes = t.numNodes - 1#32 := rfl
@[simp] theorem Table.freeBlock_numWide (t : Table) (b : Nat) : (t.freeBlock b).numWide = t.numWide := rfl
@[simp] theorem Table.freeBlock_pool (t : Table) (b : Nat) : (t.freeBlock b).pool = Assoc.erase t.pool b := rfl
@[simp] theorem Table.freeBlock_rootb (t : Table) (b : Nat) : (t.freeBlock b).rootb = t.rootb := rfl
@[simp] theorem Table.freeBlock_dir (t : Table) (b : Nat) : (t.freeBlock b).dir = t.dir := rfl
@[simp] theorem Table.freeBlock_root16 (t : Table) (b : Nat) : (t.freeBlock b).root16 = t.root16 := rfl
@[simp] theorem Table.freeBlock_picks (t : Table) (b : Nat) : (t.freeBlock b).picks = t.picks := rfl

@[simp] theorem Table.putPrefix_life (t : Table) (p : Prefix) (v : Word) (e : Bool) : (t.putPrefix p v e).life = t.life := rfl
@[simp] theorem Table.putPrefix_algo (t : Table) (p : Prefix) (v : Word) (e : Bool) : (t.putPrefix p v e).algo = t.algo := rfl
@[simp] theorem Table.putPrefix_family (t : Table) (p : Prefix) (v : Word) (e : Bool) : (t.putPrefix p v e).family = t.family := rfl
@[simp] theorem Table.putPrefix_strict (t : Table) (p : Prefix) (v : Word) (e : Bool) : (t.putPrefix p v e).strict = t.strict := rfl
@[simp] theorem Table.putPrefix_prefixes (t : Table) (p : Prefix) (v : Word) (e : Bool) : (t.putPrefix p v e).prefixes = Assoc.put Prefix.before t.prefixes p v := rfl
@[simp] theorem Table.putPrefix_numPfx (t : Table) (p : Prefix) (v : Word) (e : Bool) : (t.putPrefix p v e).numPfx = if e then t.numPfx else t.numPfx + 1#32 := rfl
@[simp] theorem Table.putPrefix_numNodes (t : Table) (p : Prefix) (v : Word) (e : Bool) : (t.putPrefix p v e).numNodes = t.numNodes := rfl
@[simp] theorem Table.putPrefix_numWide (t : Table) (p : Prefix) (v : Word) (e : Bool) : (t.putPrefix p v e).numWide = t.numWide := rfl
@[simp] theorem Table.putPrefix_pool (t : Table) (p : Prefix) (v : Word) (e : Bool) : (t.putPrefix p v e).pool = t.pool := rfl
@[simp] theorem Table.putPrefix_rootb (t : Table) (p : Prefix) (v : Word) (e : Bool) : (t.putPrefix p v e).rootb = t.rootb := rfl
@[simp] theorem Table.putPrefix_dir (t : Table) (p : Prefix) (v : Word) (e : Bool) : (t.putPrefix p v e).dir = t.dir := rfl
@[simp] theorem Table.putPrefix_root16 (t : Table) (p : Prefix) (v : Word) (e : Bool) : (t.putPrefix p v e).root16 = t.root16 := rfl
@[simp] theorem Table.putPrefix_picks (t : Table) (p : Prefix) (v : Word) (e : Bool) : (t.putPrefix p v e).picks = t.picks := rfl

@[simp] theorem Table.removePrefix_life (t : Table) (p : Prefix) : (t.removePrefix p).life = t.life := rfl
@[simp] theorem Table.removePrefix_algo (t : Table) (p : Prefix) : (t.removePrefix p).algo = t.algo := rfl
@[simp] theorem Table.removePrefix_family (t : Table) (p : Prefix) : (t.removePrefix p).family = t.family := rfl
@[simp] theorem Table.removePrefix_strict (t : Table) (p : Prefix) : (t.removePrefix p).strict = t.strict := rfl
@[simp] theorem Table.removePrefix_prefixes (t : Table) (p : Prefix) : (t.removePrefix p).prefixes = Assoc.erase t.prefixes p := rfl
@[simp] theorem Table.removePrefix_numPfx (t : Table) (p : Prefix) : (t.removePrefix p).numPfx = t.numPfx - 1#32 := rfl
@[simp] theorem Table.removePrefix_numNodes (t : Table) (p : Prefix) : (t.removePrefix p).numNodes = t.numNodes := rfl
@[simp] theorem Table.removePrefix_numWide (t : Table) (p : Prefix) : (t.removePrefix p).numWide = t.numWide := rfl
@[simp] theorem Table.removePrefix_pool (t : Table) (p : Prefix) : (t.removePrefix p).pool = t.pool := rfl
@[simp] theorem Table.removePrefix_rootb (t : Table) (p : Prefix) : (t.removePrefix p).rootb = t.rootb := rfl
@[simp] theorem Table.removePrefix_dir (t : Table) (p : Prefix) : (t.removePrefix p).dir = t.dir := rfl
@[simp] theorem Table.removePrefix_root16 (t : Table) (p : Prefix) : (t.removePrefix p).root16 = t.root16 := rfl
@[simp] theorem Table.removePrefix_picks (t : Table) (p : Prefix) : (t.removePrefix p).picks = t.picks := rfl

@[simp] theorem Table.allocBlock_life (t : Table) (n : Nat) : (t.allocBlock n).2.life = t.life := rfl
@[simp] theorem Table.allocBlock_algo (t : Table) (n : Nat) : (t.allocBlock n).2.algo = t.algo := rfl
@[simp] theorem Table.allocBlock_family (t : Table) (n : Nat) : (t.allocBlock n).2.family = t.family := rfl
@[simp] theorem Table.allocBlock_strict (t : Table) (n : Nat) : (t.allocBlock n).2.strict = t.strict := rfl
@[simp] theorem Table.allocBlock_prefixes (t : Table) (n : Nat) : (t.allocBlock n).2.prefixes = t.prefixes := rfl
@[simp] theorem Table.allocBlock_numPfx (t : Table) (n : Nat) : (t.allocBlock n).2.numPfx = t.numPfx := rfl
@[simp] theorem Table.allocBlock_numNodes (t : Table) (n : Nat) : (t.allocBlock n).2.numNodes = t.numNodes + 1#32 := rfl
@[simp] theorem Table.allocBlock_numWide (t : Table) (n : Nat) : (t.allocBlock n).2.numWide = t.numWide := rfl
@[simp] theorem Table.allocBlock_pool (t : Table) (n : Nat) : (t.allocBlock n).2.pool = Assoc.put natBefore t.pool (t.pickFree n) Block.empty := rfl
@[simp] theorem Table.allocBlock_rootb (t : Table) (n : Nat) : (t.allocBlock n).2.rootb = t.rootb := rfl
@[simp] theorem Table.allocBlock_dir (t : Table) (n : Nat) : (t.allocBlock n).2.dir = t.dir := rfl
@[simp] theorem Table.allocBlock_root16 (t : Table) (n : Nat) : (t.allocBlock n).2.root16 = t.root16 := rfl
@[simp] theorem Table.allocBlock_picks (t : Table) (n : Nat) : (t.allocBlock n).2.picks = t.picks.tail := rfl
@[simp] theorem Table.allocBlock_fst (t : Table) (n : Nat) : (t.allocBlock n).1 = t.pickFree n := rfl

end Sys2Proof.Machine
end

