-- ==== Sys2Proof/Laws/Assoc.lean ====
section
/-! SUPPORT. The finite maps: what a read gives after a write or a removal, and that both keep the canonical form. -/

namespace Sys2Proof.Machine

variable {κ α : Type} [DecidableEq κ]

/-- The facts about an order of keys that the canonical form needs. -/
structure KeyOrder (before : κ → κ → Bool) : Prop where
  irrefl : ∀ a, before a a = false
  trans : ∀ a b c, before a b = true → before b c = true → before a c = true
  total : ∀ a b, a ≠ b → before a b = false → before b a = true

theorem natBefore_order : KeyOrder natBefore where
  irrefl a := by simp [natBefore]
  trans a b c := by simp only [natBefore, decide_eq_true_eq]; omega
  total a b := by simp only [natBefore, decide_eq_true_eq, decide_eq_false_iff_not]; omega

theorem prefixBefore_order : KeyOrder Prefix.before where
  irrefl a := by simp [Prefix.before]
  trans a b c := by
    simp only [Prefix.before, Bool.or_eq_true, Bool.and_eq_true, decide_eq_true_eq]; omega
  total a b := by
    obtain ⟨l, n⟩ := a
    obtain ⟨l', n'⟩ := b
    simp only [Prefix.before, Bool.or_eq_true, Bool.and_eq_true, decide_eq_true_eq, Bool.or_eq_false_iff,
      Bool.and_eq_false_iff, decide_eq_false_iff_not, ne_eq, Prefix.mk.injEq]
    omega

@[simp] theorem Assoc.get?_nil (k : κ) : Assoc.get? ([] : Assoc κ α) k = none := rfl

theorem Assoc.get?_cons (a : κ) (v : α) (m : Assoc κ α) (k : κ) :
    Assoc.get? ((a, v) :: m) k = if k = a then some v else Assoc.get? m k := rfl

/-- A read after a write. -/
theorem Assoc.get?_put (before : κ → κ → Bool) (m : Assoc κ α) (k k' : κ) (v : α) :
    Assoc.get? (Assoc.put before m k v) k' = if k' = k then some v else Assoc.get? m k' := by
  induction m with
  | nil => simp [Assoc.put, Assoc.get?]
  | cons e m ih =>
    obtain ⟨a, w⟩ := e
    simp only [Assoc.put]
    split_ifs with h1 h2 h3 h3 h3 <;> simp_all [Assoc.get?]

/-- A read after a removal. -/
theorem Assoc.get?_erase (m : Assoc κ α) (k k' : κ) :
    Assoc.get? (Assoc.erase m k) k' = if k' = k then none else Assoc.get? m k' := by
  induction m with
  | nil => simp [Assoc.erase, Assoc.get?]
  | cons e m ih =>
    obtain ⟨a, w⟩ := e
    have ih' : Assoc.get? (List.filter (fun e => decide (e.1 ≠ k)) m) k' =
        if k' = k then none else Assoc.get? m k' := ih
    by_cases h : a = k
    · subst h
      by_cases h2 : k' = a <;> simp_all [Assoc.erase, Assoc.get?]
    · by_cases h2 : k' = a
      · subst h2; simp [Assoc.erase, Assoc.get?, h]
      · simp only [Assoc.erase, ne_eq, h, not_false_eq_true, decide_true, List.filter_cons_of_pos, Assoc.get?, h2,
          if_false]
        exact ih'

/-- What a read finds is an entry. -/
theorem Assoc.mem_of_get? {m : Assoc κ α} {k : κ} {v : α} (h : Assoc.get? m k = some v) : (k, v) ∈ m := by
  induction m with
  | nil => simp at h
  | cons e m ih =>
    obtain ⟨a, w⟩ := e
    rw [Assoc.get?_cons] at h
    split_ifs at h with h1
    · simp_all
    · exact List.mem_cons_of_mem _ (ih h)

theorem Assoc.get?_isSome_of_mem {m : Assoc κ α} {k : κ} {v : α} (h : (k, v) ∈ m) : (Assoc.get? m k).isSome := by
  induction m with
  | nil => simp at h
  | cons e m ih =>
    obtain ⟨a, w⟩ := e
    rw [Assoc.get?_cons]
    split_ifs with h1
    · rfl
    · rcases List.mem_cons.1 h with h2 | h2
      · simp_all
      · exact ih h2

omit [DecidableEq κ] in
theorem Assoc.wf_cons (before : κ → κ → Bool) (a : κ) (v : α) (m : Assoc κ α) :
    Assoc.wf before ((a, v) :: m) = true ↔ (∀ e ∈ m, before a e.1 = true) ∧ Assoc.wf before m = true := by
  simp [Assoc.wf]

/-- In a canonical map an entry is what a read finds. -/
theorem Assoc.get?_of_mem {before : κ → κ → Bool} (ho : KeyOrder before) {m : Assoc κ α} (hw : Assoc.wf before m = true)
    {k : κ} {v : α} (h : (k, v) ∈ m) : Assoc.get? m k = some v := by
  induction m with
  | nil => simp at h
  | cons e m ih =>
    obtain ⟨a, w⟩ := e
    rw [Assoc.wf_cons] at hw
    rw [Assoc.get?_cons]
    rcases List.mem_cons.1 h with h2 | h2
    · simp_all
    · have hb := hw.1 _ h2
      have hne : k ≠ a := by
        rintro rfl
        simp [ho.irrefl] at hb
      rw [if_neg hne]
      exact ih hw.2 h2

theorem Assoc.mem_iff_get? {before : κ → κ → Bool} (ho : KeyOrder before) {m : Assoc κ α}
    (hw : Assoc.wf before m = true) (k : κ) (v : α) : (k, v) ∈ m ↔ Assoc.get? m k = some v :=
  ⟨Assoc.get?_of_mem ho hw, Assoc.mem_of_get?⟩

theorem Assoc.mem_put {before : κ → κ → Bool} {m : Assoc κ α} {k : κ} {v : α} {e : κ × α}
    (h : e ∈ Assoc.put before m k v) : e = (k, v) ∨ e ∈ m := by
  induction m with
  | nil => simpa [Assoc.put] using h
  | cons x m ih =>
    obtain ⟨a, w⟩ := x
    simp only [Assoc.put] at h
    split_ifs at h with h1 h2
    · rcases List.mem_cons.1 h with h | h
      · exact .inl h
      · exact .inr (List.mem_cons_of_mem _ h)
    · rcases List.mem_cons.1 h with h | h
      · exact .inl h
      · exact .inr h
    · rcases List.mem_cons.1 h with h | h
      · exact .inr (h ▸ List.mem_cons_self)
      · rcases ih h with h | h
        · exact .inl h
        · exact .inr (List.mem_cons_of_mem _ h)

theorem Assoc.mem_erase {m : Assoc κ α} {k : κ} {e : κ × α} : e ∈ Assoc.erase m k ↔ e ∈ m ∧ e.1 ≠ k := by
  simp [Assoc.erase]

/-- A write keeps the canonical form. -/
theorem Assoc.wf_put {before : κ → κ → Bool} (ho : KeyOrder before) {m : Assoc κ α} (hw : Assoc.wf before m = true)
    (k : κ) (v : α) : Assoc.wf before (Assoc.put before m k v) = true := by
  induction m with
  | nil => simp [Assoc.put, Assoc.wf]
  | cons x m ih =>
    obtain ⟨a, w⟩ := x
    have hw' := (Assoc.wf_cons before a w m).1 hw
    simp only [Assoc.put]
    split_ifs with h1 h2
    · subst h1; rw [Assoc.wf_cons]; exact hw'
    · rw [Assoc.wf_cons]
      refine ⟨fun e he => ?_, hw⟩
      rcases List.mem_cons.1 he with rfl | he
      · exact h2
      · exact ho.trans _ _ _ h2 (hw'.1 e he)
    · rw [Assoc.wf_cons]
      refine ⟨fun e he => ?_, ih hw'.2⟩
      rcases Assoc.mem_put he with rfl | he
      · exact ho.total _ _ h1 (by simpa using h2)
      · exact hw'.1 e he

/-- A removal keeps the canonical form. -/
theorem Assoc.wf_erase {before : κ → κ → Bool} {m : Assoc κ α} (hw : Assoc.wf before m = true) (k : κ) :
    Assoc.wf before (Assoc.erase m k) = true := by
  induction m with
  | nil => simp [Assoc.erase, Assoc.wf]
  | cons x m ih =>
    obtain ⟨a, w⟩ := x
    have hw' := (Assoc.wf_cons before a w m).1 hw
    by_cases h : a = k
    · subst h
      have : Assoc.erase ((a, w) :: m) a = Assoc.erase m a := by simp [Assoc.erase]
      rw [this]; exact ih hw'.2
    · have : Assoc.erase ((a, w) :: m) k = (a, w) :: Assoc.erase m k := by simp [Assoc.erase, h]
      rw [this, Assoc.wf_cons]
      exact ⟨fun e he => hw'.1 e (Assoc.mem_erase.1 he).1, ih hw'.2⟩

/-- The size after a write. -/
theorem Assoc.length_put {before : κ → κ → Bool} (ho : KeyOrder before) {m : Assoc κ α} (hw : Assoc.wf before m = true)
    (k : κ) (v : α) :
    (Assoc.put before m k v).length = if (Assoc.get? m k).isSome then m.length else m.length + 1 := by
  induction m with
  | nil => simp [Assoc.put]
  | cons x m ih =>
    obtain ⟨a, w⟩ := x
    have hw' := (Assoc.wf_cons before a w m).1 hw
    rw [Assoc.put, Assoc.get?_cons]
    by_cases h1 : k = a
    · simp [h1]
    · rw [if_neg h1, if_neg h1]
      by_cases h2 : before k a = true
      · rw [if_pos h2, if_neg]
        · rfl
        · intro h3
          obtain ⟨u, hu⟩ := Option.isSome_iff_exists.1 h3
          have := ho.trans _ _ _ h2 (hw'.1 _ (Assoc.mem_of_get? hu))
          simp [ho.irrefl] at this
      · rw [if_neg h2, List.length_cons, ih hw'.2]
        split_ifs <;> rfl

/-- The size after the removal of a key that is there. -/
theorem Assoc.length_erase {before : κ → κ → Bool} (ho : KeyOrder before) {m : Assoc κ α}
    (hw : Assoc.wf before m = true) (k : κ) (hk : (Assoc.get? m k).isSome) :
    (Assoc.erase m k).length + 1 = m.length := by
  induction m with
  | nil => simp at hk
  | cons x m ih =>
    obtain ⟨a, w⟩ := x
    have hw' := (Assoc.wf_cons before a w m).1 hw
    by_cases h : a = k
    · subst h
      have : Assoc.erase ((a, w) :: m) a = m := by
        simp only [Assoc.erase, ne_eq, not_true_eq_false, not_false_eq_true, List.filter_cons_of_neg,
          List.filter_eq_self, decide_not, Bool.not_eq_eq_eq_not, Bool.not_true, decide_eq_false_iff_not]
        rintro ⟨b, u⟩ hm rfl
        have := hw'.1 _ hm
        simp [ho.irrefl] at this
      rw [this]; simp
    · have : Assoc.erase ((a, w) :: m) k = (a, w) :: Assoc.erase m k := by simp [Assoc.erase, h]
      rw [this]
      rw [Assoc.get?_cons, if_neg (fun h' => h h'.symm)] at hk
      simp [ih hw'.2 hk]

/-- Two canonical maps that read the same are equal. -/
theorem Assoc.ext_get? {before : κ → κ → Bool} (ho : KeyOrder before) {m m' : Assoc κ α}
    (hw : Assoc.wf before m = true) (hw' : Assoc.wf before m' = true)
    (h : ∀ k, Assoc.get? m k = Assoc.get? m' k) : m = m' := by
  induction m generalizing m' with
  | nil =>
    cases m' with
    | nil => rfl
    | cons x m' => obtain ⟨a, w⟩ := x; have := h a; simp [Assoc.get?] at this
  | cons x m ih =>
    obtain ⟨a, w⟩ := x
    cases m' with
    | nil => have := h a; simp [Assoc.get?] at this
    | cons y m' =>
      obtain ⟨b, u⟩ := y
      rw [Assoc.wf_cons] at hw hw'
      have hab : a = b := by
        by_contra hne
        have h1 := h a
        have h2 := h b
        rw [Assoc.get?_cons, if_pos rfl, Assoc.get?_cons, if_neg hne] at h1
        rw [Assoc.get?_cons, if_neg (Ne.symm hne), Assoc.get?_cons, if_pos rfl] at h2
        have h3 := hw'.1 _ (Assoc.mem_of_get? h1.symm)
        have h4 := hw.1 _ (Assoc.mem_of_get? h2)
        have := ho.trans _ _ _ h3 h4
        simp [ho.irrefl] at this
      subst hab
      have hwu : w = u := by simpa [Assoc.get?_cons] using h a
      subst hwu
      rw [ih hw.2 hw'.2]
      intro k
      by_cases hk : k = a
      · subst hk
        have e1 : Assoc.get? m k = none := by
          by_contra hc
          obtain ⟨v, hv⟩ := Option.ne_none_iff_exists'.1 hc
          have := hw.1 _ (Assoc.mem_of_get? hv)
          simp [ho.irrefl] at this
        have e2 : Assoc.get? m' k = none := by
          by_contra hc
          obtain ⟨v, hv⟩ := Option.ne_none_iff_exists'.1 hc
          have := hw'.1 _ (Assoc.mem_of_get? hv)
          simp [ho.irrefl] at this
        rw [e1, e2]
      · have := h k
        simpa [Assoc.get?_cons, hk] using this

/-! ### Buffers -/

/-- A read of a buffer after a write. -/
theorem Memory.read?_write (m : Memory) (i j : Nat) (v : Word) :
    (m.write i v).read? j = if j = i then some v else m.read? j := Assoc.get?_put _ _ _ _ _

/-- A write keeps a buffer canonical and within its size. -/
theorem Memory.write_ok {n : Nat} {m : Memory} (h : BufferOk n m) {i : Nat} (hi : i < n) (v : Word) :
    BufferOk n (m.write i v) :=
  ⟨Assoc.wf_put natBefore_order h.1 i v, fun e he => by
    rcases Assoc.mem_put he with rfl | he
    · exact hi
    · exact h.2 e he⟩

/-- Writing a word of `BIN` changes that word alone. -/
theorem State.binWord_write (s : State) (w : Nat) (v : Word) (w' : Nat) :
    State.binWord { s with bin := s.bin.write w v } w' = if w' = w then v else s.binWord w' := by
  simp only [State.binWord, Memory.read?_write]
  split <;> rfl

end Sys2Proof.Machine
end

