-- ==== Sys2Proof/Laws/Runs.lean ====
section
/-! SUPPORT. Slot arrays kept run by run: what a read gives after a change of a range, and the canonical form. -/

namespace Sys2Proof.Machine

/-- The starts of the runs strictly rise, from `lo` on. -/
def Runs.SortedFrom : Nat → Runs → Prop
  | _, [] => True
  | lo, (a, _) :: r => lo ≤ a ∧ Runs.SortedFrom (a + 1) r

/-- A run starts at `c`. -/
def Runs.Starts (c : Nat) (r : Runs) : Prop := ∃ s, (c, s) ∈ r

@[simp] theorem Runs.getFrom_nil (d : Slot) (j : Nat) : Runs.getFrom d [] j = d := rfl

theorem Runs.getFrom_cons (d : Slot) (a : Nat) (s : Slot) (r : Runs) (j : Nat) :
    Runs.getFrom d ((a, s) :: r) j = if j < a then d else Runs.getFrom s r j := rfl

theorem Runs.SortedFrom.mono {lo lo' : Nat} (h : lo' ≤ lo) : {r : Runs} → Runs.SortedFrom lo r → Runs.SortedFrom lo' r
  | [], _ => trivial
  | (_, _) :: _, hs => ⟨h.trans hs.1, hs.2⟩

theorem Runs.SortedFrom.le_of_mem {lo : Nat} {r : Runs} (h : Runs.SortedFrom lo r) {a : Nat} {s : Slot}
    (hm : (a, s) ∈ r) : lo ≤ a := by
  induction r generalizing lo with
  | nil => simp at hm
  | cons e r ih =>
    obtain ⟨b, u⟩ := e
    rcases List.mem_cons.1 hm with h2 | h2
    · obtain ⟨rfl, -⟩ := Prod.mk.inj h2; exact h.1
    · exact (Nat.le_succ_of_le h.1).trans (ih h.2 h2)

theorem Runs.sortedFrom_of_wfFrom {lo : Nat} {d : Slot} {r : Runs} (h : Runs.wfFrom lo d r = true) :
    Runs.SortedFrom lo r := by
  induction r generalizing lo d with
  | nil => trivial
  | cons e r ih =>
    obtain ⟨a, s⟩ := e
    simp only [Runs.wfFrom, Bool.and_eq_true, decide_eq_true_eq] at h
    exact ⟨h.1.1, ih h.2⟩

/-- Before the first run the slot in force is read. -/
theorem Runs.getFrom_of_lt {lo : Nat} {r : Runs} (h : Runs.SortedFrom lo r) (d : Slot) {j : Nat} (hj : j < lo) :
    Runs.getFrom d r j = d := by
  cases r with
  | nil => rfl
  | cons e r =>
    obtain ⟨a, s⟩ := e
    rw [Runs.getFrom_cons, if_pos (hj.trans_le h.1)]

/-- At its own start an entry is read. -/
theorem Runs.getFrom_of_mem {lo : Nat} {r : Runs} (h : Runs.SortedFrom lo r) (d : Slot) {a : Nat} {s : Slot}
    (hm : (a, s) ∈ r) : Runs.getFrom d r a = s := by
  induction r generalizing lo d with
  | nil => simp at hm
  | cons e r ih =>
    obtain ⟨b, u⟩ := e
    rw [Runs.getFrom_cons]
    rcases List.mem_cons.1 hm with h2 | h2
    · obtain ⟨rfl, rfl⟩ := Prod.mk.inj h2
      rw [if_neg (lt_irrefl _)]
      exact Runs.getFrom_of_lt h.2 _ (Nat.lt_succ_self _)
    · have := Runs.SortedFrom.le_of_mem h.2 h2
      rw [if_neg (by omega)]
      exact ih h.2 _ h2

/-- From a start on, what is read is the slot of an entry at or after that start. -/
theorem Runs.exists_of_starts {lo : Nat} {r : Runs} (h : Runs.SortedFrom lo r) (d : Slot) {c j : Nat}
    (hc : Runs.Starts c r) (hj : c ≤ j) : ∃ a s, (a, s) ∈ r ∧ c ≤ a ∧ a ≤ j ∧ Runs.getFrom d r j = s := by
  induction r generalizing lo d with
  | nil => obtain ⟨s, hs⟩ := hc; simp at hs
  | cons e r ih =>
    obtain ⟨b, u⟩ := e
    obtain ⟨s, hs⟩ := hc
    have hbc : b ≤ c := by
      rcases List.mem_cons.1 hs with h2 | h2
      · obtain ⟨rfl, -⟩ := Prod.mk.inj h2; exact le_refl _
      · exact (Nat.lt_succ_self b).le.trans (Runs.SortedFrom.le_of_mem h.2 h2)
    rw [Runs.getFrom_cons, if_neg (by omega)]
    by_cases hr : Runs.Starts c r
    · obtain ⟨a, s', hm, h1, h2, h3⟩ := ih h.2 u hr
      exact ⟨a, s', List.mem_cons_of_mem _ hm, h1, h2, h3⟩
    · have hcb : c = b := by
        rcases List.mem_cons.1 hs with h2 | h2
        · exact (Prod.mk.inj h2).1
        · exact absurd ⟨s, h2⟩ hr
      subst hcb
      clear hs hr ih
      have key : ∀ (r : Runs) (lo : Nat) (u : Slot), Runs.SortedFrom lo r → c ≤ lo → Runs.getFrom u r j = u ∨
          ∃ a s, (a, s) ∈ r ∧ c ≤ a ∧ a ≤ j ∧ Runs.getFrom u r j = s := by
        intro r
        induction r with
        | nil => intro lo u _ _; exact .inl rfl
        | cons e r ih =>
          obtain ⟨a, s⟩ := e
          intro lo u hs hl
          rw [Runs.getFrom_cons]
          by_cases hja : j < a
          · rw [if_pos hja]; exact .inl rfl
          · rw [if_neg hja]
            refine .inr ?_
            rcases ih (a + 1) s hs.2 (by have := hs.1; omega) with h1 | ⟨a', s', h1, h2⟩
            · exact ⟨a, s, List.mem_cons_self, hl.trans hs.1, by omega, h1⟩
            · exact ⟨a', s', List.mem_cons_of_mem _ h1, h2⟩
      rcases key r (c + 1) u h.2 (by omega) with h1 | ⟨a, s', h1, h2⟩
      · exact ⟨c, u, List.mem_cons_self, le_refl _, hj, h1⟩
      · exact ⟨a, s', List.mem_cons_of_mem _ h1, h2⟩

/-! ### Cutting -/

theorem Runs.getFrom_cutFrom (c : Nat) (d : Slot) (r : Runs) (j : Nat) :
    Runs.getFrom d (Runs.cutFrom c d r) j = Runs.getFrom d r j := by
  induction r generalizing d with
  | nil => simp [Runs.cutFrom, Runs.getFrom]
  | cons e r ih =>
    obtain ⟨a, s⟩ := e
    simp only [Runs.cutFrom]
    split_ifs with h1 h2
    · simp only [Runs.getFrom_cons]
      split_ifs <;> first | rfl | omega
    · rfl
    · simp only [Runs.getFrom_cons, ih]

theorem Runs.sortedFrom_cutFrom {lo c : Nat} (d : Slot) {r : Runs} (h : Runs.SortedFrom lo r) (hc : lo ≤ c) :
    Runs.SortedFrom lo (Runs.cutFrom c d r) := by
  induction r generalizing lo d with
  | nil => exact ⟨hc, trivial⟩
  | cons e r ih =>
    obtain ⟨a, s⟩ := e
    simp only [Runs.cutFrom]
    split_ifs with h1 h2
    · exact ⟨hc, by omega, h.2⟩
    · exact h
    · exact ⟨h.1, ih s h.2 (by omega)⟩

theorem Runs.starts_cutFrom (c : Nat) (d : Slot) (r : Runs) : Runs.Starts c (Runs.cutFrom c d r) := by
  induction r generalizing d with
  | nil => exact ⟨d, List.mem_cons_self⟩
  | cons e r ih =>
    obtain ⟨a, s⟩ := e
    simp only [Runs.cutFrom]
    split_ifs with h1 h2
    · exact ⟨d, List.mem_cons_self⟩
    · exact ⟨s, h2 ▸ List.mem_cons_self⟩
    · obtain ⟨u, hu⟩ := ih s
      exact ⟨u, List.mem_cons_of_mem _ hu⟩

theorem Runs.Starts.cutFrom {c : Nat} {r : Runs} (h : Runs.Starts c r) (c' : Nat) (d : Slot) :
    Runs.Starts c (Runs.cutFrom c' d r) := by
  induction r generalizing d with
  | nil => obtain ⟨s, hs⟩ := h; simp at hs
  | cons e r ih =>
    obtain ⟨a, s⟩ := e
    obtain ⟨u, hu⟩ := h
    simp only [Runs.cutFrom]
    split_ifs with h1 h2
    · exact ⟨u, List.mem_cons_of_mem _ hu⟩
    · exact ⟨u, hu⟩
    · rcases List.mem_cons.1 hu with h3 | h3
      · exact ⟨u, h3 ▸ List.mem_cons_self⟩
      · obtain ⟨v, hv⟩ := ih ⟨u, h3⟩ s
        exact ⟨v, List.mem_cons_of_mem _ hv⟩

theorem Runs.sortedFrom_cut {r : Runs} (h : Runs.SortedFrom 0 r) (base cnt : Nat) :
    Runs.SortedFrom 0 (r.cut base cnt) :=
  Runs.sortedFrom_cutFrom _ (Runs.sortedFrom_cutFrom _ h (Nat.zero_le _)) (Nat.zero_le _)

theorem Runs.getFrom_cut (r : Runs) (base cnt j : Nat) : Runs.getFrom Slot.empty (r.cut base cnt) j = r.get j := by
  rw [Runs.cut, Runs.getFrom_cutFrom, Runs.getFrom_cutFrom]; rfl

/-! ### Changing a range -/

theorem inRange_iff (base cnt a : Nat) : inRange base cnt a = true ↔ base ≤ a ∧ a < base + cnt := by
  simp [inRange]

theorem Runs.getFrom_map {base cnt : Nat} (f : Slot → Slot) {lo : Nat} {r : Runs} (h : Runs.SortedFrom lo r) (d : Slot)
    (h1 : base ≤ lo ∨ Runs.Starts base r) (h2 : base + cnt ≤ lo ∨ Runs.Starts (base + cnt) r) {j : Nat} (hj : lo ≤ j) :
    Runs.getFrom (if inRange base cnt lo then f d else d)
        (r.map fun e => if inRange base cnt e.1 then (e.1, f e.2) else e) j =
      if inRange base cnt j then f (Runs.getFrom d r j) else Runs.getFrom d r j := by
  induction r generalizing lo d with
  | nil =>
    have h1' : base ≤ lo := h1.resolve_right (fun ⟨s, hs⟩ => by simp at hs)
    have h2' : base + cnt ≤ lo := h2.resolve_right (fun ⟨s, hs⟩ => by simp at hs)
    have e1 : inRange base cnt lo = false := by simp [inRange]; omega
    have e2 : inRange base cnt j = false := by simp [inRange]; omega
    simp [e1, e2]
  | cons e r ih =>
    obtain ⟨a, s⟩ := e
    have ha := h.1
    have low : ∀ {c : Nat}, Runs.Starts c ((a, s) :: r) → a ≤ c := by
      rintro c ⟨u, hu⟩
      rcases List.mem_cons.1 hu with h3 | h3
      · exact (Prod.mk.inj h3).1 ▸ le_refl _
      · exact (Nat.le_succ a).trans (Runs.SortedFrom.le_of_mem h.2 h3)
    have step : ∀ {c : Nat}, (c ≤ lo ∨ Runs.Starts c ((a, s) :: r)) → c ≤ a ∨ Runs.Starts c r := by
      rintro c (h3 | ⟨u, hu⟩)
      · exact .inl (h3.trans ha)
      · rcases List.mem_cons.1 hu with h4 | h4
        · exact .inl ((Prod.mk.inj h4).1 ▸ le_refl _)
        · exact .inr ⟨u, h4⟩
    rw [List.map_cons, Runs.getFrom_cons]
    by_cases hja : j < a
    · have e : inRange base cnt lo = inRange base cnt j := by
        rw [Bool.eq_iff_iff, inRange_iff, inRange_iff]
        have b1 : base ≤ lo ∨ a ≤ base := h1.imp_right low
        have b2 : base + cnt ≤ lo ∨ a ≤ base + cnt := h2.imp_right low
        omega
      have e3 : (if inRange base cnt a then (a, f s) else (a, s)) = (a, if inRange base cnt a then f s else s) := by
        split_ifs <;> rfl
      simp only [e3, Runs.getFrom_cons, if_pos hja, e]
    · have e3 : (if inRange base cnt a then (a, f s) else (a, s)) = (a, if inRange base cnt a then f s else s) := by
        split_ifs <;> rfl
      simp only [e3, Runs.getFrom_cons, if_neg hja]
      have hs : Runs.SortedFrom a r := Runs.SortedFrom.mono (Nat.le_succ a) h.2
      exact ih hs s (step h1) (step h2) (Nat.le_of_not_lt hja)

theorem Runs.sortedFrom_map {base cnt : Nat} (f : Slot → Slot) {lo : Nat} {r : Runs} (h : Runs.SortedFrom lo r) :
    Runs.SortedFrom lo (r.map fun e => if inRange base cnt e.1 then (e.1, f e.2) else e) := by
  induction r generalizing lo with
  | nil => trivial
  | cons e r ih =>
    obtain ⟨a, s⟩ := e
    rw [List.map_cons]
    have e3 : (if inRange base cnt a then (a, f s) else (a, s)) = (a, if inRange base cnt a then f s else s) := by
      split_ifs <;> rfl
    simp only [e3]
    exact ⟨h.1, ih h.2⟩

theorem Runs.getFrom_mergeFrom {lo : Nat} {r : Runs} (h : Runs.SortedFrom lo r) (d : Slot) (j : Nat) :
    Runs.getFrom d (Runs.mergeFrom d r) j = Runs.getFrom d r j := by
  induction r generalizing lo d with
  | nil => rfl
  | cons e r ih =>
    obtain ⟨a, s⟩ := e
    simp only [Runs.mergeFrom]
    split_ifs with h1
    · subst h1
      rw [ih h.2, Runs.getFrom_cons]
      split_ifs with h2
      · exact Runs.getFrom_of_lt h.2 _ (by omega)
      · rfl
    · rw [Runs.getFrom_cons, Runs.getFrom_cons, ih h.2]

theorem Runs.wfFrom_mergeFrom {lo : Nat} {r : Runs} (h : Runs.SortedFrom lo r) (d : Slot) :
    Runs.wfFrom lo d (Runs.mergeFrom d r) = true := by
  induction r generalizing lo d with
  | nil => rfl
  | cons e r ih =>
    obtain ⟨a, s⟩ := e
    simp only [Runs.mergeFrom]
    split_ifs with h1
    · have h2 := ih (Runs.SortedFrom.mono (Nat.le_succ_of_le h.1) h.2) d
      exact h2
    · simp only [Runs.wfFrom, Bool.and_eq_true, decide_eq_true_eq]
      exact ⟨⟨h.1, h1⟩, ih h.2 s⟩

/-- What a read gives after `f` was applied to a range: `f` of the old slot inside, the old slot outside. -/
theorem Runs.get_mapRange {r : Runs} (h : r.wf = true) (base cnt : Nat) (f : Slot → Slot) (j : Nat) :
    (r.mapRange base cnt f).get j = if base ≤ j ∧ j < base + cnt then f (r.get j) else r.get j := by
  have hs := Runs.sortedFrom_cut (Runs.sortedFrom_of_wfFrom h) base cnt
  have key : Runs.getFrom Slot.empty ((r.cut base cnt).map fun e => if inRange base cnt e.1 then (e.1, f e.2) else e) j =
      if inRange base cnt j then f (r.get j) else r.get j := by
    have s1 : Runs.Starts base (r.cut base cnt) := (Runs.starts_cutFrom base _ r).cutFrom _ _
    have s2 : Runs.Starts (base + cnt) (r.cut base cnt) := Runs.starts_cutFrom _ _ _
    by_cases h0 : inRange base cnt 0 = true
    · -- the range starts at 0, so the first entry starts there and the slot before it is never read
      obtain ⟨hb, -⟩ := (inRange_iff _ _ _).1 h0
      have hb0 : base = 0 := by omega
      subst hb0
      obtain ⟨s0, hs0⟩ := s1
      cases hc : r.cut 0 cnt with
      | nil => rw [hc] at hs0; simp at hs0
      | cons e rest =>
        obtain ⟨a, s⟩ := e
        rw [hc] at hs hs0
        have ha : a = 0 := by
          rcases List.mem_cons.1 hs0 with h3 | h3
          · exact (Prod.mk.inj h3).1.symm
          · have := Runs.SortedFrom.le_of_mem hs.2 h3; omega
        have gen := Runs.getFrom_map (base := 0) (cnt := cnt) f hs Slot.empty (.inl le_rfl)
          (.inr (hc ▸ s2)) (Nat.zero_le j)
        rw [← hc, Runs.getFrom_cut, hc] at gen
        rw [← gen, List.map_cons]
        subst ha
        have e3 : ∀ d d' (x : Nat × Slot) (m : Runs), x.1 = 0 → Runs.getFrom d (x :: m) j = Runs.getFrom d' (x :: m) j := by
          rintro d d' ⟨_, x⟩ m rfl
          simp [Runs.getFrom_cons]
        exact e3 _ _ _ _ (by split_ifs <;> rfl)
    · have gen := Runs.getFrom_map (base := base) (cnt := cnt) f hs Slot.empty (.inr s1) (.inr s2) (Nat.zero_le j)
      rw [if_neg h0, Runs.getFrom_cut] at gen
      exact gen
  rw [Runs.get, Runs.mapRange, Runs.getFrom_mergeFrom (Runs.sortedFrom_map f hs), key]
  simp only [inRange_iff]

/-- A change of a range gives a canonical array. -/
theorem Runs.wf_mapRange {r : Runs} (h : r.wf = true) (base cnt : Nat) (f : Slot → Slot) :
    (r.mapRange base cnt f).wf = true :=
  Runs.wfFrom_mergeFrom (Runs.sortedFrom_map f (Runs.sortedFrom_cut (Runs.sortedFrom_of_wfFrom h) base cnt)) _

/-- The blocks that the slots of a range refer to. -/
theorem Runs.mem_childrenIn {r : Runs} (h : r.wf = true) (base cnt b : Nat) :
    b ∈ r.childrenIn base cnt ↔ ∃ j, base ≤ j ∧ j < base + cnt ∧ (r.get j).child = some b := by
  have hs := Runs.sortedFrom_cut (Runs.sortedFrom_of_wfFrom h) base cnt
  simp only [Runs.childrenIn, List.mem_filterMap]
  constructor
  · rintro ⟨⟨a, s⟩, hm, he⟩
    split_ifs at he with h1
    obtain ⟨h2, h3⟩ := (inRange_iff _ _ _).1 h1
    refine ⟨a, h2, h3, ?_⟩
    rw [← Runs.getFrom_cut r base cnt, Runs.getFrom_of_mem hs _ hm]
    exact he
  · rintro ⟨j, h1, h2, h3⟩
    have s1 : Runs.Starts base (r.cut base cnt) := (Runs.starts_cutFrom base _ r).cutFrom _ _
    obtain ⟨a, s, hm, h4, h5, h6⟩ := Runs.exists_of_starts hs Slot.empty s1 h1
    rw [Runs.getFrom_cut] at h6
    refine ⟨(a, s), hm, ?_⟩
    rw [if_pos ((inRange_iff _ _ _).2 ⟨h4, Nat.lt_of_le_of_lt h5 h2⟩)]
    rw [← h6]; exact h3

/-- A canonical array is vacant exactly when each of its slots is empty. -/
theorem Runs.vacant_iff {r : Runs} (h : r.wf = true) : r.vacant = true ↔ ∀ j, r.get j = Slot.empty := by
  constructor
  · intro hv j
    have gen : ∀ (r : Runs), (∀ e ∈ r, e.2 = Slot.empty) → ∀ d, d = Slot.empty → Runs.getFrom d r j = Slot.empty := by
      intro r
      induction r with
      | nil => intro _ d hd; exact hd
      | cons e r ih =>
        obtain ⟨a, s⟩ := e
        intro he d hd
        rw [Runs.getFrom_cons]
        split_ifs
        · exact hd
        · exact ih (fun e hm => he e (List.mem_cons_of_mem _ hm)) s (he _ List.mem_cons_self)
    exact gen r (by simpa [Runs.vacant] using hv) _ rfl
  · intro hg
    cases r with
    | nil => rfl
    | cons e r =>
      obtain ⟨a, s⟩ := e
      exfalso
      have h1 := hg a
      rw [Runs.get, Runs.getFrom_of_mem (Runs.sortedFrom_of_wfFrom h) _ List.mem_cons_self] at h1
      simp [Runs.wf, Runs.wfFrom, h1] at h

/-- A change of a range that lies inside an array, by an `f` that keeps what lies outside, keeps the array's bounds. -/
theorem ArrayOk.mapRange {n : Nat} {r : Runs} (h : ArrayOk n r) {base cnt : Nat} (hb : base + cnt ≤ n)
    (f : Slot → Slot) : ArrayOk n (r.mapRange base cnt f) :=
  ⟨Runs.wf_mapRange h.1 _ _ _, fun j hj => by
    rw [Runs.get_mapRange h.1, if_neg (by omega)]; exact h.2 j hj⟩

theorem ArrayOk.nil (n : Nat) : ArrayOk n [] := ⟨rfl, fun _ _ => rfl⟩

end Sys2Proof.Machine
end

