-- ==== Sys2Proof/Laws/Table.lean ====
section
/-! SUPPORT. The table's slot arrays and its pool: what each shared operation does, once. -/

namespace Sys2Proof.Machine

/-! ### What no layout procedure touches -/

/-- What no layout procedure touches: `LIFE`, the configuration, the store, `NUM_PFX`, `NUM_WIDE` and `ROOTB`. -/
def Table.head (t : Table) : Table :=
  { t with pool := [], numNodes := 0#32, dir := [], root16 := [], picks := [] }

theorem Table.head_life {t t' : Table} (h : t'.head = t.head) : t'.life = t.life := by
  have := congrArg Table.life h; exact this
theorem Table.head_algo {t t' : Table} (h : t'.head = t.head) : t'.algo = t.algo := by
  have := congrArg Table.algo h; exact this
theorem Table.head_family {t t' : Table} (h : t'.head = t.head) : t'.family = t.family := by
  have := congrArg Table.family h; exact this
theorem Table.head_strict {t t' : Table} (h : t'.head = t.head) : t'.strict = t.strict := by
  have := congrArg Table.strict h; exact this
theorem Table.head_prefixes {t t' : Table} (h : t'.head = t.head) : t'.prefixes = t.prefixes := by
  have := congrArg Table.prefixes h; exact this
theorem Table.head_numPfx {t t' : Table} (h : t'.head = t.head) : t'.numPfx = t.numPfx := by
  have := congrArg Table.numPfx h; exact this
theorem Table.head_numWide {t t' : Table} (h : t'.head = t.head) : t'.numWide = t.numWide := by
  have := congrArg Table.numWide h; exact this
theorem Table.head_rootb {t t' : Table} (h : t'.head = t.head) : t'.rootb = t.rootb := by
  have := congrArg Table.rootb h; exact this
theorem Table.head_width {t t' : Table} (h : t'.head = t.head) : t'.width = t.width := by
  rw [Table.width, Table.width, Table.head_family h]

@[simp] theorem Table.head_updateBlock (t : Table) (b : Nat) (f : Block → Block) : (t.updateBlock b f).head = t.head := by
  unfold Table.updateBlock; split <;> rfl

@[simp] theorem Table.head_mapSlots (t : Table) (a : SlotArray) (base cnt : Nat) (f : Slot → Slot) :
    (t.mapSlots a base cnt f).head = t.head := by
  cases a
  · exact Table.head_updateBlock _ _ _
  · rfl
  · rfl

@[simp] theorem Table.head_fanWrite (t : Table) (a : SlotArray) (base cnt : Nat) (v : Word) (len : Nat) :
    (t.fanWrite a base cnt v len).head = t.head := Table.head_mapSlots _ _ _ _ _

@[simp] theorem Table.head_fanClear (t : Table) (a : SlotArray) (base cnt len : Nat) (sh : Option Leaf) :
    (t.fanClear a base cnt len sh).head = t.head := Table.head_mapSlots _ _ _ _ _

@[simp] theorem Table.head_setChild (t : Table) (a : SlotArray) (j : Nat) (c : Option Nat) :
    (t.setChild a j c).head = t.head := Table.head_mapSlots _ _ _ _ _

@[simp] theorem Table.head_setCnt (t : Table) (b c : Nat) : (t.setCnt b c).head = t.head := Table.head_updateBlock _ _ _

@[simp] theorem Table.head_allocBlock (t : Table) (n : Nat) : (t.allocBlock n).2.head = t.head := rfl

@[simp] theorem Table.head_freeBlock (t : Table) (b : Nat) : (t.freeBlock b).head = t.head := rfl

@[simp] theorem Table.head_openChild (t : Table) (n : Nat) (a : SlotArray) (j : Nat) :
    (t.openChild n a j).2.head = t.head := by
  unfold Table.openChild
  split
  · rfl
  · exact (Table.head_setChild _ _ _ _).trans (Table.head_allocBlock _ _)

@[simp] theorem Table.head_openPath (nN w n : Nat) (steps k b : Nat) (t : Table) :
    (Table.openPath nN w n steps k b t).2.head = t.head := by
  induction steps generalizing k b t with
  | zero => rfl
  | succ steps ih => exact (ih _ _ _).trans (Table.head_openChild _ _ _ _)

@[simp] theorem Table.head_prune (tr : List (SlotArray × Nat × Nat)) (t : Table) :
    (Table.prune tr t).head = t.head := by
  induction tr generalizing t with
  | nil => rfl
  | cons e tr ih =>
    obtain ⟨a, j, b⟩ := e
    unfold Table.prune
    split
    · exact (ih _).trans ((Table.head_setChild _ _ _ _).trans (Table.head_freeBlock _ _))
    · rfl

@[simp] theorem Table.head_mapExtensions (t : Table) (base cnt : Nat) (f : Slot → Slot) :
    (t.mapExtensions base cnt f).head = t.head := by
  have gen : ∀ (bs : List Nat) (t : Table),
      (bs.foldl (fun t b => t.mapSlots (.node b) 0 nodeSlots f) t).head = t.head := by
    intro bs
    induction bs with
    | nil => intro t; rfl
    | cons b bs ih => intro t; exact (ih _).trans (Table.head_mapSlots _ _ _ _ _)
  exact gen _ _

@[simp] theorem Table.head_openExtension (t : Table) (n i : Nat) : (t.openExtension n i).head = t.head := by
  unfold Table.openExtension
  split
  · rfl
  · exact (Table.head_setChild _ _ _ _).trans ((Table.head_mapSlots _ _ _ _ _).trans (Table.head_allocBlock _ _))

@[simp] theorem Table.head_layoutInsert (t : Table) (n : Nat) (p : Prefix) (v : Word) (e : Bool) :
    (t.layoutInsert n p v e).head = t.head := by
  unfold Table.layoutInsert
  split
  · exact (Table.head_fanWrite _ _ _ _ _ _).trans (Table.head_openPath _ _ _ _ _ _ _)
  · unfold Table.d24Insert
    split
    · simp
    · dsimp only
      split
      · simp
      · simp
  · unfold Table.w16Insert
    split
    · simp
    · exact (Table.head_fanWrite _ _ _ _ _ _).trans
        ((Table.head_openPath _ _ _ _ _ _ _).trans (Table.head_openChild _ _ _ _))

@[simp] theorem Table.head_layoutDelete (t : Table) (p : Prefix) : (t.layoutDelete p).head = t.head := by
  unfold Table.layoutDelete
  split
  · exact (Table.head_prune _ _).trans (Table.head_fanClear _ _ _ _ _ _)
  · unfold Table.d24Delete
    dsimp only
    split
    · simp
    · split
      · simp
      · simp
  · unfold Table.w16Delete
    split
    · simp
    · exact (Table.head_prune _ _).trans (Table.head_fanClear _ _ _ _ _ _)

/-! ### Blocks -/

@[simp] theorem Table.dir_updateBlock (t : Table) (b : Nat) (f : Block → Block) : (t.updateBlock b f).dir = t.dir := by
  unfold Table.updateBlock; split <;> rfl

@[simp] theorem Table.root16_updateBlock (t : Table) (b : Nat) (f : Block → Block) :
    (t.updateBlock b f).root16 = t.root16 := by
  unfold Table.updateBlock; split <;> rfl

/-- A block after a change of one block. -/
theorem Table.block_updateBlock (t : Table) (b : Nat) (f : Block → Block) (b' : Nat) :
    (t.updateBlock b f).block b' = if b' = b ∧ t.inUse b = true then f (t.block b) else t.block b' := by
  unfold Table.updateBlock Table.block Table.inUse
  cases h : Assoc.get? t.pool b with
  | none => simp
  | some blk =>
    simp only [Assoc.get?_put]
    split_ifs <;> simp_all

@[simp] theorem Table.inUse_updateBlock (t : Table) (b : Nat) (f : Block → Block) (b' : Nat) :
    (t.updateBlock b f).inUse b' = t.inUse b' := by
  unfold Table.updateBlock Table.inUse
  cases h : Assoc.get? t.pool b with
  | none => rfl
  | some blk =>
    simp only [Assoc.get?_put]
    split_ifs with h1
    · simp [h1, h]
    · rfl

theorem Table.block_of_not_inUse {t : Table} {b : Nat} (h : t.inUse b = false) : t.block b = Block.empty := by
  unfold Table.inUse at h
  unfold Table.block
  cases h2 : Assoc.get? t.pool b <;> simp_all

@[simp] theorem Table.inUse_mapSlots (t : Table) (a : SlotArray) (base cnt : Nat) (f : Slot → Slot) (b : Nat) :
    (t.mapSlots a base cnt f).inUse b = t.inUse b := by
  cases a
  · exact Table.inUse_updateBlock _ _ _ _
  · rfl
  · rfl

@[simp] theorem Table.inUse_setChild (t : Table) (a : SlotArray) (j : Nat) (c : Option Nat) (b : Nat) :
    (t.setChild a j c).inUse b = t.inUse b := Table.inUse_mapSlots _ _ _ _ _ _

@[simp] theorem Table.inUse_setCnt (t : Table) (b c b' : Nat) : (t.setCnt b c).inUse b' = t.inUse b' :=
  Table.inUse_updateBlock _ _ _ _

/-- An array of the table that a write reaches: a block in use, the direct table or the root. -/
def Table.usable (t : Table) : SlotArray → Bool
  | .node b => t.inUse b
  | .dir => true
  | .root16 => true

/-- Every slot array of the table is in its canonical form. -/
def Table.ArraysWf (t : Table) : Prop := ∀ a, (t.array a).wf = true

theorem Table.array_mapSlots (t : Table) (a : SlotArray) (base cnt : Nat) (f : Slot → Slot) (a' : SlotArray) :
    (t.mapSlots a base cnt f).array a' =
      if a' = a ∧ t.usable a = true then (t.array a).mapRange base cnt f else t.array a' := by
  cases a with
  | node b =>
    cases a' with
    | node b' =>
      simp only [Table.mapSlots, Table.array, Table.block_updateBlock, SlotArray.node.injEq, Table.usable]
      split_ifs <;> rfl
    | dir =>
      simp only [reduceCtorEq, false_and, if_false, Table.array, Table.mapSlots]
      unfold Table.updateBlock; split <;> rfl
    | root16 =>
      simp only [reduceCtorEq, false_and, if_false, Table.array, Table.mapSlots]
      unfold Table.updateBlock; split <;> rfl
  | dir => cases a' <;> simp [Table.mapSlots, Table.array, Table.usable, Table.block]
  | root16 => cases a' <;> simp [Table.mapSlots, Table.array, Table.usable, Table.block]

theorem Table.ArraysWf.mapSlots {t : Table} (h : t.ArraysWf) (a : SlotArray) (base cnt : Nat) (f : Slot → Slot) :
    (t.mapSlots a base cnt f).ArraysWf := fun a' => by
  rw [Table.array_mapSlots]
  split_ifs
  · exact Runs.wf_mapRange (h _) _ _ _
  · exact h _

/-- A slot after a change of a range of one array. -/
theorem Table.slot_mapSlots {t : Table} (h : t.ArraysWf) (a : SlotArray) (base cnt : Nat) (f : Slot → Slot)
    (a' : SlotArray) (j : Nat) :
    (t.mapSlots a base cnt f).slot a' j =
      if a' = a ∧ t.usable a = true ∧ base ≤ j ∧ j < base + cnt then f (t.slot a j) else t.slot a' j := by
  unfold Table.slot
  rw [Table.array_mapSlots]
  by_cases h1 : a' = a ∧ t.usable a = true
  · rw [if_pos h1, Runs.get_mapRange (h a)]
    by_cases h2 : base ≤ j ∧ j < base + cnt
    · rw [if_pos h2, if_pos ⟨h1.1, h1.2, h2⟩]
    · rw [if_neg h2, if_neg (fun h3 => h2 h3.2.2), h1.1]
  · rw [if_neg h1, if_neg (fun h3 => h1 ⟨h3.1, h3.2.1⟩)]

/-- One slot's `child` and `ptr` after a write of them. -/
theorem Table.childAt_setChild {t : Table} (h : t.ArraysWf) (a : SlotArray) (j : Nat) (c : Option Nat)
    (a' : SlotArray) (j' : Nat) :
    (t.setChild a j c).childAt a' j' = if a' = a ∧ t.usable a = true ∧ j' = j then c else t.childAt a' j' := by
  unfold Table.childAt Table.setChild
  rw [Table.slot_mapSlots h]
  by_cases h1 : a' = a ∧ t.usable a = true ∧ j' = j
  · rw [if_pos h1, if_pos ⟨h1.1, h1.2.1, by omega, by omega⟩]
  · rw [if_neg h1, if_neg]
    rintro ⟨h2, h3, h4, h5⟩
    exact h1 ⟨h2, h3, by omega⟩

/-- A slot's leaf is untouched by a write of a `child`. -/
theorem Table.leaf_setChild {t : Table} (h : t.ArraysWf) (a : SlotArray) (j : Nat) (c : Option Nat)
    (a' : SlotArray) (j' : Nat) : ((t.setChild a j c).slot a' j').leaf = (t.slot a' j').leaf := by
  unfold Table.setChild
  rw [Table.slot_mapSlots h]
  split_ifs with h1
  · rw [h1.1]
  · rfl

theorem Slot.child_fanWrite (v : Word) (len : Nat) (s : Slot) : (s.fanWrite v len).child = s.child := by
  unfold Slot.fanWrite
  split
  · rfl
  · split <;> rfl

theorem Slot.child_fanClear (len : Nat) (sh : Option Leaf) (s : Slot) : (s.fanClear len sh).child = s.child := by
  unfold Slot.fanClear
  split
  · rfl
  · split <;> rfl

/-- What `fan_write` makes of a leaf. -/
def leafWrite (v : Word) (len : Nat) : Option Leaf → Option Leaf
  | none => some ⟨v, len⟩
  | some l => if l.tag ≤ len then some ⟨v, len⟩ else some l

/-- What `fan_clear` makes of a leaf. -/
def leafClear (len : Nat) (sh : Option Leaf) : Option Leaf → Option Leaf
  | none => none
  | some l => if l.tag = len then sh else some l

theorem Slot.leaf_fanWrite (v : Word) (len : Nat) (s : Slot) : (s.fanWrite v len).leaf = leafWrite v len s.leaf := by
  unfold Slot.fanWrite leafWrite
  cases h : s.leaf with
  | none => rfl
  | some l => simp only []; split_ifs <;> simp [h]

theorem Slot.leaf_fanClear (len : Nat) (sh : Option Leaf) (s : Slot) :
    (s.fanClear len sh).leaf = leafClear len sh s.leaf := by
  unfold Slot.fanClear leafClear
  cases h : s.leaf with
  | none => simp [h]
  | some l => simp only []; split_ifs <;> simp [h]

/-- A change of leaves changes no `child`. -/
theorem Table.childAt_mapSlots {t : Table} (h : t.ArraysWf) (a : SlotArray) (base cnt : Nat) (f : Slot → Slot)
    (hf : ∀ s, (f s).child = s.child) (a' : SlotArray) (j : Nat) :
    (t.mapSlots a base cnt f).childAt a' j = t.childAt a' j := by
  unfold Table.childAt
  rw [Table.slot_mapSlots h]
  split_ifs with h1
  · rw [hf, h1.1]
  · rfl

theorem Table.childAt_fanWrite {t : Table} (h : t.ArraysWf) (a : SlotArray) (base cnt : Nat) (v : Word) (len : Nat)
    (a' : SlotArray) (j : Nat) : (t.fanWrite a base cnt v len).childAt a' j = t.childAt a' j :=
  Table.childAt_mapSlots h _ _ _ _ (Slot.child_fanWrite _ _) _ _

theorem Table.childAt_fanClear {t : Table} (h : t.ArraysWf) (a : SlotArray) (base cnt len : Nat) (sh : Option Leaf)
    (a' : SlotArray) (j : Nat) : (t.fanClear a base cnt len sh).childAt a' j = t.childAt a' j :=
  Table.childAt_mapSlots h _ _ _ _ (Slot.child_fanClear _ _) _ _

/-- `cnt` is untouched by a change of slots. -/
theorem Table.cnt_mapSlots (t : Table) (a : SlotArray) (base cnt : Nat) (f : Slot → Slot) (b : Nat) :
    ((t.mapSlots a base cnt f).block b).cnt = (t.block b).cnt := by
  cases a
  · simp only [Table.mapSlots, Table.block_updateBlock]
    split_ifs with h
    · rw [h.1]
    · rfl
  · rfl
  · rfl

theorem Table.ArraysWf.setCnt {t : Table} (h : t.ArraysWf) (b c : Nat) : (t.setCnt b c).ArraysWf := fun a => by
  cases a with
  | node b' =>
    simp only [Table.array, Table.setCnt, Table.block_updateBlock]
    split_ifs
    · exact h (.node b)
    · exact h (.node b')
  | dir => exact (congrArg Runs.wf (Table.dir_updateBlock t b _)).trans (h .dir)
  | root16 => exact (congrArg Runs.wf (Table.root16_updateBlock t b _)).trans (h .root16)

theorem Table.slot_setCnt (t : Table) (b c : Nat) (a : SlotArray) (j : Nat) :
    (t.setCnt b c).slot a j = t.slot a j := by
  cases a with
  | node b' =>
    simp only [Table.slot, Table.array, Table.setCnt, Table.block_updateBlock]
    split_ifs with h
    · rw [h.1]
    · rfl
  | dir => exact congrArg (fun r => Runs.get r j) (Table.dir_updateBlock t b _)
  | root16 => exact congrArg (fun r => Runs.get r j) (Table.root16_updateBlock t b _)

theorem Table.cnt_setCnt (t : Table) (b c b' : Nat) :
    ((t.setCnt b c).block b').cnt = if b' = b ∧ t.inUse b = true then c else (t.block b').cnt := by
  simp only [Table.setCnt, Table.block_updateBlock]
  split_ifs <;> rfl

/-! ### The pool -/

theorem Pool.leastFree_ge (n : Nat) (p : Pool) : n ≤ Pool.leastFree n p := by
  induction p generalizing n with
  | nil => exact le_rfl
  | cons e p ih =>
    obtain ⟨b, blk⟩ := e
    simp only [Pool.leastFree]
    split_ifs
    · exact (Nat.le_succ n).trans (ih _)
    · exact le_rfl

/-- The least free block is not listed, and no block before it is free. -/
theorem Pool.leastFree_spec {n : Nat} {p : Pool} (hw : Assoc.wf natBefore p = true) (hlo : ∀ e ∈ p, n ≤ e.1) :
    Assoc.get? p (Pool.leastFree n p) = none ∧ Pool.leastFree n p ≤ n + p.length := by
  induction p generalizing n with
  | nil => exact ⟨rfl, le_rfl⟩
  | cons e p ih =>
    obtain ⟨b, blk⟩ := e
    have hw' := (Assoc.wf_cons natBefore b blk p).1 hw
    have hb : ∀ e ∈ p, b < e.1 := fun e he => by simpa [natBefore] using hw'.1 e he
    have hnb := hlo _ List.mem_cons_self
    simp only [Pool.leastFree]
    split_ifs with h1
    · subst h1
      obtain ⟨h2, h3⟩ := ih (n := b + 1) hw'.2 (fun e he => hb e he)
      refine ⟨?_, by simp only [List.length_cons]; omega⟩
      rw [Assoc.get?_cons, if_neg, h2]
      have := Pool.leastFree_ge (b + 1) p
      omega
    · refine ⟨?_, by simp⟩
      rw [Assoc.get?_cons, if_neg (fun h => h1 h.symm)]
      by_contra hc
      obtain ⟨v, hv⟩ := Option.ne_none_iff_exists'.1 hc
      have h4 := hb _ (Assoc.mem_of_get? hv)
      have h5 : n ≤ b := hnb
      simp only at h4
      omega

/-- A canonical pool whose blocks are numbered below `n` lists at most `n` blocks. -/
theorem Pool.length_le {n : Nat} {p : Pool} (hw : Assoc.wf natBefore p = true) (hn : ∀ e ∈ p, e.1 < n) :
    p.length ≤ n := by
  have gen : ∀ (p : Pool) (lo : Nat), Assoc.wf natBefore p = true → (∀ e ∈ p, lo ≤ e.1 ∧ e.1 < n) →
      p.length + lo ≤ n ∨ p = [] := by
    intro p
    induction p with
    | nil => intro _ _ _; exact .inr rfl
    | cons e p ih =>
      obtain ⟨b, blk⟩ := e
      intro lo hw hb
      have hw' := (Assoc.wf_cons natBefore b blk p).1 hw
      have h1 := hb _ List.mem_cons_self
      simp only at h1
      rcases ih (b + 1) hw'.2 (fun e he => ⟨by simpa [natBefore] using hw'.1 e he,
          (hb e (List.mem_cons_of_mem _ he)).2⟩) with h2 | h2
      · left; simp only [List.length_cons]; omega
      · left; subst h2; simp only [List.length_cons, List.length_nil]; omega
  rcases gen p 0 hw (fun e he => ⟨Nat.zero_le _, hn e he⟩) with h | h
  · omega
  · simp [h]

/-- The number of blocks in use is what `NUM_NODES` says, and the pool's form holds. -/
structure Table.Acct (n : Nat) (t : Table) : Prop where
  pool : t.PoolOk n
  nodes : t.numNodes.toNat = t.pool.length
  limit : n ≤ 2 ^ 32 - 1

theorem Table.Acct.length_le {n : Nat} {t : Table} (h : t.Acct n) : t.pool.length ≤ n :=
  Pool.length_le h.pool.sorted h.pool.numbers

theorem Table.PoolOk.arraysWf {n : Nat} {t : Table} (h : t.PoolOk n) : t.ArraysWf := fun a => by
  cases a with
  | node b =>
    have e : t.array (.node b) = ((Assoc.get? t.pool b).getD Block.empty).slots := rfl
    rw [e]
    cases hb : Assoc.get? t.pool b with
    | none => rfl
    | some blk => exact (h.arrays _ (Assoc.mem_of_get? hb)).1
  | dir => exact h.dir.1
  | root16 => exact h.root16.1

theorem Table.PoolOk.slot_outside {n : Nat} {t : Table} (h : t.PoolOk n) (b : Nat) {j : Nat} (hj : nodeSlots ≤ j) :
    t.slot (.node b) j = Slot.empty := by
  have e : t.slot (.node b) j = ((Assoc.get? t.pool b).getD Block.empty).slots.get j := rfl
  rw [e]
  cases hb : Assoc.get? t.pool b with
  | none => rfl
  | some blk => exact (h.arrays _ (Assoc.mem_of_get? hb)).2 j hj

/-- The size of an array. -/
def arraySize : SlotArray → Nat
  | .node _ => nodeSlots
  | .dir => dirSlots
  | .root16 => wideSlots

theorem Table.pool_updateBlock (t : Table) (b : Nat) (f : Block → Block) :
    (t.updateBlock b f).pool = match Assoc.get? t.pool b with
      | some blk => Assoc.put natBefore t.pool b (f blk)
      | none => t.pool := by
  unfold Table.updateBlock
  split <;> simp_all

theorem Table.PoolOk.updateBlock {n : Nat} {t : Table} (h : t.PoolOk n) (b : Nat) (f : Block → Block)
    (hf : ∀ blk, ArrayOk nodeSlots blk.slots → ArrayOk nodeSlots (f blk).slots) : (t.updateBlock b f).PoolOk n := by
  have hd := Table.dir_updateBlock t b f
  have hr := Table.root16_updateBlock t b f
  have hp := Table.pool_updateBlock t b f
  cases hb : Assoc.get? t.pool b with
  | none =>
    rw [hb] at hp
    exact ⟨hp ▸ h.sorted, hp ▸ h.numbers, hp ▸ h.arrays, hd ▸ h.dir, hr ▸ h.root16⟩
  | some blk =>
    rw [hb] at hp
    have hm := Assoc.mem_of_get? hb
    refine ⟨hp ▸ Assoc.wf_put natBefore_order h.sorted _ _, ?_, ?_, hd ▸ h.dir, hr ▸ h.root16⟩
    · intro e he
      rw [hp] at he
      rcases Assoc.mem_put he with rfl | he
      · exact h.numbers (b, blk) hm
      · exact h.numbers e he
    · intro e he
      rw [hp] at he
      rcases Assoc.mem_put he with rfl | he
      · exact hf _ (h.arrays (b, blk) hm)
      · exact h.arrays e he

theorem Table.length_updateBlock {t : Table} (h : Assoc.wf natBefore t.pool = true) (b : Nat) (f : Block → Block) :
    (t.updateBlock b f).pool.length = t.pool.length := by
  rw [Table.pool_updateBlock]
  cases hb : Assoc.get? t.pool b with
  | none => rfl
  | some blk => simp only []; rw [Assoc.length_put natBefore_order h, hb]; rfl

theorem Table.numNodes_updateBlock (t : Table) (b : Nat) (f : Block → Block) :
    (t.updateBlock b f).numNodes = t.numNodes := by
  unfold Table.updateBlock; split <;> rfl

/-- A change of slots inside an array keeps the accounts. -/
theorem Table.Acct.mapSlots {n : Nat} {t : Table} (h : t.Acct n) (a : SlotArray) {base cnt : Nat}
    (hb : base + cnt ≤ arraySize a) (f : Slot → Slot) : (t.mapSlots a base cnt f).Acct n := by
  cases a with
  | node b =>
    refine ⟨h.pool.updateBlock b _ fun blk hok => ArrayOk.mapRange hok hb f, ?_, h.limit⟩
    exact (congrArg BitVec.toNat (Table.numNodes_updateBlock _ _ _)).trans
      (h.nodes.trans (Table.length_updateBlock h.pool.sorted _ _).symm)
  | dir =>
    exact ⟨⟨h.pool.sorted, h.pool.numbers, h.pool.arrays, ArrayOk.mapRange h.pool.dir hb f, h.pool.root16⟩, h.nodes,
      h.limit⟩
  | root16 =>
    exact ⟨⟨h.pool.sorted, h.pool.numbers, h.pool.arrays, h.pool.dir, ArrayOk.mapRange h.pool.root16 hb f⟩, h.nodes,
      h.limit⟩

theorem Table.Acct.setChild {n : Nat} {t : Table} (h : t.Acct n) (a : SlotArray) {j : Nat} (hj : j < arraySize a)
    (c : Option Nat) : (t.setChild a j c).Acct n := h.mapSlots a hj _

theorem Table.Acct.setCnt {n : Nat} {t : Table} (h : t.Acct n) (b c : Nat) : (t.setCnt b c).Acct n :=
  ⟨h.pool.updateBlock b _ fun _ hok => hok,
    (congrArg BitVec.toNat (Table.numNodes_updateBlock _ _ _)).trans
      (h.nodes.trans (Table.length_updateBlock h.pool.sorted _ _).symm), h.limit⟩

theorem Table.length_mapSlots {n : Nat} {t : Table} (h : t.Acct n) (a : SlotArray) (base cnt : Nat) (f : Slot → Slot) :
    (t.mapSlots a base cnt f).pool.length = t.pool.length := by
  cases a
  · exact Table.length_updateBlock h.pool.sorted _ _
  · rfl
  · rfl

/-- `alloc_block()` takes a free block of the pool, where there is one. -/
theorem Table.pickFree_spec {n : Nat} {t : Table} (h : t.PoolOk n) (hroom : t.pool.length < n) :
    t.inUse (t.pickFree n) = false ∧ t.pickFree n < n := by
  have hl := Pool.leastFree_spec (n := 0) h.sorted (fun _ _ => Nat.zero_le _)
  have hleast : t.inUse (Pool.leastFree 0 t.pool) = false ∧ Pool.leastFree 0 t.pool < n := by
    refine ⟨by unfold Table.inUse; rw [hl.1]; rfl, by omega⟩
  unfold Table.pickFree
  split
  · exact hleast
  · split_ifs with h1
    · simp only [Bool.and_eq_true, decide_eq_true_eq, Bool.not_eq_eq_eq_not, Bool.not_true] at h1
      exact ⟨h1.2, h1.1⟩
    · exact hleast

theorem Table.inUse_allocBlock (t : Table) (n b : Nat) :
    (t.allocBlock n).2.inUse b = (decide (b = t.pickFree n) || t.inUse b) := by
  unfold Table.inUse
  simp only [Table.allocBlock_pool, Assoc.get?_put]
  by_cases h : b = t.pickFree n <;> simp [h]

theorem Table.block_allocBlock (t : Table) (n b : Nat) :
    (t.allocBlock n).2.block b = if b = t.pickFree n then Block.empty else t.block b := by
  unfold Table.block
  simp only [Table.allocBlock_pool, Assoc.get?_put]
  split_ifs <;> rfl

/-- An allocation changes no slot of a block in use: the block it takes was free and read as empty. -/
theorem Table.slot_allocBlock {n : Nat} {t : Table} (h : t.PoolOk n) (hroom : t.pool.length < n) (a : SlotArray)
    (j : Nat) : (t.allocBlock n).2.slot a j = t.slot a j := by
  cases a with
  | node b =>
    unfold Table.slot Table.array
    simp only [Table.block_allocBlock]
    split_ifs with h1
    · rw [h1, Table.block_of_not_inUse (Table.pickFree_spec h hroom).1]
    · rfl
  | dir => rfl
  | root16 => rfl

theorem Table.Acct.allocBlock {n : Nat} {t : Table} (h : t.Acct n) (hroom : t.pool.length < n) :
    (t.allocBlock n).2.Acct n ∧ (t.allocBlock n).2.pool.length = t.pool.length + 1 := by
  obtain ⟨hfree, hlt⟩ := Table.pickFree_spec h.pool hroom
  have hlen : (t.allocBlock n).2.pool.length = t.pool.length + 1 := by
    rw [Table.allocBlock_pool, Assoc.length_put natBefore_order h.pool.sorted]
    unfold Table.inUse at hfree
    rw [if_neg (by simp [hfree])]
  refine ⟨⟨⟨Assoc.wf_put natBefore_order h.pool.sorted _ _, ?_, ?_, h.pool.dir, h.pool.root16⟩, ?_, h.limit⟩, hlen⟩
  · intro e he
    rcases Assoc.mem_put he with rfl | he
    · exact hlt
    · exact h.pool.numbers e he
  · intro e he
    rcases Assoc.mem_put he with rfl | he
    · exact ArrayOk.nil _
    · exact h.pool.arrays e he
  · rw [hlen, Table.allocBlock_numNodes, BitVec.toNat_add, h.nodes]
    have := h.limit
    simp only [BitVec.toNat_ofNat]
    omega

theorem Table.inUse_freeBlock (t : Table) (b b' : Nat) :
    (t.freeBlock b).inUse b' = (decide (b' ≠ b) && t.inUse b') := by
  unfold Table.inUse
  simp only [Table.freeBlock_pool, Assoc.get?_erase]
  by_cases h : b' = b <;> simp [h]

theorem Table.block_freeBlock (t : Table) (b b' : Nat) :
    (t.freeBlock b).block b' = if b' = b then Block.empty else t.block b' := by
  unfold Table.block
  simp only [Table.freeBlock_pool, Assoc.get?_erase]
  split_ifs <;> rfl

theorem Table.slot_freeBlock (t : Table) (b : Nat) (a : SlotArray) (j : Nat) :
    (t.freeBlock b).slot a j = if a = .node b then Slot.empty else t.slot a j := by
  cases a with
  | node b' =>
    unfold Table.slot Table.array
    simp only [Table.block_freeBlock, SlotArray.node.injEq]
    split_ifs <;> rfl
  | dir => rfl
  | root16 => rfl

theorem Table.Acct.freeBlock {n : Nat} {t : Table} (h : t.Acct n) {b : Nat} (hb : t.inUse b = true) :
    (t.freeBlock b).Acct n ∧ (t.freeBlock b).pool.length + 1 = t.pool.length := by
  have hlen : (t.freeBlock b).pool.length + 1 = t.pool.length := by
    rw [Table.freeBlock_pool]
    exact Assoc.length_erase natBefore_order h.pool.sorted b hb
  refine ⟨⟨⟨Assoc.wf_erase h.pool.sorted _, ?_, ?_, h.pool.dir, h.pool.root16⟩, ?_, h.limit⟩, hlen⟩
  · intro e he
    exact h.pool.numbers e (Assoc.mem_erase.1 he).1
  · intro e he
    exact h.pool.arrays e (Assoc.mem_erase.1 he).1
  · have h1 := h.nodes
    have h2 := h.length_le
    have h3 := h.limit
    rw [Table.freeBlock_numNodes, BitVec.toNat_sub, h1]
    simp only [BitVec.toNat_ofNat]
    omega

theorem Table.Acct.free_eq {n : Nat} {t : Table} (h : t.Acct n) : t.free n = n - t.pool.length := by
  unfold Table.free; rw [h.nodes]

end Sys2Proof.Machine
end

