-- ==== Sys2Proof/Laws/Lpm.lean ====
section
/-! SUPPORT. Prefix arithmetic, and the reference function `best` before and after a change of the store. -/

namespace Sys2Proof.Machine

/-! ### Masks -/

theorem mask_eq {w len : Nat} (h : len ≤ w) : mask w len = (2 ^ len - 1) * 2 ^ (w - len) := by
  have e : 2 ^ w = 2 ^ len * 2 ^ (w - len) := by rw [← pow_add]; congr 1; omega
  have p1 : 0 < 2 ^ (w - len) := by positivity
  have p2 : 0 < 2 ^ len := by positivity
  unfold mask
  rw [e, Nat.sub_mul, one_mul]
  have := Nat.le_mul_of_pos_left (2 ^ (w - len)) p2
  omega

/-- `canon` clears the low `w − len` bits. -/
theorem canon_eq {w n len : Nat} (hn : n < 2 ^ w) (h : len ≤ w) :
    canon w n len = n / 2 ^ (w - len) * 2 ^ (w - len) := by
  unfold canon
  rw [mask_eq h, ← Nat.shiftLeft_eq, ← Nat.shiftLeft_eq, ← Nat.shiftRight_eq_div_pow]
  apply Nat.eq_of_testBit_eq
  intro i
  simp only [Nat.testBit_and, Nat.testBit_shiftLeft, Nat.testBit_two_pow_sub_one, Nat.testBit_shiftRight]
  by_cases h1 : w - len ≤ i
  · have e : w - len + (i - (w - len)) = i := by omega
    simp only [h1, decide_true, Bool.true_and, e]
    by_cases h2 : i - (w - len) < len
    · simp [h2]
    · simp only [h2, decide_false, Bool.and_false]
      rw [Nat.testBit_lt_two_pow]
      exact hn.trans_le (Nat.pow_le_pow_right (by decide) (by omega))
  · simp [h1]

theorem hostbits_eq (w n len : Nat) : hostbits w n len = n % 2 ^ (w - len) := Nat.and_two_pow_sub_one_eq_mod n _

theorem canon_lt {w n len : Nat} (hn : n < 2 ^ w) (h : len ≤ w) : canon w n len < 2 ^ w := by
  rw [canon_eq hn h]
  exact (Nat.div_mul_le_self _ _).trans_lt hn

theorem canon_div {w n len : Nat} (hn : n < 2 ^ w) (h : len ≤ w) :
    canon w n len / 2 ^ (w - len) = n / 2 ^ (w - len) := by
  rw [canon_eq hn h, Nat.mul_div_cancel _ (by positivity)]

/-- Two addresses have the same network of length `len` when they agree above the host bits. -/
theorem canon_eq_canon_iff {w a n len : Nat} (ha : a < 2 ^ w) (hn : n < 2 ^ w) (h : len ≤ w) :
    canon w a len = canon w n len ↔ a / 2 ^ (w - len) = n / 2 ^ (w - len) := by
  rw [canon_eq ha h, canon_eq hn h]
  exact Nat.mul_left_inj (by positivity)

/-- Agreement on a length gives agreement on every shorter one. -/
theorem canon_mono {w a n len len' : Nat} (ha : a < 2 ^ w) (hn : n < 2 ^ w) (h : len ≤ w) (hl : len' ≤ len)
    (he : canon w a len = canon w n len) : canon w a len' = canon w n len' := by
  rw [canon_eq_canon_iff ha hn h] at he
  rw [canon_eq_canon_iff ha hn (hl.trans h)]
  have e : 2 ^ (w - len') = 2 ^ (w - len) * 2 ^ (len - len') := by rw [← pow_add]; congr 1; omega
  rw [e, ← Nat.div_div_eq_div_mul, ← Nat.div_div_eq_div_mul, he]

theorem canon_canon {w n len : Nat} (hn : n < 2 ^ w) (h : len ≤ w) : canon w (canon w n len) len = canon w n len :=
  (canon_eq_canon_iff (canon_lt hn h) hn h).2 (canon_div hn h)

/-! ### The reference function -/

theorem bestSearch_tag {p : PrefixStore} {w a lo n : Nat} {l : Leaf} (h : bestSearch p w a lo n = some l) :
    lo ≤ l.tag ∧ l.tag < lo + n ∧ Assoc.get? p ⟨l.tag, canon w a l.tag⟩ = some l.nh := by
  induction n with
  | zero => simp [bestSearch] at h
  | succ n ih =>
    simp only [bestSearch] at h
    cases hg : Assoc.get? p ⟨lo + n, canon w a (lo + n)⟩ with
    | none => rw [hg] at h; obtain ⟨h1, h2, h3⟩ := ih h; exact ⟨h1, by omega, h3⟩
    | some v => rw [hg] at h; obtain rfl := Option.some.inj h; exact ⟨by simp, by simp, hg⟩

theorem bestSearch_eq_none {p : PrefixStore} {w a lo n : Nat} :
    bestSearch p w a lo n = none ↔ ∀ len, lo ≤ len → len < lo + n → Assoc.get? p ⟨len, canon w a len⟩ = none := by
  induction n with
  | zero => simp only [bestSearch, true_iff]; intro len h1 h2; omega
  | succ n ih =>
    simp only [bestSearch]
    cases hg : Assoc.get? p ⟨lo + n, canon w a (lo + n)⟩ with
    | none =>
      simp only []
      rw [ih]
      refine ⟨fun h len h1 h2 => ?_, fun h len h1 h2 => h len h1 (by omega)⟩
      by_cases e : len = lo + n
      · rw [e]; exact hg
      · exact h len h1 (by omega)
    | some v =>
      refine ⟨fun h => by simp at h, fun h => ?_⟩
      have := h (lo + n) (by omega) (by omega)
      rw [hg] at this; cases this

theorem bestSearch_congr {p : PrefixStore} {w a a' lo n : Nat}
    (h : ∀ len, lo ≤ len → len < lo + n → canon w a len = canon w a' len) :
    bestSearch p w a lo n = bestSearch p w a' lo n := by
  induction n with
  | zero => rfl
  | succ n ih =>
    simp only [bestSearch]
    rw [h (lo + n) (by omega) (by omega), ih (fun len h1 h2 => h len h1 (by omega))]

theorem bestSearch_add (p : PrefixStore) (w a lo n m : Nat) :
    bestSearch p w a lo (n + m) = (bestSearch p w a (lo + n) m).or (bestSearch p w a lo n) := by
  induction m with
  | zero => simp [bestSearch]
  | succ m ih =>
    rw [← Nat.add_assoc]
    simp only [bestSearch]
    rw [show lo + (n + m) = lo + n + m by omega, ih]
    cases Assoc.get? p ⟨lo + n + m, canon w a (lo + n + m)⟩ <;> rfl

/-- `best` after a prefix is stored: where it covers the address, it takes over a shorter best one. -/
theorem bestSearch_put (p : PrefixStore) (q : Prefix) (v : Word) (w a lo n : Nat) :
    bestSearch (Assoc.put Prefix.before p q v) w a lo n =
      if lo ≤ q.len ∧ q.len < lo + n ∧ canon w a q.len = q.net then leafWrite v q.len (bestSearch p w a lo n)
      else bestSearch p w a lo n := by
  induction n with
  | zero => simp only [bestSearch]; split_ifs with h <;> first | rfl | omega
  | succ n ih =>
    simp only [bestSearch, Assoc.get?_put]
    by_cases hk : (⟨lo + n, canon w a (lo + n)⟩ : Prefix) = q
    · subst hk
      rw [if_pos rfl]
      simp only [le_add_iff_nonneg_right, zero_le, true_and, and_true]
      rw [if_pos (by omega)]
      cases hg : Assoc.get? p ⟨lo + n, canon w a (lo + n)⟩ with
      | some x => simp [leafWrite]
      | none =>
        simp only []
        cases hb : bestSearch p w a lo n with
        | none => rfl
        | some l => have := (bestSearch_tag hb).2.1; simp [leafWrite, this.le]
    · rw [if_neg hk]
      have hc : (lo ≤ q.len ∧ q.len < lo + (n + 1) ∧ canon w a q.len = q.net) ↔
          (lo ≤ q.len ∧ q.len < lo + n ∧ canon w a q.len = q.net) := by
        constructor
        · rintro ⟨h1, h2, h3⟩
          refine ⟨h1, ?_, h3⟩
          by_contra h4
          obtain rfl : q = ⟨lo + n, canon w a (lo + n)⟩ := by
            obtain ⟨ql, qn⟩ := q
            simp only at h1 h2 h3 h4
            obtain rfl : ql = lo + n := by omega
            rw [h3]
          exact hk rfl
        · rintro ⟨h1, h2, h3⟩; exact ⟨h1, by omega, h3⟩
      simp only [hc]
      cases hg : Assoc.get? p ⟨lo + n, canon w a (lo + n)⟩ with
      | some x =>
        simp only []
        split_ifs with h1
        · have : ¬ lo + n ≤ q.len := by omega
          simp [leafWrite, this]
        · rfl
      | none => exact ih

/-- `best` after a prefix is removed: where it was the best one, the best shorter one that remains takes over. -/
theorem bestSearch_erase (p : PrefixStore) (q : Prefix) (w a lo n : Nat) :
    bestSearch (Assoc.erase p q) w a lo n =
      if lo ≤ q.len ∧ q.len < lo + n ∧ canon w a q.len = q.net then
        leafClear q.len (bestSearch (Assoc.erase p q) w a lo (q.len - lo)) (bestSearch p w a lo n)
      else bestSearch p w a lo n := by
  induction n with
  | zero => simp only [bestSearch]; split_ifs <;> rfl
  | succ n ih =>
    simp only [bestSearch, Assoc.get?_erase]
    by_cases hk : (⟨lo + n, canon w a (lo + n)⟩ : Prefix) = q
    · subst hk
      rw [if_pos rfl]
      simp only [le_add_iff_nonneg_right, zero_le, true_and, and_true] at ih ⊢
      rw [if_pos (by omega), show lo + n - lo = n by omega]
      rw [if_neg (by omega)] at ih
      cases hg : Assoc.get? p ⟨lo + n, canon w a (lo + n)⟩ with
      | some x => simp [leafClear]
      | none =>
        simp only []
        rw [ih]
        cases hb : bestSearch p w a lo n with
        | none => rfl
        | some l => have := (bestSearch_tag hb).2.1; simp [leafClear, this.ne]
    · rw [if_neg hk]
      have hc : (lo ≤ q.len ∧ q.len < lo + (n + 1) ∧ canon w a q.len = q.net) ↔
          (lo ≤ q.len ∧ q.len < lo + n ∧ canon w a q.len = q.net) := by
        constructor
        · rintro ⟨h1, h2, h3⟩
          refine ⟨h1, ?_, h3⟩
          by_contra h4
          obtain rfl : q = ⟨lo + n, canon w a (lo + n)⟩ := by
            obtain ⟨ql, qn⟩ := q
            simp only at h1 h2 h3 h4
            obtain rfl : ql = lo + n := by omega
            rw [h3]
          exact hk rfl
        · rintro ⟨h1, h2, h3⟩; exact ⟨h1, by omega, h3⟩
      simp only [hc]
      cases hg : Assoc.get? p ⟨lo + n, canon w a (lo + n)⟩ with
      | some x =>
        simp only []
        split_ifs with h1
        · have : lo + n ≠ q.len := by omega
          simp [leafClear, this]
        · rfl
      | none => exact ih

/-- The empty store answers nothing. -/
theorem bestSearch_nil (w a lo n : Nat) : bestSearch [] w a lo n = none :=
  bestSearch_eq_none.2 fun _ _ _ => rfl

/-! ### Paths and bytes -/

theorem path_eq (w n k : Nat) : path w n k = n / 2 ^ (w - 8 * k) := Nat.shiftRight_eq_div_pow _ _

theorem byte_eq {w n k : Nat} (h : 8 * (k + 1) ≤ w) : byte w n k = n / 2 ^ (w - 8 * (k + 1)) % 256 := by
  unfold byte bits
  rw [Nat.shiftRight_eq_div_pow, show w - 1 - 8 * k + 1 - (w - 8 - 8 * k) = 8 by omega,
    show w - 8 - 8 * k = w - 8 * (k + 1) by omega]
  rfl

theorem byte_lt {w n k : Nat} (h : 8 * (k + 1) ≤ w) : byte w n k < 256 := by
  rw [byte_eq h]; exact Nat.mod_lt _ (by decide)

theorem path_succ {w n k : Nat} (h : 8 * (k + 1) ≤ w) : path w n (k + 1) = 256 * path w n k + byte w n k := by
  rw [path_eq, path_eq, byte_eq h]
  have e : 2 ^ (w - 8 * k) = 2 ^ (w - 8 * (k + 1)) * 256 := by
    rw [show (256 : Nat) = 2 ^ 8 by rfl, ← pow_add]; congr 1; omega
  rw [e, ← Nat.div_div_eq_div_mul]
  omega

theorem path_lt {w n k : Nat} (hn : n < 2 ^ w) (h : 8 * k ≤ w) : path w n k < 2 ^ (8 * k) := by
  rw [path_eq]
  apply Nat.div_lt_of_lt_mul
  rw [← pow_add, show w - 8 * k + 8 * k = w by omega]
  exact hn

theorem path_zero {w n : Nat} (hn : n < 2 ^ w) : path w n 0 = 0 := by
  have := path_lt (k := 0) hn (by omega)
  simpa using this

/-- A path of `8k` bits is that of the network of any length from `8k` on. -/
theorem path_canon {w a len k : Nat} (ha : a < 2 ^ w) (h : len ≤ w) (hk : 8 * k ≤ len) :
    path w (canon w a len) k = path w a k := by
  rw [path_eq, path_eq]
  have e : 2 ^ (w - 8 * k) = 2 ^ (w - len) * 2 ^ (len - 8 * k) := by rw [← pow_add]; congr 1; omega
  rw [e, ← Nat.div_div_eq_div_mul, ← Nat.div_div_eq_div_mul, canon_div ha h]

/-- `x` shares all but its low `r` bits with an aligned `b` exactly when it lies in the `2^r` numbers from `b` on. -/
theorem div_eq_iff_range {b r x : Nat} (hb : b % 2 ^ r = 0) : x / 2 ^ r = b / 2 ^ r ↔ b ≤ x ∧ x < b + 2 ^ r := by
  have hp : 0 < 2 ^ r := by positivity
  obtain ⟨c, rfl⟩ := Nat.dvd_of_mod_eq_zero hb
  rw [Nat.mul_div_cancel_left _ hp, Nat.div_eq_iff hp]
  constructor
  · rintro ⟨h1, h2⟩
    have e : c * 2 ^ r = 2 ^ r * c := Nat.mul_comm _ _
    omega
  · rintro ⟨h1, h2⟩
    have e : c * 2 ^ r = 2 ^ r * c := Nat.mul_comm _ _
    omega

/-- A range of `2^r` slots from an aligned base stays in an array of `2^m` slots. -/
theorem range_in_array {b r m : Nat} (hb : b % 2 ^ r = 0) (hr : r ≤ m) (hlt : b < 2 ^ m) : b + 2 ^ r ≤ 2 ^ m := by
  obtain ⟨c, rfl⟩ := Nat.dvd_of_mod_eq_zero hb
  have e : 2 ^ m = 2 ^ r * 2 ^ (m - r) := by rw [← pow_add]; congr 1; omega
  rw [e] at hlt ⊢
  have h1 : c < 2 ^ (m - r) := Nat.lt_of_mul_lt_mul_left hlt
  calc 2 ^ r * c + 2 ^ r = 2 ^ r * (c + 1) := by ring
    _ ≤ 2 ^ r * 2 ^ (m - r) := Nat.mul_le_mul_left _ h1

/-- The array slots a prefix `(len, n)` fans out over: an array indexed by the top `m` bits of a `w`-bit address. -/
theorem covers_iff_range {w n len m i : Nat} (hn : n < 2 ^ w) (hc : canon w n len = n) (hlm : len ≤ m) (hmw : m ≤ w)
    (hi : i < 2 ^ m) :
    canon w (i * 2 ^ (w - m)) len = n ↔ n / 2 ^ (w - m) ≤ i ∧ i < n / 2 ^ (w - m) + 2 ^ (m - len) := by
  have hlw : len ≤ w := hlm.trans hmw
  have ha : i * 2 ^ (w - m) < 2 ^ w := by
    have e : 2 ^ w = 2 ^ m * 2 ^ (w - m) := by rw [← pow_add]; congr 1; omega
    rw [e]; exact Nat.mul_lt_mul_of_pos_right hi (by positivity)
  have e : 2 ^ (w - len) = 2 ^ (w - m) * 2 ^ (m - len) := by rw [← pow_add]; congr 1; omega
  have hal : n / 2 ^ (w - m) % 2 ^ (m - len) = 0 := by
    rw [← hc, canon_eq hn hlw, e, ← Nat.mul_assoc, Nat.mul_right_comm, Nat.mul_div_cancel _ (by positivity)]
    exact Nat.mul_mod_left _ _
  rw [← div_eq_iff_range hal]
  conv_lhs => rhs; rw [← hc]
  rw [canon_eq_canon_iff ha hn hlw, e, ← Nat.div_div_eq_div_mul, ← Nat.div_div_eq_div_mul,
    Nat.mul_div_cancel _ (by positivity)]

theorem fan_aligned {w n len m : Nat} (hn : n < 2 ^ w) (hc : canon w n len = n) (hlm : len ≤ m) (hmw : m ≤ w) :
    n / 2 ^ (w - m) % 2 ^ (m - len) = 0 := by
  have e : 2 ^ (w - len) = 2 ^ (w - m) * 2 ^ (m - len) := by rw [← pow_add]; congr 1; omega
  rw [← hc, canon_eq hn (hlm.trans hmw), e, ← Nat.mul_assoc, Nat.mul_right_comm, Nat.mul_div_cancel _ (by positivity)]
  exact Nat.mul_mod_left _ _

/-! ### `below` -/

theorem below_iff {ps : PrefixStore} {w k p : Nat} :
    below ps w k p = true ↔ ∃ e ∈ ps, 8 * k < e.1.len ∧ path w e.1.net k = p := by
  simp [below, List.any_eq_true]

theorem below_put (ps : PrefixStore) (q : Prefix) (v : Word) (w k p : Nat) :
    below (Assoc.put Prefix.before ps q v) w k p = true ↔
      below ps w k p = true ∨ (8 * k < q.len ∧ path w q.net k = p) := by
  induction ps with
  | nil => simp [Assoc.put, below]
  | cons e ps ih =>
    obtain ⟨a, u⟩ := e
    unfold below at ih ⊢
    simp only [Assoc.put]
    split_ifs with h1 h2
    · subst h1
      simp only [List.any_cons, Bool.or_eq_true, Bool.and_eq_true, decide_eq_true_eq]
      tauto
    · simp only [List.any_cons, Bool.or_eq_true, Bool.and_eq_true, decide_eq_true_eq]
      tauto
    · rw [List.any_cons, Bool.or_eq_true, ih, List.any_cons, Bool.or_eq_true]
      tauto

theorem below_erase (ps : PrefixStore) (q : Prefix) (w k p : Nat) :
    below (Assoc.erase ps q) w k p = true ↔ ∃ e ∈ ps, e.1 ≠ q ∧ 8 * k < e.1.len ∧ path w e.1.net k = p := by
  rw [below_iff]
  constructor
  · rintro ⟨e, he, h⟩; exact ⟨e, (Assoc.mem_erase.1 he).1, (Assoc.mem_erase.1 he).2, h⟩
  · rintro ⟨e, he, hq, h⟩; exact ⟨e, Assoc.mem_erase.2 ⟨he, hq⟩, h⟩

/-- A stored prefix is what `below` counts. -/
theorem below_of_get? {ps : PrefixStore} {q : Prefix} {v : Word} (h : Assoc.get? ps q = some v) {w k : Nat}
    (hk : 8 * k < q.len) : below ps w k (path w q.net k) = true :=
  below_iff.2 ⟨(q, v), Assoc.mem_of_get? h, hk, rfl⟩

/-- Above a longer prefix's path there is one at every shallower level. -/
theorem below_parent {ps : PrefixStore} {w k p : Nat} (h : below ps w (k + 1) p = true) (hw : 8 * (k + 1) ≤ w) :
    below ps w k (p / 256) = true := by
  obtain ⟨e, he, h1, h2⟩ := below_iff.1 h
  refine below_iff.2 ⟨e, he, by omega, ?_⟩
  rw [← h2, path_succ hw]
  have := byte_lt (w := w) (n := e.1.net) hw
  omega

/-- A prefix of a length above `8k` is the best one for an address only when it lies below the address's path. -/
theorem below_of_bestSearch {ps : PrefixStore} {w a lo n k : Nat} {l : Leaf} (ha : a < 2 ^ w) (hw : lo + n ≤ w + 1)
    (hk : 8 * k < lo) (h : bestSearch ps w a lo n = some l) : below ps w k (path w a k) = true := by
  obtain ⟨h1, h2, h3⟩ := bestSearch_tag h
  have := below_of_get? (w := w) (k := k) h3 (by simp only; omega)
  rwa [path_canon ha (by omega) (by omega)] at this

end Sys2Proof.Machine
end

