-- ==== Sys2Proof/Laws/Trie.lean ====
section
/-! SUPPORT. Tries of nodes (Stride8, and the sub-tries of Wide16): attaching and detaching a node, opening a path,
pruning one, and the descent of a lookup. -/

namespace Sys2Proof.Machine

/-- A trie: the nodes are at the places `E`, each block in use on one path, and the leaves are `F`. -/
structure TrieIs (t : Table) (root : Nat → Option Nat) (E : Nat → Nat → Prop) (F : Nat → Nat → Nat → Option Leaf) :
    Prop where
  exist : ∀ d p, (t.nodeFrom root d p).isSome = true ↔ E d p
  reached : ∀ b, t.inUse b = true ↔ ∃ d p, t.nodeFrom root d p = some b
  onePath : ∀ d p d' p' b, t.nodeFrom root d p = some b → t.nodeFrom root d' p' = some b → d = d' ∧ p = p'
  cnt : ∀ d p b, t.nodeFrom root d p = some b → (t.block b).cnt = 0
  leaf : ∀ d p b, t.nodeFrom root d p = some b → ∀ j, j < 256 → (t.slot (.node b) j).leaf = F d p j

theorem TrieIs.congr {t : Table} {R : Nat → Option Nat} {E E' : Nat → Nat → Prop} {F : Nat → Nat → Nat → Option Leaf}
    (h : TrieIs t R E F) (he : ∀ d p, E d p ↔ E' d p) : TrieIs t R E' F :=
  ⟨fun d p => (h.exist d p).trans (he d p), h.reached, h.onePath, h.cnt, h.leaf⟩

theorem Table.nodeFrom_succ (t : Table) (R : Nat → Option Nat) (d p : Nat) :
    t.nodeFrom R (d + 1) p = (t.nodeFrom R d (p / 256)).bind fun b => t.childAt (.node b) (p % 256) := rfl

theorem Table.nodeFrom_child {t : Table} {R : Nat → Option Nat} {d p b : Nat} (h : t.nodeFrom R d p = some b) {j : Nat}
    (hj : j < 256) : t.nodeFrom R (d + 1) (256 * p + j) = t.childAt (.node b) j := by
  rw [Table.nodeFrom_succ, show (256 * p + j) / 256 = p by omega, show (256 * p + j) % 256 = j by omega, h]; rfl

/-- The nodes after the slot that refers to one place `(dt, pt)` is written with `v`. -/
theorem Table.nodeFrom_update {t t' : Table} {R R' : Nat → Option Nat} {dt pt : Nat} {v : Option Nat}
    (h0 : ∀ p, R' p = if dt = 0 ∧ p = pt then v else R p)
    (h1 : ∀ d p b, t.nodeFrom R d p = some b → ¬(d = dt ∧ p = pt) → ∀ j, j < 256 →
      t'.childAt (.node b) j = if dt = d + 1 ∧ pt = 256 * p + j then v else t.childAt (.node b) j)
    (h2 : ∀ m, v = some m → ∀ j, j < 256 → t'.childAt (.node m) j = none)
    (h3 : ∀ j, j < 256 → t.nodeFrom R (dt + 1) (256 * pt + j) = none)
    (h4 : v ≠ none → ∀ d, dt = d + 1 → t.nodeFrom R d (pt / 256) ≠ none) (d p : Nat) :
    t'.nodeFrom R' d p = if d = dt ∧ p = pt then v else t.nodeFrom R d p := by
  induction d generalizing p with
  | zero =>
    show R' p = _
    rw [h0]
    by_cases h : dt = 0 ∧ p = pt
    · rw [if_pos h, if_pos ⟨h.1.symm, h.2⟩]
    · rw [if_neg h, if_neg (fun h' => h ⟨h'.1.symm, h'.2⟩)]; rfl
  | succ d ih =>
    have hp : p = 256 * (p / 256) + p % 256 := by omega
    have hm : p % 256 < 256 := Nat.mod_lt _ (by decide)
    rw [Table.nodeFrom_succ, ih]
    by_cases ht : d = dt ∧ p / 256 = pt
    · rw [if_pos ht, if_neg (by omega)]
      have hn := h3 (p % 256) hm
      rw [← ht.2, ← hp, ← ht.1] at hn
      rw [hn]
      cases hv : v with
      | none => rfl
      | some m => exact h2 m hv _ hm
    · rw [if_neg ht]
      cases hb : t.nodeFrom R d (p / 256) with
      | none =>
        rw [Table.nodeFrom_succ, hb]
        split_ifs with h5
        · by_contra hne
          exact h4 (fun hv => hne (by rw [hv]; rfl)) d h5.1.symm (h5.2 ▸ hb)
        · rfl
      | some b =>
        show t'.childAt (.node b) (p % 256) = _
        rw [h1 _ _ _ hb ht _ hm, Table.nodeFrom_succ, hb, ← hp]
        by_cases h5 : dt = d + 1 ∧ pt = p
        · rw [if_pos h5, if_pos ⟨h5.1.symm, h5.2.symm⟩]
        · rw [if_neg h5, if_neg (fun h' => h5 ⟨h'.1.symm, h'.2.symm⟩)]; rfl

theorem Table.not_inUse_childAt {t : Table} {b : Nat} (h : t.inUse b = false) (j : Nat) :
    t.childAt (.node b) j = none := by
  have e : t.childAt (.node b) j = ((t.block b).slots.get j).child := rfl
  rw [e, Table.block_of_not_inUse h]; rfl

/-- A new node, empty, attached where slot `j` of an array refers to the place `(dt, pt)`. -/
theorem TrieIs.attach {t : Table} {R : Nat → Option Nat} {E : Nat → Nat → Prop} {F : Nat → Nat → Nat → Option Leaf}
    (h : TrieIs t R E F) {n : Nat} (ha : t.Acct n) (hroom : t.pool.length < n) {a : SlotArray} {j dt pt : Nat}
    (hu : t.usable a = true) (hj : j < arraySize a) (R' : Nat → Option Nat)
    (hR : ∀ p, R' p = if dt = 0 ∧ p = pt then some (t.pickFree n) else R p)
    (hpos : ∀ d p b, t.nodeFrom R d p = some b → ∀ i, i < 256 →
      ((SlotArray.node b = a ∧ i = j) ↔ (dt = d + 1 ∧ pt = 256 * p + i)))
    (hpar : ∀ d, dt = d + 1 → t.nodeFrom R d (pt / 256) ≠ none) (hnew : t.nodeFrom R dt pt = none)
    (hF : ∀ i, i < 256 → F dt pt i = none) :
    TrieIs ((t.allocBlock n).2.setChild a j (some (t.pickFree n))) R' (fun d p => E d p ∨ (d = dt ∧ p = pt)) F ∧
      ((t.allocBlock n).2.setChild a j (some (t.pickFree n))).nodeFrom R' dt pt = some (t.pickFree n) ∧
      ((t.allocBlock n).2.setChild a j (some (t.pickFree n))).Acct n ∧
      ((t.allocBlock n).2.setChild a j (some (t.pickFree n))).pool.length = t.pool.length + 1 ∧
      ∀ i, ((t.allocBlock n).2.setChild a j (some (t.pickFree n))).childAt (.node (t.pickFree n)) i = none := by
  obtain ⟨hfree, hlt⟩ := Table.pickFree_spec ha.pool hroom
  obtain ⟨ha1, hl1⟩ := ha.allocBlock hroom
  have hw1 := ha1.pool.arraysWf
  have hu1 : (t.allocBlock n).2.usable a = true := by
    cases a with
    | node b =>
      have hb : t.inUse b = true := hu
      show (t.allocBlock n).2.inUse b = true
      rw [Table.inUse_allocBlock, hb, Bool.or_true]
    | dir => rfl
    | root16 => rfl
  have hne : a ≠ .node (t.pickFree n) := by
    rintro rfl
    have : t.inUse (t.pickFree n) = true := hu
    rw [hfree] at this; cases this
  have hch : ∀ a' j', ((t.allocBlock n).2.setChild a j (some (t.pickFree n))).childAt a' j' =
      if a' = a ∧ j' = j then some (t.pickFree n) else t.childAt a' j' := by
    intro a' j'
    rw [Table.childAt_setChild hw1]
    have e : (t.allocBlock n).2.childAt a' j' = t.childAt a' j' := by
      unfold Table.childAt; rw [Table.slot_allocBlock ha.pool hroom]
    rw [e]
    by_cases h1 : a' = a ∧ j' = j
    · rw [if_pos h1, if_pos ⟨h1.1, hu1, h1.2⟩]
    · rw [if_neg h1, if_neg (fun h2 => h1 ⟨h2.1, h2.2.2⟩)]
  have hchm : ∀ i, ((t.allocBlock n).2.setChild a j (some (t.pickFree n))).childAt (.node (t.pickFree n)) i = none := by
    intro i
    rw [hch, if_neg (fun h1 => hne h1.1.symm)]
    exact Table.not_inUse_childAt hfree i
  have hnode := Table.nodeFrom_update (t := t) (t' := (t.allocBlock n).2.setChild a j (some (t.pickFree n))) (R := R)
    (R' := R') (dt := dt) (pt := pt) (v := some (t.pickFree n)) hR
    (by
      intro d p b hb _ i hi
      rw [hch]
      have := hpos d p b hb i hi
      by_cases h1 : SlotArray.node b = a ∧ i = j
      · rw [if_pos h1, if_pos (this.1 h1)]
      · rw [if_neg h1, if_neg (fun h2 => h1 (this.2 h2))])
    (by
      intro m hm i _
      obtain rfl := Option.some.inj hm
      exact hchm i)
    (by
      intro i hi
      rw [Table.nodeFrom_succ, show (256 * pt + i) / 256 = pt by omega, hnew]; rfl)
    (fun _ d hd => hpar d hd)
  refine ⟨⟨?_, ?_, ?_, ?_, ?_⟩, ?_, ha1.setChild a hj _, ?_, hchm⟩
  · intro d p
    rw [hnode]
    by_cases h1 : d = dt ∧ p = pt
    · rw [if_pos h1]; simp [h1]
    · rw [if_neg h1, h.exist]; simp [h1]
  · intro b
    rw [Table.inUse_setChild, Table.inUse_allocBlock, Bool.or_eq_true, decide_eq_true_eq, h.reached]
    constructor
    · rintro (rfl | ⟨d, p, hb⟩)
      · exact ⟨dt, pt, by rw [hnode, if_pos ⟨rfl, rfl⟩]⟩
      · refine ⟨d, p, ?_⟩
        rw [hnode, if_neg, hb]
        rintro ⟨rfl, rfl⟩
        rw [hnew] at hb; cases hb
    · rintro ⟨d, p, hb⟩
      rw [hnode] at hb
      split_ifs at hb with h1
      · exact .inl (Option.some.inj hb).symm
      · exact .inr ⟨d, p, hb⟩
  · intro d p d' p' b hb hb'
    have notm : ∀ {d p b}, t.nodeFrom R d p = some b → b ≠ t.pickFree n := by
      rintro d p b hb rfl
      have := (h.reached _).2 ⟨d, p, hb⟩
      rw [hfree] at this; cases this
    rw [hnode] at hb hb'
    split_ifs at hb with h1 <;> split_ifs at hb' with h2
    · exact ⟨h1.1.trans h2.1.symm, h1.2.trans h2.2.symm⟩
    · exact absurd (Option.some.inj hb).symm (notm hb')
    · exact absurd (Option.some.inj hb').symm (notm hb)
    · exact h.onePath _ _ _ _ _ hb hb'
  · intro d p b hb
    rw [Table.setChild, Table.cnt_mapSlots, Table.block_allocBlock]
    rw [hnode] at hb
    split_ifs with h1
    · rfl
    · split_ifs at hb with h2
      · exact absurd (Option.some.inj hb).symm h1
      · exact h.cnt _ _ _ hb
  · intro d p b hb i hi
    rw [Table.leaf_setChild hw1, Table.slot_allocBlock ha.pool hroom]
    rw [hnode] at hb
    split_ifs at hb with h2
    · obtain rfl := Option.some.inj hb
      rw [h2.1, h2.2, hF i hi]
      have e : t.slot (.node (t.pickFree n)) i = (t.block (t.pickFree n)).slots.get i := rfl
      rw [e, Table.block_of_not_inUse hfree]; rfl
    · exact h.leaf _ _ _ hb i hi
  · rw [hnode, if_pos ⟨rfl, rfl⟩]
  · rw [Table.setChild, Table.length_mapSlots ha1]; exact hl1

/-- A vacant node freed, and the slot that refers to it cleared. -/
theorem TrieIs.detach {t : Table} {R : Nat → Option Nat} {E : Nat → Nat → Prop} {F : Nat → Nat → Nat → Option Leaf}
    (h : TrieIs t R E F) {n : Nat} (ha : t.Acct n) {a : SlotArray} {j dt pt m : Nat}
    (hm : t.nodeFrom R dt pt = some m) (hv : ∀ i, i < 256 → t.slot (.node m) i = Slot.empty)
    (hu : t.usable a = true) (hj : j < arraySize a) (hne : a ≠ .node m) (R' : Nat → Option Nat)
    (hR : ∀ p, R' p = if dt = 0 ∧ p = pt then none else R p)
    (hpos : ∀ d p b, t.nodeFrom R d p = some b → ∀ i, i < 256 →
      ((SlotArray.node b = a ∧ i = j) ↔ (dt = d + 1 ∧ pt = 256 * p + i))) :
    TrieIs ((t.freeBlock m).setChild a j none) R' (fun d p => E d p ∧ ¬(d = dt ∧ p = pt)) F ∧
      ((t.freeBlock m).setChild a j none).Acct n ∧
      (∀ d p, ((t.freeBlock m).setChild a j none).nodeFrom R' d p =
        if d = dt ∧ p = pt then none else t.nodeFrom R d p) := by
  have huse : t.inUse m = true := (h.reached m).2 ⟨_, _, hm⟩
  obtain ⟨ha1, hl1⟩ := ha.freeBlock huse
  have hw1 := ha1.pool.arraysWf
  have hu1 : (t.freeBlock m).usable a = true := by
    cases a with
    | node b =>
      have hb : t.inUse b = true := hu
      show (t.freeBlock m).inUse b = true
      rw [Table.inUse_freeBlock, hb, Bool.and_true, decide_eq_true_eq]
      rintro rfl; exact hne rfl
    | dir => rfl
    | root16 => rfl
  have hch : ∀ b, b ≠ m → ∀ j', ((t.freeBlock m).setChild a j none).childAt (.node b) j' =
      if SlotArray.node b = a ∧ j' = j then none else t.childAt (.node b) j' := by
    intro b hb j'
    rw [Table.childAt_setChild hw1]
    have e : (t.freeBlock m).childAt (.node b) j' = t.childAt (.node b) j' := by
      unfold Table.childAt; rw [Table.slot_freeBlock, if_neg (by simpa using hb)]
    rw [e]
    by_cases h1 : SlotArray.node b = a ∧ j' = j
    · rw [if_pos h1, if_pos ⟨h1.1, hu1, h1.2⟩]
    · rw [if_neg h1, if_neg (fun h2 => h1 ⟨h2.1, h2.2.2⟩)]
  have notm : ∀ {d p b}, t.nodeFrom R d p = some b → ¬(d = dt ∧ p = pt) → b ≠ m := by
    rintro d p b hb hn rfl
    exact hn (h.onePath _ _ _ _ _ hb hm)
  have hnode := Table.nodeFrom_update (t := t) (t' := (t.freeBlock m).setChild a j none) (R := R)
    (R' := R') (dt := dt) (pt := pt) (v := none) hR
    (by
      intro d p b hb hn i hi
      rw [hch b (notm hb hn)]
      have := hpos d p b hb i hi
      by_cases h1 : SlotArray.node b = a ∧ i = j
      · rw [if_pos h1, if_pos (this.1 h1)]
      · rw [if_neg h1, if_neg (fun h2 => h1 (this.2 h2))])
    (by intro m hm; cases hm)
    (by
      intro i hi
      rw [Table.nodeFrom_child hm hi, Table.childAt, hv i hi]; rfl)
    (fun hv => absurd rfl hv)
  refine ⟨⟨?_, ?_, ?_, ?_, ?_⟩, ha1.setChild a hj _, hnode⟩
  · intro d p
    rw [hnode]
    by_cases h1 : d = dt ∧ p = pt
    · rw [if_pos h1]; simp [h1]
    · rw [if_neg h1, h.exist]; simp [h1]
  · intro b
    rw [Table.inUse_setChild, Table.inUse_freeBlock, Bool.and_eq_true, decide_eq_true_eq, h.reached]
    constructor
    · rintro ⟨hbm, d, p, hb⟩
      refine ⟨d, p, ?_⟩
      rw [hnode, if_neg, hb]
      rintro ⟨rfl, rfl⟩
      rw [hm] at hb; exact hbm (Option.some.inj hb).symm
    · rintro ⟨d, p, hb⟩
      rw [hnode] at hb
      split_ifs at hb with h1
      exact ⟨notm hb h1, d, p, hb⟩
  · intro d p d' p' b hb hb'
    rw [hnode] at hb hb'
    split_ifs at hb with h1
    split_ifs at hb' with h2
    exact h.onePath _ _ _ _ _ hb hb'
  · intro d p b hb
    rw [hnode] at hb
    split_ifs at hb with h1
    rw [Table.setChild, Table.cnt_mapSlots, Table.block_freeBlock, if_neg (notm hb h1)]
    exact h.cnt _ _ _ hb
  · intro d p b hb i hi
    rw [hnode] at hb
    split_ifs at hb with h1
    rw [Table.leaf_setChild hw1, Table.slot_freeBlock, if_neg (by simpa using notm hb h1)]
    exact h.leaf _ _ _ hb i hi

/-- A change of the leaves of one node. -/
theorem TrieIs.mapNode {t : Table} {R : Nat → Option Nat} {E : Nat → Nat → Prop} {F F' : Nat → Nat → Nat → Option Leaf}
    (h : TrieIs t R E F) (hw : t.ArraysWf) {d0 p0 b0 : Nat} (hb0 : t.nodeFrom R d0 p0 = some b0) (base cnt : Nat)
    (f : Slot → Slot) (g : Option Leaf → Option Leaf) (hf : ∀ s, (f s).child = s.child)
    (hg : ∀ s, (f s).leaf = g s.leaf)
    (hF : ∀ d p j, E d p → j < 256 → F' d p j =
      if d = d0 ∧ p = p0 ∧ base ≤ j ∧ j < base + cnt then g (F d p j) else F d p j) :
    TrieIs (t.mapSlots (.node b0) base cnt f) R E F' ∧
      ∀ d p, (t.mapSlots (.node b0) base cnt f).nodeFrom R d p = t.nodeFrom R d p := by
  have hnode : ∀ d p, (t.mapSlots (.node b0) base cnt f).nodeFrom R d p = t.nodeFrom R d p := by
    intro d
    induction d with
    | zero => intro p; rfl
    | succ d ih =>
      intro p
      rw [Table.nodeFrom_succ, Table.nodeFrom_succ, ih]
      congr 1
      funext b
      exact Table.childAt_mapSlots hw _ _ _ _ hf _ _
  have hu0 : t.inUse b0 = true := (h.reached b0).2 ⟨_, _, hb0⟩
  refine ⟨⟨?_, ?_, ?_, ?_, ?_⟩, hnode⟩
  · intro d p; rw [hnode]; exact h.exist d p
  · intro b; rw [Table.inUse_mapSlots, h.reached]; simp only [hnode]
  · intro d p d' p' b hb hb'; rw [hnode] at hb hb'; exact h.onePath _ _ _ _ _ hb hb'
  · intro d p b hb; rw [hnode] at hb; rw [Table.cnt_mapSlots]; exact h.cnt _ _ _ hb
  · intro d p b hb j hj
    rw [hnode] at hb
    rw [Table.slot_mapSlots hw, hF d p j ((h.exist d p).1 (by rw [hb]; rfl)) hj]
    by_cases h1 : d = d0 ∧ p = p0 ∧ base ≤ j ∧ j < base + cnt
    · obtain ⟨rfl, rfl, h2, h3⟩ := h1
      have hbb : b = b0 := Option.some.inj (hb.symm.trans hb0)
      subst hbb
      rw [if_pos ⟨rfl, hu0, h2, h3⟩, if_pos ⟨rfl, rfl, h2, h3⟩, hg, h.leaf _ _ _ hb j hj]
    · rw [if_neg h1, if_neg]
      · exact h.leaf _ _ _ hb j hj
      · rintro ⟨h2, -, h3, h4⟩
        obtain ⟨rfl, rfl⟩ := h.onePath _ _ _ _ _ hb (by rw [SlotArray.node.inj h2]; exact hb0)
        exact h1 ⟨rfl, rfl, h3, h4⟩

/-! ### Opening a path -/

theorem Table.missing_of_empty {t : Table} (w n : Nat) {m : Nat} (h : ∀ i, t.childAt (.node m) i = none)
    (steps k : Nat) : t.missing w n steps k m = steps := by
  cases steps with
  | zero => rfl
  | succ s => simp only [Table.missing, h]

/-- The place of the array of a node's slot: the node's children. -/
theorem TrieIs.hpos {t : Table} {R : Nat → Option Nat} {E : Nat → Nat → Prop} {F : Nat → Nat → Nat → Option Leaf}
    (h : TrieIs t R E F) {d0 p0 b0 j : Nat} (hb0 : t.nodeFrom R d0 p0 = some b0) (hj : j < 256) (d p b : Nat)
    (hb : t.nodeFrom R d p = some b) (i : Nat) (hi : i < 256) :
    (SlotArray.node b = .node b0 ∧ i = j) ↔ (d0 + 1 = d + 1 ∧ 256 * p0 + j = 256 * p + i) := by
  constructor
  · rintro ⟨h1, rfl⟩
    obtain ⟨rfl, rfl⟩ := h.onePath _ _ _ _ _ hb (by rw [SlotArray.node.inj h1]; exact hb0)
    exact ⟨rfl, rfl⟩
  · rintro ⟨h1, h2⟩
    obtain rfl : d = d0 := by omega
    obtain ⟨rfl, rfl⟩ : p = p0 ∧ i = j := by omega
    rw [hb0] at hb
    exact ⟨by rw [Option.some.inj hb], rfl⟩

theorem Table.root16_openChild_node (t : Table) (n b j : Nat) : (t.openChild n (.node b) j).2.root16 = t.root16 := by
  unfold Table.openChild
  split
  · rfl
  · exact Table.root16_updateBlock _ _ _

/-- A node's child opened: it is there after, empty if it was not there before. -/
theorem TrieIs.openNode {t : Table} {R : Nat → Option Nat} {E : Nat → Nat → Prop} {F : Nat → Nat → Nat → Option Leaf}
    (h : TrieIs t R E F) {n : Nat} (ha : t.Acct n) {d p b j : Nat} (hb : t.nodeFrom R d p = some b) (hj : j < 256)
    (hroom : t.childAt (.node b) j = none → t.pool.length < n)
    (hF : t.childAt (.node b) j = none → ∀ i, i < 256 → F (d + 1) (256 * p + j) i = none) :
    TrieIs (t.openChild n (.node b) j).2 R (fun d' p' => E d' p' ∨ (d' = d + 1 ∧ p' = 256 * p + j)) F ∧
      (t.openChild n (.node b) j).2.nodeFrom R (d + 1) (256 * p + j) = some (t.openChild n (.node b) j).1 ∧
      (t.openChild n (.node b) j).2.Acct n ∧
      (t.openChild n (.node b) j).2.pool.length =
        t.pool.length + (if t.childAt (.node b) j = none then 1 else 0) ∧
      (t.childAt (.node b) j = none →
        ∀ i, (t.openChild n (.node b) j).2.childAt (.node (t.openChild n (.node b) j).1) i = none) := by
  have hchild := Table.nodeFrom_child hb hj
  unfold Table.openChild
  cases hc : t.childAt (.node b) j with
  | some m =>
    rw [hc] at hchild
    refine ⟨h.congr fun d' p' => ⟨.inl, ?_⟩, hchild, ha, by simp, fun h1 => by cases h1⟩
    rintro (h1 | ⟨rfl, rfl⟩)
    · exact h1
    · exact (h.exist _ _).1 (by rw [hchild]; rfl)
  | none =>
    rw [hc] at hchild
    obtain ⟨h1, h2, h3, h4, h5⟩ := h.attach ha (hroom hc) (a := .node b) (j := j) (dt := d + 1) (pt := 256 * p + j)
      ((h.reached b).2 ⟨_, _, hb⟩) hj R (fun p => by simp) (h.hpos hb hj)
      (by
        intro d' hd
        obtain rfl : d' = d := by omega
        rw [show (256 * p + j) / 256 = p by omega, hb]
        simp)
      hchild (hF hc)
    exact ⟨h1, h2, h3, by simpa using h4, fun _ => h5⟩

/-- The path of a prefix opened below a node on it. -/
theorem TrieIs.openPath {w n : Nat} {R : Nat → Option Nat} {F : Nat → Nat → Nat → Option Leaf} {N : Nat}
    (c steps : Nat) : ∀ {t : Table} {E : Nat → Nat → Prop} (d b : Nat), TrieIs t R E F → t.Acct n →
      t.nodeFrom R d (path w N (c + d)) = some b → 8 * (c + d + steps) ≤ w →
      t.pool.length + t.missing w N steps (c + d) b ≤ n →
      (∀ d', d < d' → d' ≤ d + steps → ¬E d' (path w N (c + d')) → ∀ i, i < 256 → F d' (path w N (c + d')) i = none) →
      TrieIs (Table.openPath n w N steps (c + d) b t).2 R
          (fun d' p' => E d' p' ∨ (d < d' ∧ d' ≤ d + steps ∧ p' = path w N (c + d'))) F ∧
        (Table.openPath n w N steps (c + d) b t).2.nodeFrom R (d + steps) (path w N (c + (d + steps))) =
          some (Table.openPath n w N steps (c + d) b t).1 ∧
        (Table.openPath n w N steps (c + d) b t).2.Acct n ∧
        (Table.openPath n w N steps (c + d) b t).2.pool.length =
          t.pool.length + t.missing w N steps (c + d) b ∧
        (Table.openPath n w N steps (c + d) b t).2.root16 = t.root16 := by
  induction steps with
  | zero =>
    intro t E d b h ha hb _ _ _
    refine ⟨h.congr fun d' p' => ⟨.inl, ?_⟩, hb, ha, rfl, rfl⟩
    rintro (h1 | ⟨h1, h2, -⟩)
    · exact h1
    · omega
  | succ steps ih =>
    intro t E d b h ha hb hw hroom hF
    have hlt : byte w N (c + d) < 256 := byte_lt (by omega)
    have hps : 256 * path w N (c + d) + byte w N (c + d) = path w N (c + (d + 1)) := (path_succ (by omega)).symm
    have hmiss : t.missing w N (steps + 1) (c + d) b = match t.childAt (.node b) (byte w N (c + d)) with
      | none => steps + 1
      | some m => t.missing w N steps (c + d + 1) m := rfl
    obtain ⟨h1, h2, h3, h4, h5⟩ := h.openNode ha (n := n) hb hlt
      (by intro hc; rw [hmiss, hc] at hroom; simp only at hroom; omega)
      (by
        intro hc i hi
        rw [hps]
        refine hF (d + 1) (by omega) (by omega) ?_ i hi
        rw [← h.exist, ← hps, Table.nodeFrom_child hb hlt, hc]; simp)
    have hmiss2 : (t.openChild n (.node b) (byte w N (c + d))).2.pool.length +
        (t.openChild n (.node b) (byte w N (c + d))).2.missing w N steps (c + d + 1)
          (t.openChild n (.node b) (byte w N (c + d))).1 = t.pool.length + t.missing w N (steps + 1) (c + d) b := by
      rw [h4, hmiss]
      cases hc : t.childAt (.node b) (byte w N (c + d)) with
      | none => rw [Table.missing_of_empty w N (h5 hc)]; simp only [if_true]; omega
      | some m =>
        have e : t.openChild n (.node b) (byte w N (c + d)) = (m, t) := by unfold Table.openChild; rw [hc]
        rw [e]; simp
    rw [hps] at h1 h2
    obtain ⟨i1, i2, i3, i4, i5⟩ := ih (d + 1) (t.openChild n (.node b) (byte w N (c + d))).1 h1 h3 h2 (by omega)
      (by rw [← Nat.add_assoc c d 1, hmiss2]; exact hroom)
      (by
        intro d' hd1 hd2 hne i hi
        exact hF d' (by omega) (by omega) (fun hE => hne (.inl hE)) i hi)
    have e : Table.openPath n w N (steps + 1) (c + d) b t =
        Table.openPath n w N steps (c + (d + 1)) (t.openChild n (.node b) (byte w N (c + d))).1
          (t.openChild n (.node b) (byte w N (c + d))).2 := rfl
    rw [e]
    refine ⟨i1.congr fun d' p' => ?_, ?_, i3, ?_, i5.trans (Table.root16_openChild_node _ _ _ _)⟩
    · constructor
      · rintro ((h6 | ⟨rfl, rfl⟩) | ⟨h7, h8, h9⟩)
        · exact .inl h6
        · exact .inr ⟨by omega, by omega, rfl⟩
        · exact .inr ⟨by omega, by omega, h9⟩
      · rintro (h6 | ⟨h7, h8, rfl⟩)
        · exact .inl (.inl h6)
        · by_cases h9 : d' = d + 1
          · subst h9; exact .inl (.inr ⟨rfl, rfl⟩)
          · exact .inr ⟨by omega, by omega, rfl⟩
    · rw [show d + (steps + 1) = d + 1 + steps by omega]; exact i2
    · rw [i4, ← Nat.add_assoc c d 1, hmiss2]

end Sys2Proof.Machine
end

