-- ==== Sys2Proof/Laws/TrieStore.lean ====
section
/-! SUPPORT. The trie of a prefix store (10_state.md R36, R38): its places and its leaves, and how an INSERT or a DELETE
of one prefix changes them. `c` is the level of the shallowest nodes: 0 for Stride8, 2 for the Wide16 sub-tries. -/

namespace Sys2Proof.Machine

/-- A node is at depth `d` with path `p`: the root, or where a longer stored prefix passes. -/
def NodeAt (ps : PrefixStore) (w c d p : Nat) : Prop :=
  if c + d = 0 then p = 0 else below ps w (c + d) p = true

/-- The leaf of slot `j` of the node at depth `d` with path `p`. -/
def leafAt (ps : PrefixStore) (w c d p j : Nat) : Option Leaf :=
  best ps w (levelLow (c + d)) (8 * (c + d) + 8) (slotAddress w (c + d) p j)

/-- Prefixes that fit a width. -/
def Fits (w : Nat) (q : Prefix) : Prop := q.len ≤ w ∧ q.net < 2 ^ w ∧ canon w q.net q.len = q.net

/-- A store whose prefixes fit. -/
def StoreFits (w : Nat) (ps : PrefixStore) : Prop := ∀ e ∈ ps, Fits w e.1

/-! ### Levels -/

theorem terminalLevel_le {len w : Nat} (h : len ≤ w) (hw : w % 8 = 0) (h0 : 0 < w) :
    8 * (terminalLevel len + 1) ≤ w := by
  unfold terminalLevel
  split_ifs <;> omega

theorem lt_terminalLevel {len k : Nat} : 8 * k < len ↔ k ≤ terminalLevel len ∧ 0 < len := by
  unfold terminalLevel
  split_ifs <;> omega

theorem levelLow_iff {len k : Nat} :
    (levelLow k ≤ len ∧ len < levelLow k + (8 * k + 8 + 1 - levelLow k)) ↔ k = terminalLevel len := by
  unfold levelLow terminalLevel
  split_ifs <;> omega

theorem inNodeLength_eq {len k : Nat} (h : k = terminalLevel len) :
    8 - inNodeLength len = 8 * (k + 1) - len ∧ len ≤ 8 * (k + 1) ∧ 8 * (k + 1) - len ≤ 8 := by
  subst h
  unfold inNodeLength terminalLevel
  split_ifs <;> omega

theorem below_level {ps : PrefixStore} {w k p : Nat} (hs : StoreFits w ps) (hw : w % 8 = 0)
    (h : below ps w k p = true) : 8 * (k + 1) ≤ w ∧ p < 2 ^ (8 * k) := by
  obtain ⟨e, he, h1, h2⟩ := below_iff.1 h
  obtain ⟨f1, f2, -⟩ := hs e he
  exact ⟨by omega, h2 ▸ path_lt f2 (by omega)⟩

theorem NodeAt.level {ps : PrefixStore} {w c d p : Nat} (hs : StoreFits w ps) (hw : w % 8 = 0) (h0 : 0 < w)
    (h : NodeAt ps w c d p) : 8 * (c + d + 1) ≤ w ∧ p < 2 ^ (8 * (c + d)) := by
  unfold NodeAt at h
  split_ifs at h with h1
  · rw [h1, h]; exact ⟨by omega, by simp⟩
  · exact below_level hs hw h

/-! ### Addresses of slots -/

theorem slotAddress_eq (w k p j : Nat) : slotAddress w k p j = (256 * p + j) * 2 ^ (w - 8 * (k + 1)) :=
  Nat.shiftLeft_eq _ _

theorem slotAddress_lt {w k p j : Nat} (hk : 8 * (k + 1) ≤ w) (hp : p < 2 ^ (8 * k)) (hj : j < 256) :
    slotAddress w k p j < 2 ^ w := by
  rw [slotAddress_eq]
  have e : 2 ^ w = 2 ^ (8 * (k + 1)) * 2 ^ (w - 8 * (k + 1)) := by rw [← pow_add]; congr 1; omega
  have e2 : 2 ^ (8 * (k + 1)) = 2 ^ (8 * k) * 256 := by rw [Nat.mul_add, pow_add]; norm_num
  rw [e, e2]
  exact Nat.mul_lt_mul_of_pos_right (by omega) (by positivity)

theorem path_slotAddress (w k p j : Nat) :
    path w (slotAddress w k p j) (k + 1) = 256 * p + j := by
  rw [path_eq, slotAddress_eq, Nat.mul_div_cancel _ (by positivity)]

theorem path_slotAddress_parent {w k p j : Nat} (hk : 8 * (k + 1) ≤ w) (hj : j < 256) :
    path w (slotAddress w k p j) k = p := by
  have h1 := path_slotAddress w k p j
  rw [path_succ hk] at h1
  have := byte_lt (n := slotAddress w k p j) hk
  omega

/-- The first slot a prefix fans out over in its terminal node is aligned to the number of them (41_stride8.md R161). -/
theorem byte_aligned {w k : Nat} {q : Prefix} (hq : Fits w q) (hk : 8 * (k + 1) ≤ w) (hkt : k = terminalLevel q.len) :
    byte w q.net k % 2 ^ (8 * (k + 1) - q.len) = 0 := by
  obtain ⟨-, i2, i3⟩ := inNodeLength_eq hkt
  have hal := fan_aligned hq.2.1 hq.2.2 i2 hk
  have hps := path_succ (n := q.net) hk
  rw [path_eq w q.net (k + 1)] at hps
  have h256 : 256 = 2 ^ (8 * (k + 1) - q.len) * 2 ^ (8 - (8 * (k + 1) - q.len)) := by
    rw [← pow_add, show 8 * (k + 1) - q.len + (8 - (8 * (k + 1) - q.len)) = 8 by omega]; norm_num
  rw [hps, h256, Nat.mul_assoc, Nat.mul_add_mod] at hal
  exact hal

/-- Which slots of which node a prefix fans out over (41_stride8.md R161). -/
theorem fan_cond {w k p j : Nat} {q : Prefix} (hq : Fits w q) (hk : 8 * (k + 1) ≤ w) (hp : p < 2 ^ (8 * k))
    (hj : j < 256) :
    (levelLow k ≤ q.len ∧ q.len < levelLow k + (8 * k + 8 + 1 - levelLow k) ∧
        canon w (slotAddress w k p j) q.len = q.net) ↔
      (k = terminalLevel q.len ∧ p = path w q.net k ∧ byte w q.net k ≤ j ∧
        j < byte w q.net k + 2 ^ (8 - inNodeLength q.len)) := by
  rw [← and_assoc, levelLow_iff]
  refine and_congr_right fun hkt => ?_
  obtain ⟨i1, i2, i3⟩ := inNodeLength_eq hkt
  have hi : 256 * p + j < 2 ^ (8 * (k + 1)) := by
    rw [Nat.mul_add, pow_add]; omega
  rw [slotAddress_eq, covers_iff_range hq.2.1 hq.2.2 i2 hk hi, i1]
  have hps := path_succ (n := q.net) hk
  rw [path_eq w q.net (k + 1)] at hps
  have hb := byte_lt (n := q.net) hk
  have hr := range_in_array (m := 8) (byte_aligned hq hk hkt) i3 (by simpa using hb)
  rw [hps]
  have h8 : 2 ^ 8 = 256 := by norm_num
  rw [h8] at hr
  omega

theorem fan_range {w k : Nat} {q : Prefix} (hq : Fits w q) (hk : 8 * (k + 1) ≤ w) (hkt : k = terminalLevel q.len) :
    byte w q.net k + 2 ^ (8 - inNodeLength q.len) ≤ 256 := by
  obtain ⟨i1, i2, i3⟩ := inNodeLength_eq hkt
  have hb := byte_lt (n := q.net) hk
  rw [i1]
  exact range_in_array (m := 8) (byte_aligned hq hk hkt) i3 (by simpa using hb)

/-! ### Leaves -/

/-- No node, no leaf: below the root, a slot of a place where no prefix passes has no best prefix. -/
theorem leafAt_none {ps : PrefixStore} {w c d p j : Nat} (hcd : c + d ≠ 0) (hk : 8 * (c + d + 1) ≤ w)
    (hp : p < 2 ^ (8 * (c + d))) (hj : j < 256) (h : ¬NodeAt ps w c d p) : leafAt ps w c d p j = none := by
  unfold NodeAt at h
  rw [if_neg hcd] at h
  unfold leafAt best
  by_contra hne
  obtain ⟨l, hl⟩ := Option.ne_none_iff_exists'.1 hne
  have h2 := below_of_bestSearch (k := c + d) (slotAddress_lt hk hp hj)
    (by unfold levelLow; split_ifs <;> omega) (by unfold levelLow; split_ifs <;> omega) hl
  rw [path_slotAddress_parent hk hj] at h2
  exact h h2

theorem leafAt_put {ps : PrefixStore} {w c d p j : Nat} {q : Prefix} (v : Word) (hq : Fits w q)
    (hk : 8 * (c + d + 1) ≤ w) (hp : p < 2 ^ (8 * (c + d))) (hj : j < 256) :
    leafAt (Assoc.put Prefix.before ps q v) w c d p j =
      if c + d = terminalLevel q.len ∧ p = path w q.net (c + d) ∧ byte w q.net (c + d) ≤ j ∧
          j < byte w q.net (c + d) + 2 ^ (8 - inNodeLength q.len) then
        leafWrite v q.len (leafAt ps w c d p j)
      else leafAt ps w c d p j := by
  unfold leafAt best
  rw [bestSearch_put]
  simp only [fan_cond hq hk hp hj]

theorem nodeShadow_eq {ps : PrefixStore} {w k : Nat} {len n : Nat} (hkt : k = terminalLevel len) :
    nodeShadow ps w len n = bestSearch ps w n (levelLow k) (len - levelLow k) := by
  subst hkt; rfl

theorem leafAt_erase {ps : PrefixStore} {w c d p j : Nat} {q : Prefix} (hq : Fits w q)
    (hk : 8 * (c + d + 1) ≤ w) (hp : p < 2 ^ (8 * (c + d))) (hj : j < 256) :
    leafAt (Assoc.erase ps q) w c d p j =
      if c + d = terminalLevel q.len ∧ p = path w q.net (c + d) ∧ byte w q.net (c + d) ≤ j ∧
          j < byte w q.net (c + d) + 2 ^ (8 - inNodeLength q.len) then
        leafClear q.len (nodeShadow (Assoc.erase ps q) w q.len q.net) (leafAt ps w c d p j)
      else leafAt ps w c d p j := by
  unfold leafAt best
  rw [bestSearch_erase]
  have hf := fan_cond hq hk hp hj
  by_cases h : c + d = terminalLevel q.len ∧ p = path w q.net (c + d) ∧ byte w q.net (c + d) ≤ j ∧
          j < byte w q.net (c + d) + 2 ^ (8 - inNodeLength q.len)
  · obtain ⟨h1, h2, h3⟩ := hf.2 h
    rw [if_pos h, if_pos ⟨h1, h2, h3⟩, nodeShadow_eq h.1]
    congr 1
    obtain ⟨q1, q2, q3⟩ := hq
    refine bestSearch_congr fun len l1 l2 => ?_
    exact canon_mono (slotAddress_lt hk hp hj) q2 q1 (by omega) (h3.trans q3.symm)
  · rw [if_neg h, if_neg (fun h' => h (hf.1 h'))]

/-! ### Places -/

theorem NodeAt.put {ps : PrefixStore} {w c d p : Nat} {q : Prefix} {v : Word} :
    NodeAt (Assoc.put Prefix.before ps q v) w c d p ↔
      NodeAt ps w c d p ∨ (c + d ≠ 0 ∧ 8 * (c + d) < q.len ∧ p = path w q.net (c + d)) := by
  unfold NodeAt
  split_ifs with h
  · simp [h]
  · rw [below_put]
    simp only [h, ne_eq, not_false_eq_true, true_and]
    constructor
    · rintro (h1 | ⟨h1, h2⟩)
      · exact .inl h1
      · exact .inr ⟨h1, h2.symm⟩
    · rintro (h1 | ⟨h1, h2⟩)
      · exact .inl h1
      · exact .inr ⟨h1, h2.symm⟩

theorem NodeAt.parent {ps : PrefixStore} {w c d p : Nat} (hs : StoreFits w ps) (hw : w % 8 = 0)
    (h : NodeAt ps w c (d + 1) p) : NodeAt ps w c d (p / 256) := by
  unfold NodeAt at *
  rw [if_neg (by omega)] at h
  have hl := below_level hs hw h
  have h2 := below_parent (k := c + d) h (by omega)
  split_ifs with h1
  · have := (below_level hs hw h2).2
    rw [h1] at this
    simpa using this
  · exact h2

theorem path_parent {w n k : Nat} (hk : 8 * (k + 1) ≤ w) : path w n (k + 1) / 256 = path w n k := by
  rw [path_succ hk]
  have := byte_lt (n := n) hk
  omega

/-- Along the path of one number, a node's existence gives that of every shallower one. -/
theorem NodeAt.shallower {ps : PrefixStore} {w c n : Nat} (hs : StoreFits w ps) (hw : w % 8 = 0) {d : Nat}
    (h : NodeAt ps w c d (path w n (c + d))) {d' : Nat} (hd : d' ≤ d) (h0 : 0 < w) : NodeAt ps w c d' (path w n (c + d')) := by
  induction d with
  | zero => obtain rfl : d' = 0 := by omega
            exact h
  | succ d ih =>
    by_cases e : d' = d + 1
    · rw [e]; exact h
    · have hl := (h.level hs hw h0).1
      have h2 := NodeAt.parent hs hw h
      rw [show c + (d + 1) = c + d + 1 by omega, path_parent (by omega)] at h2
      exact ih h2 (by omega)

/-- A node exists exactly where it has a leaf or a child. -/
theorem NodeAt.iff_used {ps : PrefixStore} {w c d p : Nat} (hs : StoreFits w ps) (hw : w % 8 = 0)
    (hcd : c + d ≠ 0) (hk : 8 * (c + d + 1) ≤ w) (hp : p < 2 ^ (8 * (c + d))) :
    NodeAt ps w c d p ↔ ∃ j, j < 256 ∧ (leafAt ps w c d p j ≠ none ∨ NodeAt ps w c (d + 1) (256 * p + j)) := by
  constructor
  · intro h
    unfold NodeAt at h
    rw [if_neg hcd] at h
    obtain ⟨e, he, h1, h2⟩ := below_iff.1 h
    obtain ⟨f1, f2, f3⟩ := hs e he
    have hb := byte_lt (n := e.1.net) hk
    have hps := path_succ (n := e.1.net) hk
    rw [h2] at hps
    refine ⟨byte w e.1.net (c + d), hb, ?_⟩
    by_cases h3 : 8 * (c + d + 1) < e.1.len
    · right
      unfold NodeAt
      rw [if_neg (by omega)]
      exact below_iff.2 ⟨e, he, h3, hps⟩
    · left
      unfold leafAt best
      rw [ne_eq, bestSearch_eq_none]
      intro hn
      have hkt : c + d = terminalLevel e.1.len := by unfold terminalLevel; split_ifs <;> omega
      obtain ⟨g1, g2⟩ := levelLow_iff.2 hkt
      have h4 := (fan_cond (j := byte w e.1.net (c + d)) ⟨f1, f2, f3⟩ hk hp hb).2
        ⟨hkt, h2.symm, le_rfl, by have : 0 < 2 ^ (8 - inNodeLength e.1.len) := by positivity
                                  omega⟩
      have h5 := hn _ g1 g2
      rw [h4.2.2] at h5
      have h6 := Assoc.get?_isSome_of_mem he
      rw [h5] at h6; cases h6
  · rintro ⟨j, hj, h | h⟩
    · by_contra hne
      exact h (leafAt_none hcd hk hp hj hne)
    · have := NodeAt.parent hs hw h
      rwa [show (256 * p + j) / 256 = p by omega] at this

end Sys2Proof.Machine
end

