-- ==== Sys2Proof/Laws/TrieOps.lean ====
section
/-! SUPPORT. What the walks of INSERT, DELETE and LOOKUP do to the trie of a prefix store. -/

namespace Sys2Proof.Machine

/-- The trie is that of the store `ps`. -/
abbrev TrieFor (t : Table) (R : Nat → Option Nat) (ps : PrefixStore) (w c : Nat) : Prop :=
  TrieIs t R (NodeAt ps w c) (leafAt ps w c)

/-- A change of the leaves that `F` and `F'` agree with wherever there is a node is no change. -/
theorem TrieIs.congrLeaf {t : Table} {R : Nat → Option Nat} {E : Nat → Nat → Prop}
    {F F' : Nat → Nat → Nat → Option Leaf} (h : TrieIs t R E F)
    (hf : ∀ d p j, E d p → j < 256 → F d p j = F' d p j) : TrieIs t R E F' :=
  ⟨h.exist, h.reached, h.onePath, h.cnt, fun d p b hb j hj =>
    (h.leaf d p b hb j hj).trans (hf d p j ((h.exist d p).1 (by rw [hb]; rfl)) hj)⟩

/-! ### INSERT -/

/-- The nodes of a store and, down to depth `s`, those on the path of `N`. -/
def NodeOr (ps : PrefixStore) (w c N s d p : Nat) : Prop := NodeAt ps w c d p ∨ (d ≤ s ∧ p = path w N (c + d))

/-- Opening the path of a prefix and fanning it out gives the trie of the store with the prefix (41_stride8.md R163,
43_wide16.md R224). -/
theorem TrieIs.insert {t : Table} {R : Nat → Option Nat} {ps : PrefixStore} {w c n : Nat} {q : Prefix}
    (h : TrieIs t R (NodeOr ps w c q.net 0) (leafAt ps w c))
    (ha : t.Acct n) (hs : StoreFits w ps) (hw : w % 8 = 0) (h0 : 0 < w) (v : Word) (hq : Fits w q)
    {b0 : Nat} (hb0 : R (path w q.net c) = some b0) (hc : c ≤ terminalLevel q.len)
    (hroom : t.pool.length + t.missing w q.net (terminalLevel q.len - c) c b0 ≤ n) {b : Nat} {t1 : Table}
    (ht1 : Table.openPath n w q.net (terminalLevel q.len - c) c b0 t = (b, t1)) :
    TrieFor (t1.fanWrite (.node b) (byte w q.net (terminalLevel q.len)) (2 ^ (8 - inNodeLength q.len)) v q.len) R
        (Assoc.put Prefix.before ps q v) w c ∧
      (t1.fanWrite (.node b) (byte w q.net (terminalLevel q.len)) (2 ^ (8 - inNodeLength q.len)) v q.len).Acct n ∧
      (t1.fanWrite (.node b) (byte w q.net (terminalLevel q.len)) (2 ^ (8 - inNodeLength q.len)) v q.len).pool.length =
        t.pool.length + t.missing w q.net (terminalLevel q.len - c) c b0 ∧
      (t1.fanWrite (.node b) (byte w q.net (terminalLevel q.len)) (2 ^ (8 - inNodeLength q.len)) v q.len).root16 =
        t.root16 := by
  have hkt := terminalLevel_le hq.1 hw h0
  have hlev : c + (0 + (terminalLevel q.len - c)) = terminalLevel q.len := by omega
  obtain ⟨o1, o2, o3, o4, o5⟩ := TrieIs.openPath (w := w) (N := q.net) c (terminalLevel q.len - c) 0 b0 h ha hb0
    (by omega) hroom (by
      intro d' h1 h2 hE i hi
      exact leafAt_none (by omega) (by omega) (path_lt hq.2.1 (by omega)) hi (fun h' => hE (.inl h')))
  rw [show c + 0 = c by omega, ht1] at o1 o2 o3 o4 o5
  simp only at o1 o2 o3 o4 o5
  rw [hlev] at o2
  have o1' : TrieIs t1 R (NodeAt (Assoc.put Prefix.before ps q v) w c) (leafAt ps w c) := by
    refine o1.congr fun d p => ?_
    rw [NodeAt.put, lt_terminalLevel]
    unfold NodeOr
    have hpos : 0 < terminalLevel q.len → 0 < q.len := by unfold terminalLevel; split_ifs <;> omega
    constructor
    · rintro ((h1 | ⟨h1, h2⟩) | ⟨h1, h2, h3⟩)
      · exact .inl h1
      · obtain rfl : d = 0 := by omega
        by_cases hc0 : c = 0
        · subst hc0
          left
          unfold NodeAt
          rw [if_pos rfl, h2, Nat.add_zero, path_zero hq.2.1]
        · exact .inr ⟨by omega, ⟨by omega, hpos (by omega)⟩, h2⟩
      · exact .inr ⟨by omega, ⟨by omega, hpos (by omega)⟩, h3⟩
    · rintro (h1 | ⟨h1, ⟨h2, -⟩, h4⟩)
      · exact .inl (.inl h1)
      · by_cases hd : d = 0
        · exact .inl (.inr ⟨by omega, h4⟩)
        · exact .inr ⟨by omega, by omega, h4⟩
  have hmap := o1'.mapNode o3.pool.arraysWf o2 (byte w q.net (terminalLevel q.len)) (2 ^ (8 - inNodeLength q.len))
    (Slot.fanWrite v q.len) (leafWrite v q.len) (F' := leafAt (Assoc.put Prefix.before ps q v) w c)
    (Slot.child_fanWrite _ _) (Slot.leaf_fanWrite _ _)
    (by
      intro d p j hE hj
      have hsput : StoreFits w (Assoc.put Prefix.before ps q v) := by
        intro e he
        rcases Assoc.mem_put he with rfl | he
        · exact hq
        · exact hs e he
      obtain ⟨l1, l2⟩ := hE.level hsput hw h0
      rw [leafAt_put v hq l1 l2 hj]
      congr 1
      refine propext ⟨?_, ?_⟩
      · rintro ⟨h1, h2, h3, h4⟩
        rw [← h1]
        exact ⟨by omega, h2, h3, h4⟩
      · rintro ⟨h1, h2, h3, h4⟩
        have e : c + d = terminalLevel q.len := by omega
        rw [e]; exact ⟨rfl, h2, h3, h4⟩)
  refine ⟨hmap.1, o3.mapSlots _ ?_ _, ?_, ?_⟩
  · exact fan_range hq hkt rfl
  · exact (Table.length_mapSlots o3 _ _ _ _).trans o4
  · exact (Table.root16_updateBlock _ _ _).trans o5

/-! ### DELETE -/

/-- The walk of a delete ends in the node of the prefix's path. -/
theorem TrieIs.walkDown {t : Table} {R : Nat → Option Nat} {ps : PrefixStore} {w c : Nat} {F : Nat → Nat → Nat → Option Leaf}
    (h : TrieIs t R (NodeAt ps w c) F) {N : Nat} (steps : Nat) : ∀ (d b : Nat), t.nodeFrom R d (path w N (c + d)) = some b →
      8 * (c + d + steps) ≤ w → (∀ d', d' ≤ d + steps → NodeAt ps w c d' (path w N (c + d'))) →
      t.nodeFrom R (d + steps) (path w N (c + (d + steps))) = some (t.walkDown w N steps (c + d) b) ∧
      t.trail w N steps (c + d) b = ((List.range' d steps).reverse.map fun i =>
        (SlotArray.node ((t.nodeFrom R i (path w N (c + i))).getD 0), byte w N (c + i),
          (t.nodeFrom R (i + 1) (path w N (c + (i + 1)))).getD 0)) := by
  induction steps with
  | zero => intro d b hb _ _; exact ⟨hb, rfl⟩
  | succ steps ih =>
    intro d b hb hw hE
    have hps := path_succ (w := w) (n := N) (k := c + d) (by omega)
    have hchild := Table.nodeFrom_child hb (byte_lt (w := w) (n := N) (k := c + d) (by omega))
    rw [← hps] at hchild
    obtain ⟨m, hm⟩ := Option.isSome_iff_exists.1 ((h.exist (d + 1) _).2 (hE (d + 1) (by omega)))
    rw [← Nat.add_assoc] at hm
    have hptr : t.ptrAt (.node b) (byte w N (c + d)) = m := by
      unfold Table.ptrAt; rw [← hchild, hm]; rfl
    obtain ⟨i1, i2⟩ := ih (d + 1) m (by rw [← Nat.add_assoc]; exact hm) (by omega) (fun d' hd => hE d' (by omega))
    constructor
    · rw [show d + (steps + 1) = d + 1 + steps by omega, i1]
      show _ = some (t.walkDown w N steps (c + d + 1) (t.ptrAt (.node b) (byte w N (c + d))))
      rw [hptr]; rfl
    · show t.trail w N steps (c + d + 1) (t.ptrAt (.node b) (byte w N (c + d))) ++ _ = _
      rw [hptr, show c + d + 1 = c + (d + 1) by omega, i2, List.range'_succ, List.reverse_cons, List.map_append]
      simp only [List.map_cons, List.map_nil]
      rw [hb, show c + (d + 1) = c + d + 1 by omega, hm]; rfl

/-- A node is vacant when no slot of it has a leaf and none a child. -/
theorem TrieIs.vacant_iff {t : Table} {R : Nat → Option Nat} {E : Nat → Nat → Prop}
    {F : Nat → Nat → Nat → Option Leaf} (h : TrieIs t R E F) {n : Nat} (ha : t.Acct n) {d p b : Nat}
    (hb : t.nodeFrom R d p = some b) :
    ((t.block b).slots.vacant = true ↔ ∀ i, i < 256 → t.slot (.node b) i = Slot.empty) ∧
    ((t.block b).slots.vacant = true ↔ ∀ j, j < 256 → F d p j = none ∧ ¬E (d + 1) (256 * p + j)) := by
  have h1 : (t.block b).slots.vacant = true ↔ ∀ i, i < 256 → t.slot (.node b) i = Slot.empty := by
    refine (Runs.vacant_iff (ha.pool.arraysWf (.node b))).trans ?_
    refine ⟨fun h i _ => h i, fun h i => ?_⟩
    by_cases hi : i < 256
    · exact h i hi
    · exact ha.pool.slot_outside b (by unfold nodeSlots; omega)
  refine ⟨h1, h1.trans (forall₂_congr fun j hj => ?_)⟩
  rw [← h.leaf d p b hb j hj, ← h.exist, Table.nodeFrom_child hb hj, Table.childAt]
  cases hsl : t.slot (.node b) j with
  | mk l ch => cases l <;> cases ch <;> simp [Slot.empty]

/-- Pruning below the shallowest node: either it goes on with the rest of the trail and only the shallowest node of the
path may be in excess, or it has stopped with the trie of the store. -/
theorem TrieIs.prune {R : Nat → Option Nat} {ps : PrefixStore} {w c n N : Nat} {F : Nat → Nat → Nat → Option Leaf}
    (hs : StoreFits w ps) (hw : w % 8 = 0) (h0 : 0 < w) (hN : N < 2 ^ w)
    (hF : ∀ d p j, 0 < c + d → 8 * (c + d + 1) ≤ w → p < 2 ^ (8 * (c + d)) → F d p j = leafAt ps w c d p j)
    (ν : Nat → Nat) (rest : List (SlotArray × Nat × Nat)) (s : Nat) :
    ∀ {t : Table}, TrieIs t R (NodeOr ps w c N s) F → t.Acct n → 8 * (c + s + 1) ≤ w →
      (∀ d, d ≤ s → t.nodeFrom R d (path w N (c + d)) = some (ν d)) →
      (∃ t', Table.prune (((List.range s).reverse.map fun i => (SlotArray.node (ν i), byte w N (c + i), ν (i + 1))) ++ rest) t =
          Table.prune rest t' ∧ TrieIs t' R (NodeOr ps w c N 0) F ∧ t'.Acct n ∧ t'.root16 = t.root16 ∧
          t'.nodeFrom R 0 (path w N c) = some (ν 0)) ∨
        ∃ t', Table.prune (((List.range s).reverse.map fun i => (SlotArray.node (ν i), byte w N (c + i), ν (i + 1))) ++ rest) t =
          t' ∧ TrieIs t' R (NodeAt ps w c) F ∧ t'.Acct n ∧ t'.root16 = t.root16 := by
  induction s with
  | zero =>
    intro t h ha _ hν
    exact .inl ⟨t, rfl, h, ha, rfl, hν 0 le_rfl⟩
  | succ s ih =>
    intro t h ha hl hν
    rw [List.range_succ, List.reverse_append, List.reverse_singleton, List.map_append, List.append_assoc]
    simp only [List.map_cons, List.map_nil, List.cons_append, List.nil_append, Table.prune]
    have hm := hν (s + 1) le_rfl
    have hpar := hν s (by omega)
    have hlev : 8 * (c + (s + 1) + 1) ≤ w := hl
    have hplt : path w N (c + (s + 1)) < 2 ^ (8 * (c + (s + 1))) := path_lt hN (by omega)
    have hblt : byte w N (c + s) < 256 := byte_lt (by omega)
    have hps : path w N (c + (s + 1)) = 256 * path w N (c + s) + byte w N (c + s) := path_succ (k := c + s) (by omega)
    obtain ⟨hv1, hv2⟩ := h.vacant_iff ha hm
    have hused : (t.block (ν (s + 1))).slots.vacant = true ↔ ¬NodeAt ps w c (s + 1) (path w N (c + (s + 1))) := by
      rw [hv2, NodeAt.iff_used hs hw (by omega) hlev hplt]
      push Not
      refine forall₂_congr fun j hj => and_congr ?_ ?_
      · rw [hF _ _ _ (by omega) hlev hplt]
      · unfold NodeOr
        constructor
        · intro h1 h2; exact h1 (.inl h2)
        · rintro h1 (h2 | ⟨h2, -⟩)
          · exact h1 h2
          · omega
    split_ifs with hvac
    · have hne : SlotArray.node (ν s) ≠ .node (ν (s + 1)) := by
        intro he
        have := h.onePath _ _ _ _ _ hpar (by rw [SlotArray.node.inj he]; exact hm)
        omega
      obtain ⟨g1, g2, g3⟩ := h.detach ha hm (hv1.1 hvac) (a := .node (ν s)) (j := byte w N (c + s))
        ((h.reached _).2 ⟨_, _, hpar⟩) hblt hne R (fun p => by simp)
        (by
          have := h.hpos hpar hblt
          rw [← hps] at this
          exact this)
      have hnot := hused.1 hvac
      have g1' : TrieIs ((t.freeBlock (ν (s + 1))).setChild (.node (ν s)) (byte w N (c + s)) none) R (NodeOr ps w c N s) F := by
        refine g1.congr fun d p => ?_
        unfold NodeOr
        constructor
        · rintro ⟨h1 | ⟨h1, h2⟩, h3⟩
          · exact .inl h1
          · refine .inr ⟨?_, h2⟩
            by_contra hd
            obtain rfl : d = s + 1 := by omega
            exact h3 ⟨rfl, h2⟩
        · rintro (h1 | ⟨h1, h2⟩)
          · refine ⟨.inl h1, ?_⟩
            rintro ⟨rfl, rfl⟩
            exact hnot h1
          · exact ⟨.inr ⟨by omega, h2⟩, by omega⟩
      have hroot : ((t.freeBlock (ν (s + 1))).setChild (.node (ν s)) (byte w N (c + s)) none).root16 = t.root16 :=
        Table.root16_updateBlock _ _ _
      have := ih g1' g2 (by omega) (by
        intro d hd
        rw [g3, if_neg (by omega)]
        exact hν d (by omega))
      rcases this with ⟨t', e1, e2, e3, e4, e5⟩ | ⟨t', e1, e2, e3, e4⟩
      · exact .inl ⟨t', e1, e2, e3, e4.trans hroot, e5⟩
      · exact .inr ⟨t', e1, e2, e3, e4.trans hroot⟩
    · right
      have hat : NodeAt ps w c (s + 1) (path w N (c + (s + 1))) := by
        by_contra hn; exact hvac (hused.2 hn)
      refine ⟨t, rfl, h.congr fun d p => ⟨?_, .inl⟩, ha, rfl⟩
      rintro (h1 | ⟨h1, rfl⟩)
      · exact h1
      · exact NodeAt.shallower hs hw hat h1 h0

/-- The leaves after the deleted prefix is cleared from its terminal node. -/
theorem TrieIs.clear {t : Table} {R : Nat → Option Nat} {ps : PrefixStore} {w c n : Nat} (h : TrieFor t R ps w c)
    (ha : t.Acct n) (hs : StoreFits w ps) (hw : w % 8 = 0) (h0 : 0 < w) {q : Prefix} (hq : Fits w q) {b : Nat}
    (hc : c ≤ terminalLevel q.len)
    (hb : t.nodeFrom R (terminalLevel q.len - c) (path w q.net (terminalLevel q.len)) = some b) :
    TrieIs (t.fanClear (.node b) (byte w q.net (terminalLevel q.len)) (2 ^ (8 - inNodeLength q.len)) q.len
        (nodeShadow (Assoc.erase ps q) w q.len q.net)) R (NodeAt ps w c) (leafAt (Assoc.erase ps q) w c) ∧
      (t.fanClear (.node b) (byte w q.net (terminalLevel q.len)) (2 ^ (8 - inNodeLength q.len)) q.len
        (nodeShadow (Assoc.erase ps q) w q.len q.net)).Acct n ∧
      (t.fanClear (.node b) (byte w q.net (terminalLevel q.len)) (2 ^ (8 - inNodeLength q.len)) q.len
        (nodeShadow (Assoc.erase ps q) w q.len q.net)).root16 = t.root16 ∧
      ∀ d p, (t.fanClear (.node b) (byte w q.net (terminalLevel q.len)) (2 ^ (8 - inNodeLength q.len)) q.len
        (nodeShadow (Assoc.erase ps q) w q.len q.net)).nodeFrom R d p = t.nodeFrom R d p := by
  have hkt := terminalLevel_le hq.1 hw h0
  have hmap := h.mapNode ha.pool.arraysWf hb (byte w q.net (terminalLevel q.len)) (2 ^ (8 - inNodeLength q.len))
    (Slot.fanClear q.len (nodeShadow (Assoc.erase ps q) w q.len q.net))
    (leafClear q.len (nodeShadow (Assoc.erase ps q) w q.len q.net)) (F' := leafAt (Assoc.erase ps q) w c)
    (Slot.child_fanClear _ _) (Slot.leaf_fanClear _ _)
    (by
      intro d p j hE hj
      obtain ⟨l1, l2⟩ := hE.level hs hw h0
      rw [leafAt_erase hq l1 l2 hj]
      congr 1
      refine propext ⟨?_, ?_⟩
      · rintro ⟨h1, h2, h3, h4⟩
        rw [← h1]
        exact ⟨by omega, h2, h3, h4⟩
      · rintro ⟨h1, h2, h3, h4⟩
        have e : c + d = terminalLevel q.len := by omega
        rw [e]; exact ⟨rfl, h2, h3, h4⟩)
  exact ⟨hmap.1, ha.mapSlots _ (fan_range hq hkt rfl) _, Table.root16_updateBlock _ _ _, hmap.2⟩

/-! ### LOOKUP -/

/-- A node's slot for an address answers for the lengths of its level. -/
theorem leafAt_byte {ps : PrefixStore} {w c d a : Nat} (ha : a < 2 ^ w) (hk : 8 * (c + d + 1) ≤ w) :
    leafAt ps w c d (path w a (c + d)) (byte w a (c + d)) = best ps w (levelLow (c + d)) (8 * (c + d) + 8) a := by
  have hb := byte_lt (n := a) hk
  have hp := path_lt ha (k := c + d) (by omega)
  refine bestSearch_congr fun len h1 h2 => ?_
  have hl : len ≤ 8 * (c + d + 1) := by unfold levelLow at h1 h2; split_ifs at h1 h2 <;> omega
  have hlt := slotAddress_lt (j := byte w a (c + d)) hk hp hb
  refine canon_mono hlt ha hk hl ?_
  rw [canon_eq_canon_iff hlt ha hk, ← path_eq, ← path_eq, path_slotAddress, path_succ hk]

theorem leafOr_or (d : Word) (x y : Option Leaf) : leafOr d (x.or y) = leafOr (leafOr d y) x := by
  cases x <;> rfl

/-- What a descent reads of a trie: where its nodes are, and their leaves (10_state.md R36, R38). -/
structure TrieReads (t : Table) (R : Nat → Option Nat) (ps : PrefixStore) (w c : Nat) : Prop where
  exist : ∀ d p, (t.nodeFrom R d p).isSome = true ↔ NodeAt ps w c d p
  leaf : ∀ d p b, t.nodeFrom R d p = some b → ∀ j, j < 256 → (t.slot (.node b) j).leaf = leafAt ps w c d p j

theorem TrieIs.reads {t : Table} {R : Nat → Option Nat} {ps : PrefixStore} {w c : Nat} (h : TrieFor t R ps w c) :
    TrieReads t R ps w c := ⟨h.exist, h.leaf⟩

/-- The descent finds the longest stored prefix of the lengths below the level it starts from (41_stride8.md R169). -/
theorem TrieReads.descend {t : Table} {R : Nat → Option Nat} {ps : PrefixStore} {w c : Nat} (h : TrieReads t R ps w c)
    (h0 : 0 < w) {a : Nat} (ha : a < 2 ^ w) (steps : Nat) : ∀ (d b : Nat) (found : Word),
      t.nodeFrom R d (path w a (c + d)) = some b → 8 * (c + d + steps) = w →
      t.descend w a steps (c + d) b found = leafOr found (best ps w (levelLow (c + d)) w a) := by
  induction steps with
  | zero =>
    intro d b found _ hw
    have e : levelLow (c + d) = w + 1 := by unfold levelLow; split_ifs <;> omega
    have : best ps w (levelLow (c + d)) w a = none := by
      unfold best; rw [e, Nat.sub_self]; rfl
    rw [this]; rfl
  | succ steps ih =>
    intro d b found hb hw
    have hk : 8 * (c + d + 1) ≤ w := by omega
    have hbl := byte_lt (n := a) hk
    have hleaf : (t.slot (.node b) (byte w a (c + d))).leaf = best ps w (levelLow (c + d)) (8 * (c + d) + 8) a :=
      (h.leaf _ _ _ hb _ hbl).trans (leafAt_byte ha hk)
    have hchild := Table.nodeFrom_child hb hbl
    rw [← path_succ hk] at hchild
    have hlow : levelLow (c + d + 1) = 8 * (c + d) + 9 := by unfold levelLow; split_ifs <;> omega
    have hsplit : best ps w (levelLow (c + d)) w a = (best ps w (levelLow (c + d + 1)) w a).or
        (best ps w (levelLow (c + d)) (8 * (c + d) + 8) a) := by
      unfold best
      have hle : levelLow (c + d) ≤ 8 * (c + d) + 9 := by unfold levelLow; split_ifs <;> omega
      rw [show w + 1 - levelLow (c + d) = (8 * (c + d) + 8 + 1 - levelLow (c + d)) + (w + 1 - levelLow (c + d + 1)) by
        rw [hlow]; omega, bestSearch_add, hlow,
        show levelLow (c + d) + (8 * (c + d) + 8 + 1 - levelLow (c + d)) = 8 * (c + d) + 9 by omega]
    rw [hsplit, leafOr_or, ← hleaf]
    simp only [Table.descend]
    cases hc : t.childAt (.node b) (byte w a (c + d)) with
    | none =>
      rw [hc] at hchild
      have hne : ¬NodeAt ps w c (d + 1) (path w a (c + d + 1)) := by
        rw [← h.exist, hchild]; simp
      have : best ps w (levelLow (c + d + 1)) w a = none := by
        by_contra hne2
        obtain ⟨l, hl⟩ := Option.ne_none_iff_exists'.1 hne2
        refine hne ?_
        unfold NodeAt
        rw [if_neg (by omega)]
        exact below_of_bestSearch (k := c + d + 1) ha (by omega) (by omega) hl
      rw [this]; rfl
    | some m =>
      rw [hc] at hchild
      exact ih (d + 1) m _ hchild (by omega)

end Sys2Proof.Machine
end

