-- ==== Sys2Proof/Laws/Stride8.lean ====
section
/-! SUPPORT. Stride8: the canonical layout is the trie of the store, and each procedure keeps it (41_stride8.md). -/

namespace Sys2Proof.Machine

/-! ### Tries and the rest of the table -/

theorem Table.nodeFrom_congr {t t' : Table} {R : Nat → Option Nat}
    (h : ∀ b j, t'.childAt (.node b) j = t.childAt (.node b) j) (d p : Nat) : t'.nodeFrom R d p = t.nodeFrom R d p := by
  induction d generalizing p with
  | zero => rfl
  | succ d ih =>
    rw [Table.nodeFrom_succ, Table.nodeFrom_succ, ih]
    congr 1
    funext b
    exact h b _

/-- A trie is a matter of the pool alone. -/
theorem TrieIs.of_pool {t t' : Table} {R : Nat → Option Nat} {E : Nat → Nat → Prop} {F : Nat → Nat → Nat → Option Leaf}
    (h : TrieIs t R E F) (hp : t'.pool = t.pool) : TrieIs t' R E F := by
  have hb : ∀ b, t'.block b = t.block b := fun b => by unfold Table.block; rw [hp]
  have hu : ∀ b, t'.inUse b = t.inUse b := fun b => by unfold Table.inUse; rw [hp]
  have hsl : ∀ b j, t'.slot (.node b) j = t.slot (.node b) j := fun b j => by
    show (t'.block b).slots.get j = (t.block b).slots.get j
    rw [hb]
  have hn := Table.nodeFrom_congr (t := t) (t' := t') (R := R)
    (fun b j => by unfold Table.childAt; rw [hsl])
  refine ⟨?_, ?_, ?_, ?_, ?_⟩
  · intro d p; rw [hn]; exact h.exist d p
  · intro b; rw [hu, h.reached]; simp only [hn]
  · intro d p d' p' b h1 h2; rw [hn] at h1 h2; exact h.onePath _ _ _ _ _ h1 h2
  · intro d p b h1; rw [hn] at h1; rw [hb]; exact h.cnt _ _ _ h1
  · intro d p b h1 j hj; rw [hn] at h1; rw [hsl]; exact h.leaf _ _ _ h1 j hj

theorem Table.Acct.of_pool {t t' : Table} {n : Nat} (h : t.Acct n) (hp : t'.pool = t.pool) (hd : t'.dir = t.dir)
    (hr : t'.root16 = t.root16) (hn : t'.numNodes = t.numNodes) : t'.Acct n :=
  ⟨⟨hp ▸ h.pool.sorted, hp ▸ h.pool.numbers, hp ▸ h.pool.arrays, hd ▸ h.pool.dir, hr ▸ h.pool.root16⟩,
    by rw [hn, hp]; exact h.nodes, h.limit⟩

/-- A stored prefix accounts for the nodes on its path. -/
theorem NodeAt.of_erase {ps : PrefixStore} {w c d p : Nat} {q : Prefix} {v : Word} (hq : Assoc.get? ps q = some v) :
    NodeAt ps w c d p ↔
      NodeAt (Assoc.erase ps q) w c d p ∨ (c + d ≠ 0 ∧ 8 * (c + d) < q.len ∧ p = path w q.net (c + d)) := by
  unfold NodeAt
  split_ifs with h
  · simp [h]
  · rw [below_erase, below_iff]
    simp only [h, ne_eq, not_false_eq_true, true_and]
    constructor
    · rintro ⟨e, he, h1, h2⟩
      by_cases heq : e.1 = q
      · rw [heq] at h1 h2
        exact .inr ⟨h1, h2.symm⟩
      · exact .inl ⟨e, he, heq, h1, h2⟩
    · rintro (⟨e, he, -, h1, h2⟩ | ⟨h1, h2⟩)
      · exact ⟨e, he, h1, h2⟩
      · exact ⟨(q, v), Assoc.mem_of_get? hq, h1, h2.symm⟩

/-- The nodes of a store are those without the prefix, and those on its path down to its terminal level. -/
theorem NodeAt.nodeOr_erase {ps : PrefixStore} {w c : Nat} {q : Prefix} {v : Word} (hq : Assoc.get? ps q = some v)
    (hf : Fits w q) (hc : c ≤ terminalLevel q.len) (d p : Nat) :
    NodeAt ps w c d p ↔ NodeOr (Assoc.erase ps q) w c q.net (terminalLevel q.len - c) d p := by
  rw [NodeAt.of_erase hq, lt_terminalLevel]
  unfold NodeOr
  have hpos : 0 < terminalLevel q.len → 0 < q.len := by unfold terminalLevel; split_ifs <;> omega
  constructor
  · rintro (h1 | ⟨h1, h2, h3⟩)
    · exact .inl h1
    · exact .inr ⟨by omega, h3⟩
  · rintro (h1 | ⟨h1, h2⟩)
    · exact .inl h1
    · by_cases hcd : c + d = 0
      · left
        unfold NodeAt
        rw [if_pos hcd, h2, hcd, path_zero hf.2.1]
      · exact .inr ⟨hcd, ⟨by omega, hpos (by omega)⟩, h2⟩

theorem StoreFits.put {w : Nat} {ps : PrefixStore} (hs : StoreFits w ps) {q : Prefix} (hq : Fits w q) (v : Word) :
    StoreFits w (Assoc.put Prefix.before ps q v) := fun e he => by
  rcases Assoc.mem_put he with rfl | he
  · exact hq
  · exact hs e he

theorem StoreFits.erase {w : Nat} {ps : PrefixStore} (hs : StoreFits w ps) (q : Prefix) :
    StoreFits w (Assoc.erase ps q) := fun e he => hs e (Assoc.mem_erase.1 he).1

/-! ### The canonical layout -/

theorem Table.trieRoot_zero (t : Table) : t.trieRoot 0 = some t.rootb := rfl

/-- 10_state.md R35 and R36 together say that the table is the trie of its store. -/
theorem Table.stride8_trie {t : Table} (ha : t.algo = .stride8) :
    (t.Tree ∧ t.Stride8Canonical) ↔ TrieFor t t.trieRoot t.prefixes t.width 0 := by
  have hblk : ∀ k p, t.blockAt k p = t.nodeFrom t.trieRoot k p := fun k p => by unfold Table.blockAt; rw [ha]
  have hat : ∀ k p, NodeAt t.prefixes t.width 0 k p ↔
      (if k = 0 then decide (p = 0) else below t.prefixes t.width k p) = true := fun k p => by
    unfold NodeAt
    rw [Nat.zero_add]
    split_ifs <;> simp
  constructor
  · rintro ⟨⟨h1, h2⟩, ⟨h3, h4⟩⟩
    simp only [hblk] at h1 h2 h3
    refine ⟨?_, h1, h2, ?_, ?_⟩
    · intro d p; rw [hat, h3]
    · intro d p b hb; exact (h4 d p b ((hblk _ _).trans hb)).1
    · intro d p b hb j hj
      have := ((h4 d p b ((hblk _ _).trans hb)).2 j hj).1
      unfold leafAt
      rw [Nat.zero_add]; exact this
  · intro h
    refine ⟨⟨?_, ?_⟩, ?_, ?_⟩
    · simp only [hblk]; exact h.reached
    · simp only [hblk]; exact h.onePath
    · intro k p
      rw [hblk, Bool.eq_iff_iff, ← hat]
      exact h.exist k p
    · intro k p b hb
      rw [hblk] at hb
      refine ⟨h.cnt _ _ _ hb, fun j hj => ⟨?_, ?_⟩⟩
      · have := h.leaf _ _ _ hb j hj
        unfold leafAt at this
        rwa [Nat.zero_add] at this
      · have h1 := Table.nodeFrom_child hb hj
        unfold Table.childAt at h1
        rw [← h1, Bool.eq_iff_iff, h.exist]
        unfold NodeAt
        rw [Nat.zero_add, if_neg (by omega)]

/-- The widths of the families. -/
theorem width_facts (f : Family) : Family.width f % 8 = 0 ∧ 0 < Family.width f := by cases f <;> decide

/-! ### The procedures -/

theorem Table.s8Insert_ok {t : Table} {ps : PrefixStore} {w n : Nat} (h : TrieFor t t.trieRoot ps w 0)
    (ha : t.Acct n) (hs : StoreFits w ps) (hw : w % 8 = 0) (h0 : 0 < w) {q : Prefix} (v : Word) (hq : Fits w q)
    (hroom : t.pool.length + t.s8Need w q.net q.len ≤ n) :
    TrieFor (t.s8Insert n w q.net q.len v) t.trieRoot (Assoc.put Prefix.before ps q v) w 0 ∧
      (t.s8Insert n w q.net q.len v).Acct n ∧
      (t.s8Insert n w q.net q.len v).pool.length = t.pool.length + t.s8Need w q.net q.len := by
  have hp0 : path w q.net 0 = 0 := path_zero hq.2.1
  have h' : TrieIs t t.trieRoot (NodeOr ps w 0 q.net 0) (leafAt ps w 0) := by
    refine h.congr fun d p => ⟨.inl, ?_⟩
    rintro (h1 | ⟨h1, h2⟩)
    · exact h1
    · obtain rfl : d = 0 := by omega
      unfold NodeAt
      rw [if_pos rfl, h2, Nat.add_zero, hp0]
  obtain ⟨g1, g2, g3, -⟩ := h'.insert ha hs hw h0 v hq (b0 := t.rootb) (by rw [hp0]; rfl) (Nat.zero_le _)
    (by rw [Nat.sub_zero]; exact hroom) (b := _) (t1 := _) rfl
  exact ⟨g1, g2, g3⟩

theorem Table.s8Delete_ok {t : Table} {ps : PrefixStore} {w n : Nat} (h : TrieFor t t.trieRoot ps w 0)
    (ha : t.Acct n) (hs : StoreFits w ps) (hw : w % 8 = 0) (h0 : 0 < w) {q : Prefix} {v : Word} (hq : Fits w q)
    (hmem : Assoc.get? ps q = some v) (hps : t.prefixes = Assoc.erase ps q) :
    TrieFor (t.s8Delete w q.net q.len) t.trieRoot (Assoc.erase ps q) w 0 ∧ (t.s8Delete w q.net q.len).Acct n := by
  have hkt := terminalLevel_le hq.1 hw h0
  have hp0 : path w q.net 0 = 0 := path_zero hq.2.1
  have hpath : ∀ d', d' ≤ 0 + terminalLevel q.len → NodeAt ps w 0 d' (path w q.net (0 + d')) := by
    intro d' hd
    rw [NodeAt.nodeOr_erase hmem hq (Nat.zero_le _)]
    exact .inr ⟨by omega, rfl⟩
  obtain ⟨w1, w2⟩ := h.walkDown (N := q.net) (terminalLevel q.len) 0 t.rootb (by rw [hp0]; rfl) (by omega) hpath
  simp only [Nat.zero_add] at w1 w2
  obtain ⟨c1, c2, -, c4⟩ := h.clear ha hs hw h0 hq (b := t.walkDown w q.net (terminalLevel q.len) 0 t.rootb)
    (Nat.zero_le _) (by rw [Nat.sub_zero]; exact w1)
  have c1' := c1.congr (NodeAt.nodeOr_erase hmem hq (Nat.zero_le _))
  unfold Table.s8Delete
  rw [hps, w2]
  have hpr := TrieIs.prune (hs.erase q) hw h0 hq.2.1 (fun _ _ _ _ _ _ => rfl)
    (fun i => (t.nodeFrom t.trieRoot i (path w q.net i)).getD 0) [] _ c1' c2 (by omega)
    (by
      intro d hd
      rw [c4]
      obtain ⟨m, hm⟩ := Option.isSome_iff_exists.1 ((h.exist d _).2 (hpath d (by omega)))
      simp only [Nat.zero_add] at hm ⊢
      rw [hm]; rfl)
  simp only [Nat.sub_zero, List.append_nil, Nat.zero_add, List.range_eq_range'] at hpr ⊢
  rcases hpr with ⟨t', e1, e2, e3, -, -⟩ | ⟨t', e1, e2, e3, -⟩
  · rw [e1]
    refine ⟨e2.congr fun d p => ⟨?_, .inl⟩, e3⟩
    rintro (h1 | ⟨h1, h2⟩)
    · exact h1
    · obtain rfl : d = 0 := by omega
      unfold NodeAt
      rw [if_pos rfl, h2, Nat.add_zero, hp0]
  · rw [e1]; exact ⟨e2, e3⟩

/-- 10_state.md R36 gives what a Stride8 lookup reads. -/
theorem Table.Stride8Canonical.reads {t : Table} (ha : t.algo = .stride8) (h : t.Stride8Canonical) :
    TrieReads t t.trieRoot t.prefixes t.width 0 := by
  have hblk : ∀ k p, t.blockAt k p = t.nodeFrom t.trieRoot k p := fun k p => by unfold Table.blockAt; rw [ha]
  refine ⟨fun d p => ?_, fun d p b hb j hj => ?_⟩
  · rw [← hblk, h.exist]
    unfold NodeAt
    rw [Nat.zero_add]
    split_ifs <;> simp
  · have := ((h.filled d p b ((hblk _ _).trans hb)).2 j hj).1
    unfold leafAt
    rw [Nat.zero_add]
    exact this

/-- `s8_lookup(A)` is `LPM(P, A)` (40_commands_common.md R141). -/
theorem Table.s8Lookup_eq {t : Table} {ps : PrefixStore} {w : Nat} (h : TrieReads t t.trieRoot ps w 0)
    (hw : w % 8 = 0) (h0 : 0 < w) {a : Nat} (ha : a < 2 ^ w) : t.s8Lookup w a = lpm ps w a := by
  have := h.descend h0 ha (w / 8) 0 t.rootb sentinel (by rw [path_zero ha]; rfl) (by omega)
  exact this

end Sys2Proof.Machine
end

