-- ==== Sys2Proof/Laws/Wide16.lean ====
section
/-! SUPPORT. Wide16: the canonical layout is a root of slots and the sub-tries of the store, and each procedure keeps
it (43_wide16.md). -/

namespace Sys2Proof.Machine

/-- The leaves of the root are the best prefixes of length 0 to 16 (10_state.md R38). -/
def RootLeaves (t : Table) (ps : PrefixStore) : Prop :=
  ∀ r, r < 65536 → (t.slot .root16 r).leaf = best ps 128 0 16 (r <<< 112)

/-- The Wide16 layout of a store. -/
structure WideIs (t : Table) (ps : PrefixStore) : Prop where
  trie : TrieFor t t.subRoots ps 128 2
  leaves : RootLeaves t ps

/-- 10_state.md R35 and R38 together say that the table is the Wide16 layout of its store. -/
theorem Table.wide16_trie {t : Table} (ha : t.algo = .wide16) (hf : t.width = 128) :
    (t.Tree ∧ t.Wide16Canonical) ↔ WideIs t t.prefixes := by
  have hblk : ∀ k p, t.blockAt k p = if 2 ≤ k then t.nodeFrom t.subRoots (k - 2) p else none := fun k p => by
    unfold Table.blockAt; rw [ha]
  have hblk2 : ∀ d p, t.blockAt (2 + d) p = t.nodeFrom t.subRoots d p := fun d p => by
    rw [hblk, if_pos (by omega), show 2 + d - 2 = d by omega]
  have hsome : ∀ {k p b}, t.blockAt k p = some b → ∃ d, k = 2 + d := by
    intro k p b h
    rw [hblk] at h
    split_ifs at h with h1
    exact ⟨k - 2, by omega⟩
  have hat : ∀ d p, NodeAt t.prefixes 128 2 d p ↔ below t.prefixes 128 (2 + d) p = true := fun d p => by
    unfold NodeAt; rw [if_neg (by omega)]
  constructor
  · rintro ⟨⟨h1, h2⟩, ⟨h3, h4, h5⟩⟩
    refine ⟨⟨?_, ?_, ?_, ?_, ?_⟩, fun r hr => (h3 r hr).1⟩
    · intro d p; rw [hat, ← h4 (2 + d) p (by omega), hblk2]
    · intro b
      rw [h1]
      constructor
      · rintro ⟨k, p, h⟩
        obtain ⟨d, rfl⟩ := hsome h
        exact ⟨d, p, by rw [← hblk2]; exact h⟩
      · rintro ⟨d, p, h⟩; exact ⟨2 + d, p, by rw [hblk2]; exact h⟩
    · intro d p d' p' b hb hb'
      have := h2 (2 + d) p (2 + d') p' b (by rw [hblk2]; exact hb) (by rw [hblk2]; exact hb')
      exact ⟨by omega, this.2⟩
    · intro d p b hb; exact (h5 (2 + d) p b (by rw [hblk2]; exact hb)).1
    · intro d p b hb j hj
      have := ((h5 (2 + d) p b (by rw [hblk2]; exact hb)).2 j hj).1
      rwa [hf] at this
  · rintro ⟨h, hr⟩
    refine ⟨⟨?_, ?_⟩, ?_, ?_, ?_⟩
    · intro b
      rw [h.reached]
      constructor
      · rintro ⟨d, p, h1⟩; exact ⟨2 + d, p, by rw [hblk2]; exact h1⟩
      · rintro ⟨k, p, h1⟩
        obtain ⟨d, rfl⟩ := hsome h1
        exact ⟨d, p, by rw [← hblk2]; exact h1⟩
    · intro k p k' p' b h1 h2
      obtain ⟨d, rfl⟩ := hsome h1
      obtain ⟨d', rfl⟩ := hsome h2
      rw [hblk2] at h1 h2
      obtain ⟨rfl, rfl⟩ := h.onePath _ _ _ _ _ h1 h2
      exact ⟨rfl, rfl⟩
    · intro r hlt
      refine ⟨hr r hlt, ?_⟩
      rw [Bool.eq_iff_iff, ← hat 0]
      exact h.exist 0 r
    · intro k p hk
      obtain ⟨d, rfl⟩ : ∃ d, k = 2 + d := ⟨k - 2, by omega⟩
      rw [hblk2, Bool.eq_iff_iff, h.exist, hat]
    · intro k p b hb
      obtain ⟨d, rfl⟩ := hsome hb
      rw [hblk2] at hb
      refine ⟨h.cnt _ _ _ hb, fun j hj => ⟨?_, ?_⟩⟩
      · rw [hf]; exact h.leaf _ _ _ hb j hj
      · have h1 := Table.nodeFrom_child hb hj
        unfold Table.childAt at h1
        rw [← h1, Bool.eq_iff_iff, h.exist, hat, hf]
        rfl

/-! ### The root -/

theorem Table.subRoots_congr {t t' : Table} (h : t'.root16 = t.root16) : t'.subRoots = t.subRoots := by
  funext r
  show ((t'.root16).get r).child = ((t.root16).get r).child
  rw [h]

theorem RootLeaves.congr {t t' : Table} {ps : PrefixStore} (hl : RootLeaves t ps) (h : t'.root16 = t.root16) :
    RootLeaves t' ps := fun r hr => by
  show ((t'.root16).get r).leaf = _
  rw [h]; exact hl r hr

theorem rootIndex_eq (n : Nat) : rootIndex n = path 128 n 2 := rfl

theorem rootIndex_lt {n : Nat} (hn : n < 2 ^ 128) : rootIndex n < 65536 := by
  rw [rootIndex_eq]
  have := path_lt (w := 128) (n := n) (k := 2) hn (by omega)
  simpa using this

theorem shiftLeft_112 (r : Nat) : r <<< 112 = r * 2 ^ (128 - 16) := Nat.shiftLeft_eq _ _

theorem rootIndex_div (n : Nat) : rootIndex n = n / 2 ^ (128 - 16) := Nat.shiftRight_eq_div_pow _ _

/-- The root slots a short prefix fans out over (43_wide16.md R223). -/
theorem root_cond {q : Prefix} (hq : Fits 128 q) {r : Nat} (hr : r < 65536) :
    (0 ≤ q.len ∧ q.len < 0 + (16 + 1 - 0) ∧ canon 128 (r <<< 112) q.len = q.net) ↔
      (q.len ≤ 16 ∧ rootIndex q.net ≤ r ∧ r < rootIndex q.net + 2 ^ (16 - q.len)) := by
  rw [shiftLeft_112]
  constructor
  · rintro ⟨-, h1, h2⟩
    have hl : q.len ≤ 16 := by omega
    have := (covers_iff_range hq.2.1 hq.2.2 hl (by omega) (by simpa using hr)).1 h2
    exact ⟨hl, by rw [rootIndex_div]; exact this.1, by rw [rootIndex_div]; exact this.2⟩
  · rintro ⟨hl, h1, h2⟩
    rw [rootIndex_div] at h1 h2
    exact ⟨Nat.zero_le _, by omega,
      (covers_iff_range hq.2.1 hq.2.2 hl (by omega) (by simpa using hr)).2 ⟨h1, h2⟩⟩

theorem root_range {q : Prefix} (hq : Fits 128 q) (hl : q.len ≤ 16) :
    rootIndex q.net + 2 ^ (16 - q.len) ≤ 65536 := by
  have hal := fan_aligned hq.2.1 hq.2.2 hl (by omega : 16 ≤ 128)
  rw [← rootIndex_div] at hal
  have := range_in_array (m := 16) hal (by omega) (by simpa using rootIndex_lt hq.2.1)
  simpa using this

theorem rootLeaf_put {ps : PrefixStore} {q : Prefix} (v : Word) (hq : Fits 128 q) {r : Nat} (hr : r < 65536) :
    best (Assoc.put Prefix.before ps q v) 128 0 16 (r <<< 112) =
      if q.len ≤ 16 ∧ rootIndex q.net ≤ r ∧ r < rootIndex q.net + 2 ^ (16 - q.len) then
        leafWrite v q.len (best ps 128 0 16 (r <<< 112))
      else best ps 128 0 16 (r <<< 112) := by
  unfold best
  rw [bestSearch_put]
  simp only [root_cond hq hr]

theorem root_addr_lt {r : Nat} (hr : r < 65536) : r <<< 112 < 2 ^ 128 := by
  rw [Nat.shiftLeft_eq]
  calc r * 2 ^ 112 < 65536 * 2 ^ 112 := Nat.mul_lt_mul_of_pos_right hr (by positivity)
    _ = 2 ^ 128 := by norm_num

theorem rootLeaf_erase {ps : PrefixStore} {q : Prefix} (hq : Fits 128 q) {r : Nat} (hr : r < 65536) :
    best (Assoc.erase ps q) 128 0 16 (r <<< 112) =
      if q.len ≤ 16 ∧ rootIndex q.net ≤ r ∧ r < rootIndex q.net + 2 ^ (16 - q.len) then
        leafClear q.len (bestBelow (Assoc.erase ps q) 128 0 q.len q.net) (best ps 128 0 16 (r <<< 112))
      else best ps 128 0 16 (r <<< 112) := by
  unfold best
  rw [bestSearch_erase]
  have hf := root_cond hq hr
  by_cases h : q.len ≤ 16 ∧ rootIndex q.net ≤ r ∧ r < rootIndex q.net + 2 ^ (16 - q.len)
  · obtain ⟨h1, h2, h3⟩ := hf.2 h
    rw [if_pos h, if_pos ⟨h1, h2, h3⟩]
    refine congrArg (fun x => leafClear q.len x _) (bestSearch_congr fun len l1 l2 => ?_)
    exact canon_mono (root_addr_lt hr) hq.2.1 hq.1 (by omega) (h3.trans hq.2.2.symm)
  · rw [if_neg h, if_neg (fun h' => h (hf.1 h'))]

/-- A short prefix passes no sub-trie and lives in none. -/
theorem TrieIs.short_put {t : Table} {ps : PrefixStore} {R : Nat → Option Nat} (h : TrieFor t R ps 128 2)
    (hs : StoreFits 128 ps) {q : Prefix} (v : Word) (hq : Fits 128 q) (hl : q.len ≤ 16) :
    TrieFor t R (Assoc.put Prefix.before ps q v) 128 2 := by
  have hlow : terminalLevel q.len < 2 := by unfold terminalLevel; split_ifs <;> omega
  refine (h.congrLeaf (F' := leafAt (Assoc.put Prefix.before ps q v) 128 2) ?_).congr ?_
  · intro d p j hE hj
    obtain ⟨l1, l2⟩ := hE.level hs (by norm_num) (by norm_num)
    rw [leafAt_put v hq l1 l2 hj, if_neg (by omega)]
  · intro d p
    rw [NodeAt.put]
    refine ⟨.inl, ?_⟩
    rintro (h1 | ⟨-, h1, -⟩)
    · exact h1
    · omega

theorem TrieIs.short_erase {t : Table} {ps : PrefixStore} {R : Nat → Option Nat} (h : TrieFor t R ps 128 2)
    (hs : StoreFits 128 ps) {q : Prefix} {v : Word} (hmem : Assoc.get? ps q = some v) (hq : Fits 128 q)
    (hl : q.len ≤ 16) : TrieFor t R (Assoc.erase ps q) 128 2 := by
  have hlow : terminalLevel q.len < 2 := by unfold terminalLevel; split_ifs <;> omega
  refine (h.congrLeaf (F' := leafAt (Assoc.erase ps q) 128 2) ?_).congr ?_
  · intro d p j hE hj
    obtain ⟨l1, l2⟩ := hE.level hs (by norm_num) (by norm_num)
    rw [leafAt_erase hq l1 l2 hj, if_neg (by omega)]
  · intro d p
    rw [NodeAt.of_erase hmem]
    refine ⟨?_, .inl⟩
    rintro (h1 | ⟨-, h1, -⟩)
    · exact h1
    · omega

/-- A change of root leaves leaves the sub-tries alone. -/
theorem WideIs.mapRoot {t : Table} {ps ps' : PrefixStore} (h : TrieFor t t.subRoots ps' 128 2) (hl : RootLeaves t ps)
    (hw : t.ArraysWf) (base cnt : Nat) (f : Slot → Slot) (g : Option Leaf → Option Leaf)
    (hf : ∀ s, (f s).child = s.child) (hg : ∀ s, (f s).leaf = g s.leaf)
    (hb : ∀ r, r < 65536 → best ps' 128 0 16 (r <<< 112) =
      if base ≤ r ∧ r < base + cnt then g (best ps 128 0 16 (r <<< 112)) else best ps 128 0 16 (r <<< 112)) :
    WideIs (t.mapSlots .root16 base cnt f) ps' := by
  refine ⟨?_, ?_⟩
  · have e : (t.mapSlots .root16 base cnt f).subRoots = t.subRoots := by
      funext r
      exact Table.childAt_mapSlots hw _ _ _ _ hf _ _
    rw [e]
    exact h.of_pool rfl
  · intro r hr
    rw [Table.slot_mapSlots hw, hb r hr]
    by_cases h1 : base ≤ r ∧ r < base + cnt
    · rw [if_pos ⟨rfl, rfl, h1⟩, if_pos h1, hg, hl r hr]
    · rw [if_neg (fun h2 => h1 h2.2.2), if_neg h1, hl r hr]

/-! ### The procedures -/

theorem Table.openChild_some {t : Table} {n : Nat} {a : SlotArray} {j m : Nat} (h : t.childAt a j = some m) :
    t.openChild n a j = (m, t) := by
  unfold Table.openChild; rw [h]

theorem Table.openChild_none {t : Table} {n : Nat} {a : SlotArray} {j : Nat} (h : t.childAt a j = none) :
    t.openChild n a j = (t.pickFree n, (t.allocBlock n).2.setChild a j (some (t.pickFree n))) := by
  unfold Table.openChild; rw [h]; rfl

/-- The sub-trie under a root slot opened. -/
theorem WideIs.openRoot {t : Table} {ps : PrefixStore} {n : Nat} (h : WideIs t ps) (ha : t.Acct n) {q : Prefix}
    (hq : Fits 128 q) (hroom : t.childAt .root16 (rootIndex q.net) = none → t.pool.length < n) {b0 : Nat} {t1 : Table}
    (ht1 : t.openChild n .root16 (rootIndex q.net) = (b0, t1)) :
    TrieIs t1 t1.subRoots (NodeOr ps 128 2 q.net 0) (leafAt ps 128 2) ∧ t1.Acct n ∧ RootLeaves t1 ps ∧
      t1.subRoots (rootIndex q.net) = some b0 ∧
      t1.pool.length = t.pool.length + (if t.childAt .root16 (rootIndex q.net) = none then 1 else 0) ∧
      (t.childAt .root16 (rootIndex q.net) = none → ∀ i, t1.childAt (.node b0) i = none) := by
  have hidx := rootIndex_lt hq.2.1
  cases hc : t.childAt .root16 (rootIndex q.net) with
  | some m =>
    rw [Table.openChild_some hc, Prod.mk.injEq] at ht1
    obtain ⟨rfl, rfl⟩ := ht1
    refine ⟨h.trie.congr fun d p => ⟨.inl, ?_⟩, ha, h.leaves, hc, by simp, by simp⟩
    rintro (h1 | ⟨h1, h2⟩)
    · exact h1
    · obtain rfl : d = 0 := by omega
      rw [h2, ← h.trie.exist]
      show (t.childAt .root16 (rootIndex q.net)).isSome = true
      rw [hc]; rfl
  | none =>
    rw [Table.openChild_none hc, Prod.mk.injEq] at ht1
    obtain ⟨rfl, rfl⟩ := ht1
    have hal := ha.allocBlock (hroom hc)
    have hR : ∀ p, ((t.allocBlock n).2.setChild .root16 (rootIndex q.net) (some (t.pickFree n))).subRoots p =
        if p = rootIndex q.net then some (t.pickFree n) else t.subRoots p := by
      intro p
      unfold Table.subRoots
      rw [Table.childAt_setChild hal.1.pool.arraysWf]
      simp only [Table.usable, true_and]
      rfl
    obtain ⟨g1, g2, g3, g4, g5⟩ := h.trie.attach ha (hroom hc) (a := .root16) (j := rootIndex q.net) (dt := 0)
      (pt := rootIndex q.net) rfl hidx
      ((t.allocBlock n).2.setChild .root16 (rootIndex q.net) (some (t.pickFree n))).subRoots
      (by intro p; rw [hR]; simp) (by intro d p b _ i _; simp)
      (by intro d hd; omega) hc
      (by
        intro i hi
        refine leafAt_none (by omega) (by omega) (by simpa using hidx) hi ?_
        rw [← h.trie.exist]
        show ¬(t.childAt .root16 (rootIndex q.net)).isSome = true
        rw [hc]; simp)
    refine ⟨g1.congr fun d p => ?_, g3, ?_, ?_, by simpa using g4, fun _ => g5⟩
    · unfold NodeOr
      refine or_congr_right ?_
      constructor
      · rintro ⟨rfl, rfl⟩; exact ⟨le_rfl, rfl⟩
      · rintro ⟨h1, h2⟩
        obtain rfl : d = 0 := by omega
        exact ⟨rfl, h2⟩
    · intro r hr
      rw [Table.leaf_setChild hal.1.pool.arraysWf]
      exact h.leaves r hr
    · rw [hR, if_pos rfl]

theorem Table.w16Insert_ok {t : Table} {ps : PrefixStore} {n : Nat} (h : WideIs t ps)
    (ha : t.Acct n) (hs : StoreFits 128 ps) {q : Prefix} (v : Word) (hq : Fits 128 q)
    (hroom : t.pool.length + t.w16Need q.net q.len ≤ n) :
    WideIs (t.w16Insert n q.net q.len v) (Assoc.put Prefix.before ps q v) ∧
      (t.w16Insert n q.net q.len v).Acct n ∧
      (t.w16Insert n q.net q.len v).pool.length = t.pool.length + t.w16Need q.net q.len := by
  unfold Table.w16Insert Table.w16Need at *
  split_ifs at hroom ⊢ with hl
  · have hwf := ha.pool.arraysWf
    refine ⟨?_, ha.mapSlots _ (root_range hq hl) _, Table.length_mapSlots ha _ _ _ _⟩
    refine WideIs.mapRoot (h.trie.short_put hs v hq hl) h.leaves hwf _ _ _ _
      (Slot.child_fanWrite _ _) (Slot.leaf_fanWrite _ _) fun r hr => ?_
    rw [rootLeaf_put v hq hr]
    simp only [hl, true_and]
  · have hkt : 2 ≤ terminalLevel q.len := by unfold terminalLevel; split_ifs <;> omega
    cases hop : t.openChild n .root16 (rootIndex q.net) with
    | mk b0 t1 =>
    obtain ⟨o1, o2, o3, o4, o5, o6⟩ := h.openRoot ha hq
      (by intro hc; rw [hc] at hroom; simp only at hroom; omega) hop
    have hmiss : t1.pool.length + t1.missing 128 q.net (terminalLevel q.len - 2) 2 b0 =
        t.pool.length + (match t.childAt .root16 (rootIndex q.net) with
          | none => terminalLevel q.len - 1
          | some b => t.missing 128 q.net (terminalLevel q.len - 2) 2 b) := by
      rw [o5]
      cases hc : t.childAt .root16 (rootIndex q.net) with
      | none =>
        rw [Table.missing_of_empty 128 q.net (o6 hc)]
        simp only [if_true]; omega
      | some m =>
        rw [Table.openChild_some hc, Prod.mk.injEq] at hop
        obtain ⟨rfl, rfl⟩ := hop
        simp
    obtain ⟨g1, g2, g3, g4⟩ := o1.insert o2 hs (by norm_num) (by norm_num) v hq (b0 := b0) o4 hkt
      (by rw [hmiss]; exact hroom) (b := _) (t1 := _) rfl
    unfold Table.w16Open
    rw [hop]
    refine ⟨⟨?_, ?_⟩, g2, g3.trans hmiss⟩
    · rw [Table.subRoots_congr g4]; exact g1
    · intro r hr
      rw [rootLeaf_put v hq hr, if_neg (by omega)]
      exact o3.congr g4 r hr

theorem Table.w16Delete_ok {t : Table} {ps : PrefixStore} {n : Nat} (h : WideIs t ps)
    (ha : t.Acct n) (hs : StoreFits 128 ps) {q : Prefix} {v : Word} (hq : Fits 128 q)
    (hmem : Assoc.get? ps q = some v) (hps : t.prefixes = Assoc.erase ps q) :
    WideIs (t.w16Delete q.net q.len) (Assoc.erase ps q) ∧ (t.w16Delete q.net q.len).Acct n := by
  unfold Table.w16Delete
  split_ifs with hl
  · refine ⟨?_, ha.mapSlots _ (root_range hq hl) _⟩
    refine WideIs.mapRoot (h.trie.short_erase hs hmem hq hl) h.leaves ha.pool.arraysWf _ _ _ _
      (Slot.child_fanClear _ _) (Slot.leaf_fanClear _ _) fun r hr => ?_
    rw [rootLeaf_erase hq hr, hps]
    simp only [hl, true_and]
  · have hkt : 2 ≤ terminalLevel q.len := by unfold terminalLevel; split_ifs <;> omega
    have hktw := terminalLevel_le hq.1 (by norm_num : 128 % 8 = 0) (by norm_num)
    have hidx := rootIndex_lt hq.2.1
    have hpath : ∀ d', d' ≤ 0 + (terminalLevel q.len - 2) → NodeAt ps 128 2 d' (path 128 q.net (2 + d')) := by
      intro d' hd
      rw [NodeAt.nodeOr_erase hmem hq hkt]
      exact .inr ⟨by omega, rfl⟩
    obtain ⟨b0, hb0⟩ := Option.isSome_iff_exists.1 ((h.trie.exist 0 _).2 (hpath 0 (by omega)))
    have hb0' : t.childAt .root16 (rootIndex q.net) = some b0 := hb0
    have hsub : t.subRoot q.net = b0 := by unfold Table.subRoot Table.ptrAt; rw [hb0']; rfl
    obtain ⟨w1, w2⟩ := h.trie.walkDown (N := q.net) (terminalLevel q.len - 2) 0 b0 hb0 (by omega) hpath
    simp only [Nat.zero_add, Nat.add_zero] at w1 w2
    rw [show 2 + (terminalLevel q.len - 2) = terminalLevel q.len by omega] at w1
    obtain ⟨c1, c2, c3, c4⟩ := h.trie.clear ha hs (by norm_num) (by norm_num) hq hkt w1
    have c1' := c1.congr (NodeAt.nodeOr_erase hmem hq hkt)
    rw [hsub, hps, w2]
    have hpr := TrieIs.prune (hs.erase q) (by norm_num) (by norm_num) hq.2.1 (fun _ _ _ _ _ _ => rfl)
      (fun i => (t.nodeFrom t.subRoots i (path 128 q.net (2 + i))).getD 0) [(.root16, rootIndex q.net, b0)] _ c1' c2
      (by omega)
      (by
        intro d hd
        rw [c4]
        obtain ⟨m, hm⟩ := Option.isSome_iff_exists.1 ((h.trie.exist d _).2 (hpath d (by omega)))
        rw [hm]; rfl)
    simp only [List.range_eq_range'] at hpr ⊢
    have hleaves : ∀ {t' : Table}, t'.root16 = t.root16 → RootLeaves t' (Assoc.erase ps q) := by
      intro t' ht' r hr
      rw [rootLeaf_erase hq hr, if_neg (by omega)]
      exact h.leaves.congr ht' r hr
    rcases hpr with ⟨t', e1, e2, e3, e4, e5⟩ | ⟨t', e1, e2, e3, e4⟩
    · rw [e1]
      have e4' : t'.root16 = t.root16 := e4.trans c3
      rw [← Table.subRoots_congr e4'] at e2
      have hroot0 : (t.nodeFrom t.subRoots 0 (path 128 q.net (2 + 0))).getD 0 = b0 := by rw [hb0]; rfl
      replace e5 : t'.nodeFrom t'.subRoots 0 (path 128 q.net 2) = some b0 := by
        rw [Table.subRoots_congr e4']
        exact e5.trans (congrArg some hroot0)
      simp only [Table.prune]
      obtain ⟨hv1, hv2⟩ := e2.vacant_iff e3 e5
      have hused : (t'.block b0).slots.vacant = true ↔ ¬NodeAt (Assoc.erase ps q) 128 2 0 (path 128 q.net (2 + 0)) := by
        rw [hv2, NodeAt.iff_used (hs.erase q) (by norm_num) (by omega) (by omega) (path_lt hq.2.1 (by omega))]
        push Not
        refine forall₂_congr fun j hj => and_congr Iff.rfl ?_
        unfold NodeOr
        constructor
        · intro h1 h2; exact h1 (.inl h2)
        · rintro h1 (h2 | ⟨h2, -⟩)
          · exact h1 h2
          · omega
      split_ifs with hvac
      · have huse : t'.inUse b0 = true := (e2.reached b0).2 ⟨_, _, e5⟩
        have hfr := (e3.freeBlock huse).1
        have hR : ∀ p, ((t'.freeBlock b0).setChild .root16 (rootIndex q.net) none).subRoots p =
            if p = rootIndex q.net then none else t'.subRoots p := by
          intro p
          unfold Table.subRoots
          rw [Table.childAt_setChild hfr.pool.arraysWf]
          simp only [Table.usable, true_and]
          rfl
        obtain ⟨g1, g2, -⟩ := e2.detach e3 e5 (hv1.1 hvac) (a := .root16) (j := rootIndex q.net) rfl hidx (by simp)
          ((t'.freeBlock b0).setChild .root16 (rootIndex q.net) none).subRoots
          (by intro p; rw [hR, rootIndex_eq]; by_cases hp : p = path 128 q.net 2 <;> simp [hp]) (by intro d p b _ i _; simp)
        refine ⟨⟨g1.congr fun d p => ?_, ?_⟩, g2⟩
        · unfold NodeOr
          constructor
          · rintro ⟨h1 | ⟨h1, h2⟩, h3⟩
            · exact h1
            · obtain rfl : d = 0 := by omega
              exact absurd ⟨rfl, h2⟩ h3
          · intro h1
            refine ⟨.inl h1, ?_⟩
            rintro ⟨rfl, rfl⟩
            exact hused.1 hvac h1
        · intro r hr
          rw [Table.leaf_setChild hfr.pool.arraysWf]
          exact hleaves e4' r hr
      · refine ⟨⟨e2.congr fun d p => ⟨?_, .inl⟩, hleaves e4'⟩, e3⟩
        rintro (h1 | ⟨h1, h2⟩)
        · exact h1
        · obtain rfl : d = 0 := by omega
          by_contra hn
          rw [h2] at hn
          exact hvac (hused.2 hn)
    · rw [e1]
      have e4' : t'.root16 = t.root16 := e4.trans c3
      rw [← Table.subRoots_congr e4'] at e2
      exact ⟨⟨e2, hleaves e4'⟩, e3⟩

/-- 10_state.md R38 gives what a Wide16 lookup reads. -/
theorem Table.Wide16Canonical.reads {t : Table} (ha : t.algo = .wide16) (hf : t.width = 128) (h : t.Wide16Canonical) :
    TrieReads t t.subRoots t.prefixes 128 2 ∧ RootLeaves t t.prefixes := by
  have hblk : ∀ d p, t.blockAt (2 + d) p = t.nodeFrom t.subRoots d p := fun d p => by
    unfold Table.blockAt
    rw [ha]
    simp only
    rw [if_pos (by omega), show 2 + d - 2 = d by omega]
  refine ⟨⟨fun d p => ?_, fun d p b hb j hj => ?_⟩, fun r hr => (h.root r hr).1⟩
  · unfold NodeAt
    rw [if_neg (by omega), ← h.exist (2 + d) p (by omega), hblk]
  · have := ((h.filled (2 + d) p b (by rw [hblk]; exact hb)).2 j hj).1
    rwa [hf] at this

/-- `w16_lookup(A)` is `LPM(P, A)` (40_commands_common.md R141). -/
theorem Table.w16Lookup_eq {t : Table} {ps : PrefixStore} (h : TrieReads t t.subRoots ps 128 2) (hl : RootLeaves t ps)
    {a : Nat} (ha : a < 2 ^ 128) :
    t.w16Lookup a = lpm ps 128 a := by
  have hidx := rootIndex_lt ha
  have hleaf : (t.slot .root16 (rootIndex a)).leaf = best ps 128 0 16 a := by
    rw [hl _ hidx]
    refine bestSearch_congr fun len h1 h2 => ?_
    refine canon_mono (root_addr_lt hidx) ha (by omega : 16 ≤ 128) (by omega) ?_
    rw [canon_eq_canon_iff (root_addr_lt hidx) ha (by omega), shiftLeft_112, rootIndex_div,
      Nat.mul_div_cancel _ (by positivity)]
  have hsplit : best ps 128 0 128 a = (best ps 128 17 128 a).or (best ps 128 0 16 a) :=
    bestSearch_add ps 128 a 0 17 112
  unfold Table.w16Lookup lpm
  rw [hleaf, hsplit, leafOr_or]
  cases hc : t.childAt .root16 (rootIndex a) with
  | none =>
    have : best ps 128 17 128 a = none := by
      by_contra hne
      obtain ⟨l, hsome⟩ := Option.ne_none_iff_exists'.1 hne
      have h1 := below_of_bestSearch (k := 2) ha (by omega) (by omega) hsome
      have h2 : NodeAt ps 128 2 0 (path 128 a 2) := by unfold NodeAt; rw [if_neg (by omega)]; exact h1
      rw [← h.exist] at h2
      have h3 : (t.childAt .root16 (rootIndex a)).isSome = true := h2
      rw [hc] at h3; cases h3
    rw [this]; rfl
  | some b => exact h.descend (by norm_num) ha 14 0 b _ hc (by norm_num)

end Sys2Proof.Machine
end

