-- ==== Sys2Proof/Laws/Dir24.lean ====
section
/-! SUPPORT. DIR-24-8: the canonical layout of a store, and each procedure keeps it (42_dir24_8.md). -/

namespace Sys2Proof.Machine

/-- The DIR-24-8 layout of a store. -/
structure DirIs (t : Table) (ps : PrefixStore) : Prop where
  leaf : ∀ i, i < 16777216 → (t.slot .dir i).leaf = best ps 32 0 24 (i <<< 8)
  child : ∀ i, (t.childAt .dir i).isSome = true ↔ below ps 32 3 i = true
  reached : ∀ b, t.inUse b = true ↔ ∃ i, t.childAt .dir i = some b
  one : ∀ i i' b, t.childAt .dir i = some b → t.childAt .dir i' = some b → i = i'
  cnt : ∀ i b, t.childAt .dir i = some b → (t.block b).cnt = longUnder ps i
  ext : ∀ i b, t.childAt .dir i = some b → ∀ j, j < 256 → (t.slot (.node b) j).leaf = best ps 32 0 32 (256 * i + j)
  flat : ∀ i b, t.childAt .dir i = some b → ∀ j, j < 256 → t.childAt (.node b) j = none

/-- 10_state.md R35 and R37 together say that the table is the DIR-24-8 layout of its store. -/
theorem Table.dir24_is {t : Table} {n : Nat} (ha : t.algo = .dir24) (hp : t.PoolOk n) (hs : StoreFits 32 t.prefixes) :
    (t.Tree ∧ t.Dir24Canonical) ↔ DirIs t t.prefixes := by
  have hblk : ∀ k p, t.blockAt k p = if k = 3 then t.childAt .dir p else none := fun k p => by
    unfold Table.blockAt; rw [ha]
  have hsome : ∀ {k p b}, t.blockAt k p = some b → k = 3 ∧ t.childAt .dir p = some b := by
    intro k p b h
    rw [hblk] at h
    split_ifs at h with h1
    exact ⟨h1, h⟩
  have h3 : ∀ {p b}, t.childAt .dir p = some b → t.blockAt 3 p = some b := by
    intro p b h; rw [hblk, if_pos rfl]; exact h
  constructor
  · rintro ⟨⟨h1, h2⟩, ⟨h4, h5⟩⟩
    refine ⟨fun i hi => (h4 i hi).1, ?_, ?_, ?_, fun i b hb => (h5 i b hb).1, fun i b hb j hj => ((h5 i b hb).2 j hj).1,
      fun i b hb j hj => ?_⟩
    · intro i
      by_cases hi : i < dirSlots
      · rw [← Bool.eq_iff_iff]; exact (h4 i hi).2
      · have e : t.childAt .dir i = none := by
          unfold Table.childAt
          have : t.slot .dir i = Slot.empty := hp.dir.2 i (by omega)
          rw [this]; rfl
        rw [e]
        simp only [Option.isSome_none, Bool.false_eq_true, false_iff, Bool.not_eq_true]
        by_contra hne
        rw [Bool.not_eq_false] at hne
        have := (below_level hs (by norm_num) hne).2
        have hd : dirSlots = 2 ^ (8 * 3) := rfl
        omega
    · intro b
      rw [h1]
      constructor
      · rintro ⟨k, p, h⟩; exact ⟨p, (hsome h).2⟩
      · rintro ⟨i, h⟩; exact ⟨3, i, h3 h⟩
    · intro i i' b h h'
      exact (h2 3 i 3 i' b (h3 h) (h3 h')).2
    · have := ((h5 i b hb).2 j hj).2
      show (t.slot (.node b) j).child = none
      simpa using this
  · intro h
    refine ⟨⟨?_, ?_⟩, ?_, ?_⟩
    · intro b
      rw [h.reached]
      constructor
      · rintro ⟨i, h1⟩; exact ⟨3, i, h3 h1⟩
      · rintro ⟨k, p, h1⟩; exact ⟨p, (hsome h1).2⟩
    · intro k p k' p' b h1 h2
      obtain ⟨rfl, c1⟩ := hsome h1
      obtain ⟨rfl, c2⟩ := hsome h2
      exact ⟨rfl, h.one _ _ _ c1 c2⟩
    · intro i hi
      refine ⟨h.leaf i hi, ?_⟩
      rw [Bool.eq_iff_iff]; exact h.child i
    · intro i b hb
      refine ⟨h.cnt i b hb, fun j hj => ⟨h.ext i b hb j hj, ?_⟩⟩
      have : (t.slot (.node b) j).child = none := h.flat i b hb j hj
      rw [this]; rfl

/-! ### Addresses -/

theorem dirIndex_eq (n : Nat) : dirIndex n = n / 2 ^ (32 - 24) := Nat.shiftRight_eq_div_pow _ _

theorem dirIndex_path (n : Nat) : dirIndex n = path 32 n 3 := rfl

theorem extIndex_eq (n : Nat) : extIndex n = n % 256 := Nat.and_two_pow_sub_one_eq_mod n 8

theorem dirIndex_lt {n : Nat} (hn : n < 2 ^ 32) : dirIndex n < 16777216 := by
  rw [dirIndex_eq]; omega

theorem dir_split (n : Nat) : n = 256 * dirIndex n + extIndex n := by
  rw [dirIndex_eq, extIndex_eq]; omega

theorem shiftLeft_8 (i : Nat) : i <<< 8 = i * 2 ^ (32 - 24) := Nat.shiftLeft_eq _ _

theorem dir_addr_lt {i : Nat} (hi : i < 16777216) : i <<< 8 < 2 ^ 32 := by
  rw [Nat.shiftLeft_eq]; omega

theorem ext_addr_lt {i j : Nat} (hi : i < 16777216) (hj : j < 256) : 256 * i + j < 2 ^ 32 := by omega

theorem canon_ext {i j len : Nat} (hi : i < 16777216) (hj : j < 256) (hl : len ≤ 24) :
    canon 32 (256 * i + j) len = canon 32 (i <<< 8) len := by
  refine canon_mono (ext_addr_lt hi hj) (dir_addr_lt hi) (by omega : 24 ≤ 32) hl ?_
  rw [canon_eq_canon_iff (ext_addr_lt hi hj) (dir_addr_lt hi) (by omega), shiftLeft_8,
    Nat.mul_div_cancel _ (by positivity)]
  omega

/-- The direct slots a short prefix fans out over (42_dir24_8.md R193). -/
theorem dir_cond {q : Prefix} (hq : Fits 32 q) (hl : q.len ≤ 24) {i : Nat} (hi : i < 16777216) :
    canon 32 (i <<< 8) q.len = q.net ↔ dirIndex q.net ≤ i ∧ i < dirIndex q.net + 2 ^ (24 - q.len) := by
  rw [shiftLeft_8, dirIndex_eq]
  exact covers_iff_range hq.2.1 hq.2.2 hl (by omega) (by simpa using hi)

theorem dir_range {q : Prefix} (hq : Fits 32 q) (hl : q.len ≤ 24) :
    dirIndex q.net + 2 ^ (24 - q.len) ≤ 16777216 := by
  have hal := fan_aligned hq.2.1 hq.2.2 hl (by omega : 24 ≤ 32)
  rw [← dirIndex_eq] at hal
  have := range_in_array (m := 24) hal (by omega) (by simpa using dirIndex_lt hq.2.1)
  simpa using this

/-- The extension slots a long prefix fans out over (42_dir24_8.md R194). -/
theorem ext_cond {q : Prefix} (hq : Fits 32 q) (hl : 25 ≤ q.len) {i j : Nat} (hi : i < 16777216) (hj : j < 256) :
    canon 32 (256 * i + j) q.len = q.net ↔
      (i = dirIndex q.net ∧ extIndex q.net ≤ j ∧ j < extIndex q.net + 2 ^ (32 - q.len)) := by
  have h := covers_iff_range (m := 32) (i := 256 * i + j) hq.2.1 hq.2.2 hq.1 le_rfl (by omega)
  rw [Nat.sub_self, pow_zero, Nat.mul_one, Nat.div_one] at h
  rw [h]
  have hal := fan_aligned (m := 32) hq.2.1 hq.2.2 hq.1 le_rfl
  rw [Nat.sub_self, pow_zero, Nat.div_one] at hal
  have hs := dir_split q.net
  have he : extIndex q.net < 256 := by rw [extIndex_eq]; omega
  have hal2 : extIndex q.net % 2 ^ (32 - q.len) = 0 := by
    have h256 : 256 = 2 ^ (32 - q.len) * 2 ^ (8 - (32 - q.len)) := by
      rw [← pow_add, show 32 - q.len + (8 - (32 - q.len)) = 8 by omega]; norm_num
    rw [hs, h256, Nat.mul_assoc, Nat.mul_add_mod] at hal
    exact hal
  have hr := range_in_array (m := 8) hal2 (by omega) (by simpa using he)
  have h8 : 2 ^ 8 = 256 := by norm_num
  rw [h8] at hr
  omega

theorem ext_range {q : Prefix} (hq : Fits 32 q) (hl : 25 ≤ q.len) : extIndex q.net + 2 ^ (32 - q.len) ≤ 256 := by
  have hal := fan_aligned (m := 32) hq.2.1 hq.2.2 hq.1 le_rfl
  rw [Nat.sub_self, pow_zero, Nat.div_one] at hal
  have hs := dir_split q.net
  have he : extIndex q.net < 256 := by rw [extIndex_eq]; omega
  have hal2 : extIndex q.net % 2 ^ (32 - q.len) = 0 := by
    have h256 : 256 = 2 ^ (32 - q.len) * 2 ^ (8 - (32 - q.len)) := by
      rw [← pow_add, show 32 - q.len + (8 - (32 - q.len)) = 8 by omega]; norm_num
    rw [hs, h256, Nat.mul_assoc, Nat.mul_add_mod] at hal
    exact hal
  exact range_in_array (m := 8) hal2 (by omega) (by simpa using he)

/-! ### The best prefixes after a change -/

theorem dirLeaf_put {ps : PrefixStore} {q : Prefix} (v : Word) (hq : Fits 32 q) {i : Nat} (hi : i < 16777216) :
    best (Assoc.put Prefix.before ps q v) 32 0 24 (i <<< 8) =
      if q.len ≤ 24 ∧ dirIndex q.net ≤ i ∧ i < dirIndex q.net + 2 ^ (24 - q.len) then
        leafWrite v q.len (best ps 32 0 24 (i <<< 8))
      else best ps 32 0 24 (i <<< 8) := by
  unfold best
  rw [bestSearch_put]
  by_cases hl : q.len ≤ 24
  · have e : (0 ≤ q.len ∧ q.len < 0 + (24 + 1 - 0) ∧ canon 32 (i <<< 8) q.len = q.net) ↔
        (q.len ≤ 24 ∧ dirIndex q.net ≤ i ∧ i < dirIndex q.net + 2 ^ (24 - q.len)) := by
      rw [dir_cond hq hl hi]; omega
    simp only [e]
  · rw [if_neg (by omega), if_neg (by omega)]

theorem dirLeaf_erase {ps : PrefixStore} {q : Prefix} (hq : Fits 32 q) {i : Nat} (hi : i < 16777216) :
    best (Assoc.erase ps q) 32 0 24 (i <<< 8) =
      if q.len ≤ 24 ∧ dirIndex q.net ≤ i ∧ i < dirIndex q.net + 2 ^ (24 - q.len) then
        leafClear q.len (bestBelow (Assoc.erase ps q) 32 0 q.len q.net) (best ps 32 0 24 (i <<< 8))
      else best ps 32 0 24 (i <<< 8) := by
  unfold best
  rw [bestSearch_erase]
  by_cases h : q.len ≤ 24 ∧ dirIndex q.net ≤ i ∧ i < dirIndex q.net + 2 ^ (24 - q.len)
  · have h3 := (dir_cond hq h.1 hi).2 h.2
    rw [if_pos h, if_pos ⟨Nat.zero_le _, by omega, h3⟩]
    refine congrArg (fun x => leafClear q.len x _) (bestSearch_congr fun len l1 l2 => ?_)
    exact canon_mono (dir_addr_lt hi) hq.2.1 hq.1 (by omega) (h3.trans hq.2.2.symm)
  · rw [if_neg h, if_neg]
    rintro ⟨-, h1, h2⟩
    exact h ⟨by omega, (dir_cond hq (by omega) hi).1 h2⟩

/-- A prefix covers an extension slot's address. -/
def extCovered (q : Prefix) (i j : Nat) : Prop :=
  if q.len ≤ 24 then dirIndex q.net ≤ i ∧ i < dirIndex q.net + 2 ^ (24 - q.len)
  else i = dirIndex q.net ∧ extIndex q.net ≤ j ∧ j < extIndex q.net + 2 ^ (32 - q.len)

theorem ext_covers {q : Prefix} (hq : Fits 32 q) {i j : Nat} (hi : i < 16777216) (hj : j < 256) :
    canon 32 (256 * i + j) q.len = q.net ↔ extCovered q i j := by
  unfold extCovered
  split_ifs with hl
  · rw [canon_ext hi hj hl, dir_cond hq hl hi]
  · exact ext_cond hq (by omega) hi hj

theorem extLeaf_put {ps : PrefixStore} {q : Prefix} (v : Word) (hq : Fits 32 q) {i j : Nat} (hi : i < 16777216)
    (hj : j < 256) [Decidable (extCovered q i j)] :
    best (Assoc.put Prefix.before ps q v) 32 0 32 (256 * i + j) =
      if extCovered q i j then leafWrite v q.len (best ps 32 0 32 (256 * i + j)) else best ps 32 0 32 (256 * i + j) := by
  unfold best
  have hq1 := hq.1
  have hc := ext_covers hq hi hj
  rw [bestSearch_put]
  by_cases h : extCovered q i j
  · rw [if_pos h, if_pos ⟨by omega, by omega, hc.2 h⟩]
  · rw [if_neg h, if_neg (fun h' => h (hc.1 h'.2.2))]

theorem extLeaf_erase {ps : PrefixStore} {q : Prefix} (hq : Fits 32 q) {i j : Nat} (hi : i < 16777216)
    (hj : j < 256) [Decidable (extCovered q i j)] :
    best (Assoc.erase ps q) 32 0 32 (256 * i + j) =
      if extCovered q i j then
        leafClear q.len (bestBelow (Assoc.erase ps q) 32 0 q.len q.net) (best ps 32 0 32 (256 * i + j))
      else best ps 32 0 32 (256 * i + j) := by
  unfold best
  have hq1 := hq.1
  rw [bestSearch_erase]
  by_cases h : extCovered q i j
  · have h3 := (ext_covers hq hi hj).2 h
    rw [if_pos h, if_pos ⟨by omega, by omega, h3⟩]
    refine congrArg (fun x => leafClear q.len x _) (bestSearch_congr fun len l1 l2 => ?_)
    exact canon_mono (ext_addr_lt hi hj) hq.2.1 hq.1 (by omega) (h3.trans hq.2.2.symm)
  · rw [if_neg h, if_neg (fun h' => h ((ext_covers hq hi hj).1 h'.2.2))]

/-- Where no long prefix passes, an extension slot would answer as the direct slot. -/
theorem best_of_not_below {ps : PrefixStore} {i j : Nat} (hi : i < 16777216) (hj : j < 256)
    (h : below ps 32 3 i = false) : best ps 32 0 32 (256 * i + j) = best ps 32 0 24 (i <<< 8) := by
  have hsplit : best ps 32 0 32 (256 * i + j) = (best ps 32 25 32 (256 * i + j)).or (best ps 32 0 24 (256 * i + j)) :=
    bestSearch_add ps 32 (256 * i + j) 0 25 8
  have hnone : best ps 32 25 32 (256 * i + j) = none := by
    by_contra hne
    obtain ⟨l, hl⟩ := Option.ne_none_iff_exists'.1 hne
    have h1 := below_of_bestSearch (k := 3) (ext_addr_lt hi hj) (by omega) (by omega) hl
    have h2 : path 32 (256 * i + j) 3 = i := by
      rw [path_eq]; omega
    rw [h2, h] at h1; cases h1
  rw [hsplit, hnone]
  exact bestSearch_congr fun len _ h2 => canon_ext hi hj (by omega)

/-! ### `cnt` -/

theorem longUnder_put (ps : PrefixStore) (q : Prefix) (v : Word) (i : Nat)
    (hw : Assoc.wf Prefix.before ps = true) :
    longUnder (Assoc.put Prefix.before ps q v) i =
      longUnder ps i + if 25 ≤ q.len ∧ dirIndex q.net = i ∧ Assoc.get? ps q = none then 1 else 0 := by
  induction ps with
  | nil =>
    simp only [Assoc.put, longUnder, Assoc.get?, and_true, dirIndex]
    by_cases h1 : 25 ≤ q.len <;> by_cases h2 : q.net >>> 8 = i <;> simp [h1, h2]
  | cons e ps ih =>
    obtain ⟨a, u⟩ := e
    have hw' := (Assoc.wf_cons Prefix.before a u ps).1 hw
    have ih' := ih hw'.2
    rw [Assoc.get?_cons]
    simp only [Assoc.put]
    by_cases h1 : q = a
    · subst h1
      rw [if_pos rfl, if_pos rfl, if_neg (by simp)]
      unfold longUnder
      by_cases h2 : (decide (25 ≤ q.len) && decide (q.net >>> 8 = i)) = true <;> simp [h2]
    · rw [if_neg h1, if_neg h1]
      by_cases h2 : Prefix.before q a = true
      · rw [if_pos h2]
        have hnone : Assoc.get? ps q = none := by
          by_contra hne
          obtain ⟨x, hx⟩ := Option.ne_none_iff_exists'.1 hne
          have h3 := hw'.1 _ (Assoc.mem_of_get? hx)
          have h4 := prefixBefore_order.trans _ _ _ h2 h3
          rw [prefixBefore_order.irrefl] at h4; cases h4
        unfold longUnder
        simp only [hnone, and_true, dirIndex]
        rw [List.filter_cons]
        by_cases h5 : 25 ≤ q.len <;> by_cases h6 : q.net >>> 8 = i <;> simp [h5, h6]
      · rw [if_neg h2]
        unfold longUnder at ih' ⊢
        rw [List.filter_cons, List.filter_cons]
        by_cases h3 : (decide (25 ≤ a.len) && decide (a.net >>> 8 = i)) = true
        · rw [if_pos h3, if_pos h3]; simp only [List.length_cons]; omega
        · rw [if_neg h3, if_neg h3]; exact ih'

theorem longUnder_erase (ps : PrefixStore) (q : Prefix) (i : Nat) {v : Word} (hw : Assoc.wf Prefix.before ps = true)
    (hq : Assoc.get? ps q = some v) :
    longUnder (Assoc.erase ps q) i + (if 25 ≤ q.len ∧ dirIndex q.net = i then 1 else 0) = longUnder ps i := by
  induction ps with
  | nil => simp at hq
  | cons e ps ih =>
    obtain ⟨a, u⟩ := e
    have hw' := (Assoc.wf_cons Prefix.before a u ps).1 hw
    rw [Assoc.get?_cons] at hq
    by_cases h1 : q = a
    · subst h1
      have hnot : Assoc.erase ((q, u) :: ps) q = ps := by
        unfold Assoc.erase
        rw [List.filter_cons, if_neg (by simp), List.filter_eq_self]
        intro e he
        have := hw'.1 e he
        simp only [decide_eq_true_eq]
        rintro heq
        rw [heq, prefixBefore_order.irrefl] at this; cases this
      rw [hnot]
      unfold longUnder dirIndex
      rw [List.filter_cons]
      by_cases h5 : 25 ≤ q.len <;> by_cases h6 : q.net >>> 8 = i <;> simp [h5, h6]
    · rw [if_neg h1] at hq
      have ih' := ih hw'.2 hq
      have hcons : Assoc.erase ((a, u) :: ps) q = (a, u) :: Assoc.erase ps q := by
        unfold Assoc.erase
        rw [List.filter_cons, if_pos (by simpa using fun h => h1 h.symm)]
      rw [hcons]
      unfold longUnder at ih' ⊢
      rw [List.filter_cons, List.filter_cons]
      by_cases h5 : (decide (25 ≤ a.len) && decide (a.net >>> 8 = i)) = true
      · rw [if_pos h5, if_pos h5]; simp only [List.length_cons]; omega
      · rw [if_neg h5, if_neg h5]; exact ih'

theorem longUnder_pos {ps : PrefixStore} {i : Nat} : longUnder ps i ≠ 0 ↔ below ps 32 3 i = true := by
  rw [below_iff]
  unfold longUnder
  rw [ne_eq, List.length_eq_zero_iff, List.filter_eq_nil_iff]
  push Not
  simp only [Bool.and_eq_true, decide_eq_true_eq, path]
  constructor
  · rintro ⟨e, he, h1, h2⟩; exact ⟨e, he, by omega, h2⟩
  · rintro ⟨e, he, h1, h2⟩; exact ⟨e, he, by omega, h2⟩

end Sys2Proof.Machine
end

