-- ==== Sys2Proof/Laws/Dir24Ops.lean ====
section
/-! SUPPORT. DIR-24-8: what INSERT, DELETE and LOOKUP do to the layout of a store (42_dir24_8.md R193 to R198). -/

namespace Sys2Proof.Machine

theorem Slot.ext_iff' {s s' : Slot} (h1 : s.leaf = s'.leaf) (h2 : s.child = s'.child) : s = s' := by
  cases s; cases s'; simp_all

theorem Slot.fanWrite_twice (v : Word) (len : Nat) (s : Slot) :
    (s.fanWrite v len).fanWrite v len = s.fanWrite v len := by
  refine Slot.ext_iff' ?_ (by simp only [Slot.child_fanWrite])
  simp only [Slot.leaf_fanWrite]
  unfold leafWrite
  cases s.leaf with
  | none => simp
  | some l => by_cases h : l.tag ≤ len <;> simp [h]

theorem Slot.fanClear_twice (len : Nat) (sh : Option Leaf) (hsh : ∀ l, sh = some l → l.tag ≠ len) (s : Slot) :
    (s.fanClear len sh).fanClear len sh = s.fanClear len sh := by
  refine Slot.ext_iff' ?_ (by simp only [Slot.child_fanClear])
  simp only [Slot.leaf_fanClear]
  unfold leafClear
  cases s.leaf with
  | none => simp
  | some l =>
    by_cases h : l.tag = len
    · cases hs : sh with
      | none => simp [h]
      | some l' => simp [h, hsh l' hs]
    · simp [h]

/-- A change applied to the blocks of a list, one after another. -/
theorem Table.foldBlocks {n : Nat} {f : Slot → Slot} (hf : ∀ s, f (f s) = f s) (bs : List Nat) :
    ∀ {t : Table}, t.Acct n → (∀ b ∈ bs, t.inUse b = true) →
      (bs.foldl (fun t b => t.mapSlots (.node b) 0 nodeSlots f) t).Acct n ∧
      (bs.foldl (fun t b => t.mapSlots (.node b) 0 nodeSlots f) t).pool.length = t.pool.length ∧
      (bs.foldl (fun t b => t.mapSlots (.node b) 0 nodeSlots f) t).dir = t.dir ∧
      (∀ b, (bs.foldl (fun t b => t.mapSlots (.node b) 0 nodeSlots f) t).inUse b = t.inUse b) ∧
      (∀ b, ((bs.foldl (fun t b => t.mapSlots (.node b) 0 nodeSlots f) t).block b).cnt = (t.block b).cnt) ∧
      (∀ b ∈ bs, ∀ j, j < 256 →
        (bs.foldl (fun t b => t.mapSlots (.node b) 0 nodeSlots f) t).slot (.node b) j = f (t.slot (.node b) j)) ∧
      (∀ b, b ∉ bs → ∀ j,
        (bs.foldl (fun t b => t.mapSlots (.node b) 0 nodeSlots f) t).slot (.node b) j = t.slot (.node b) j) := by
  induction bs with
  | nil => intro t ha _; exact ⟨ha, rfl, rfl, fun _ => rfl, fun _ => rfl, by simp, fun _ _ _ => rfl⟩
  | cons b bs ih =>
    intro t ha hu
    have ha1 : (t.mapSlots (.node b) 0 nodeSlots f).Acct n := ha.mapSlots _ (by simp [arraySize]) _
    obtain ⟨i1, i2, i3, i4, i5, i6, i7⟩ := ih ha1 (fun b' hb' => by
      rw [Table.inUse_mapSlots]; exact hu b' (List.mem_cons_of_mem _ hb'))
    have hslot : ∀ b' j, (t.mapSlots (.node b) 0 nodeSlots f).slot (.node b') j =
        if b' = b ∧ j < 256 then f (t.slot (.node b') j) else t.slot (.node b') j := by
      intro b' j
      rw [Table.slot_mapSlots ha.pool.arraysWf]
      by_cases h1 : b' = b ∧ j < 256
      · rw [if_pos h1, if_pos ⟨by rw [h1.1], hu b List.mem_cons_self, Nat.zero_le _, by
          have := h1.2; unfold nodeSlots; omega⟩, h1.1]
      · rw [if_neg h1, if_neg]
        rintro ⟨h2, -, -, h3⟩
        exact h1 ⟨SlotArray.node.inj h2, by unfold nodeSlots at h3; omega⟩
    refine ⟨i1, i2.trans (Table.length_mapSlots ha _ _ _ _), i3.trans (Table.dir_updateBlock _ _ _),
      fun b' => (i4 b').trans (Table.inUse_mapSlots _ _ _ _ _ _), fun b' => (i5 b').trans (Table.cnt_mapSlots _ _ _ _ _ _),
      ?_, ?_⟩
    · intro b' hb' j hj
      by_cases h1 : b' ∈ bs
      · refine (i6 b' h1 j hj).trans ?_
        rw [hslot]
        split_ifs
        · exact hf _
        · rfl
      · obtain rfl : b' = b := (List.mem_cons.1 hb').resolve_right h1
        refine (i7 b' h1 j).trans ?_
        rw [hslot, if_pos ⟨rfl, hj⟩]
    · intro b' hb' j
      rw [List.mem_cons, not_or] at hb'
      refine (i7 b' hb'.2 j).trans ?_
      rw [hslot, if_neg (fun h => hb'.1 h.1)]

theorem DirIs.child_lt {t : Table} {n i b : Nat} (ha : t.PoolOk n) (h : t.childAt .dir i = some b) : i < 16777216 := by
  by_contra hi
  have : t.slot .dir i = Slot.empty := ha.dir.2 i (by unfold dirSlots; omega)
  unfold Table.childAt at h
  rw [this] at h; cases h

/-- A short prefix written or cleared: a range of direct slots, and every slot of the extension blocks under it. -/
theorem DirIs.mapShort {t : Table} {ps ps' : PrefixStore} {n : Nat} (h : DirIs t ps) (ha : t.Acct n) {base cnt : Nat}
    {f : Slot → Slot} {g : Option Leaf → Option Leaf} (hf : ∀ s, (f s).child = s.child) (hg : ∀ s, (f s).leaf = g s.leaf)
    (hff : ∀ s, f (f s) = f s) (hr : base + cnt ≤ 16777216)
    (hleaf : ∀ i, i < 16777216 → best ps' 32 0 24 (i <<< 8) =
      if base ≤ i ∧ i < base + cnt then g (best ps 32 0 24 (i <<< 8)) else best ps 32 0 24 (i <<< 8))
    (hext : ∀ i j, i < 16777216 → j < 256 → best ps' 32 0 32 (256 * i + j) =
      if base ≤ i ∧ i < base + cnt then g (best ps 32 0 32 (256 * i + j)) else best ps 32 0 32 (256 * i + j))
    (hlong : ∀ i, longUnder ps' i = longUnder ps i) :
    DirIs ((t.mapSlots .dir base cnt f).mapExtensions base cnt f) ps' ∧
      ((t.mapSlots .dir base cnt f).mapExtensions base cnt f).Acct n ∧
      ((t.mapSlots .dir base cnt f).mapExtensions base cnt f).pool.length = t.pool.length := by
  have hwf := ha.pool.arraysWf
  have ha1 : (t.mapSlots .dir base cnt f).Acct n := ha.mapSlots .dir hr f
  have hdch : ∀ i, (t.mapSlots .dir base cnt f).childAt .dir i = t.childAt .dir i :=
    fun i => Table.childAt_mapSlots hwf _ _ _ _ hf _ _
  have hmem : ∀ b, b ∈ (t.mapSlots .dir base cnt f).dir.childrenIn base cnt ↔
      ∃ i, base ≤ i ∧ i < base + cnt ∧ t.childAt .dir i = some b := by
    intro b
    rw [Runs.mem_childrenIn ha1.pool.dir.1]
    refine exists_congr fun i => and_congr_right fun _ => and_congr_right fun _ => ?_
    rw [← hdch i]; rfl
  obtain ⟨i1, i2, i3, i4, i5, i6, i7⟩ := Table.foldBlocks hff ((t.mapSlots .dir base cnt f).dir.childrenIn base cnt) ha1
    (fun b hb => by
      obtain ⟨i, -, -, hi⟩ := (hmem b).1 hb
      rw [Table.inUse_mapSlots, h.reached]; exact ⟨i, hi⟩)
  have e : (t.mapSlots .dir base cnt f).mapExtensions base cnt f =
    ((t.mapSlots .dir base cnt f).dir.childrenIn base cnt).foldl (fun t b => t.mapSlots (.node b) 0 nodeSlots f)
      (t.mapSlots .dir base cnt f) := rfl
  rw [e]
  generalize hT : ((t.mapSlots .dir base cnt f).dir.childrenIn base cnt).foldl
    (fun t b => t.mapSlots (.node b) 0 nodeSlots f) (t.mapSlots .dir base cnt f) = T at i1 i2 i3 i4 i5 i6 i7
  have hTdir : ∀ i, T.slot .dir i = (t.mapSlots .dir base cnt f).slot .dir i := fun i => by
    show T.dir.get i = _
    rw [i3]; rfl
  have hTch : ∀ i, T.childAt .dir i = t.childAt .dir i := fun i => by
    show (T.slot .dir i).child = _
    rw [hTdir]; exact hdch i
  have hbel : ∀ i, below ps' 32 3 i = true ↔ below ps 32 3 i = true := fun i => by
    rw [← longUnder_pos, ← longUnder_pos, hlong]
  refine ⟨⟨?_, ?_, ?_, ?_, ?_, ?_, ?_⟩, i1, i2⟩
  · intro i hi
    rw [hTdir, Table.slot_mapSlots hwf, hleaf i hi]
    by_cases h1 : base ≤ i ∧ i < base + cnt
    · rw [if_pos ⟨rfl, rfl, h1⟩, if_pos h1, hg, h.leaf i hi]
    · rw [if_neg (fun h2 => h1 h2.2.2), if_neg h1, h.leaf i hi]
  · intro i; rw [hTch, h.child, hbel]
  · intro b; rw [i4, Table.inUse_mapSlots, h.reached]; simp only [hTch]
  · intro i i' b hb hb'; rw [hTch] at hb hb'; exact h.one _ _ _ hb hb'
  · intro i b hb
    rw [hTch] at hb
    rw [i5, Table.cnt_mapSlots, hlong]; exact h.cnt i b hb
  · intro i b hb j hj
    rw [hTch] at hb
    have hi := DirIs.child_lt ha.pool hb
    rw [hext i j hi hj]
    by_cases h1 : base ≤ i ∧ i < base + cnt
    · rw [i6 b ((hmem b).2 ⟨i, h1.1, h1.2, hb⟩) j hj, if_pos h1, hg]
      exact congrArg g (h.ext i b hb j hj)
    · have hnot : b ∉ (t.mapSlots .dir base cnt f).dir.childrenIn base cnt := by
        rw [hmem]
        rintro ⟨i', l1, l2, hi'⟩
        rw [h.one _ _ _ hb hi'] at h1
        exact h1 ⟨l1, l2⟩
      rw [i7 b hnot j, if_neg h1]
      exact h.ext i b hb j hj
  · intro i b hb j hj
    rw [hTch] at hb
    have hfl := h.flat i b hb j hj
    show (T.slot (.node b) j).child = none
    by_cases h1 : b ∈ (t.mapSlots .dir base cnt f).dir.childrenIn base cnt
    · rw [i6 b h1 j hj, hf]; exact hfl
    · rw [i7 b h1 j]; exact hfl

/-- The extension block of a direct slot, there already or made. -/
theorem DirIs.openExtension {t : Table} {ps : PrefixStore} {n : Nat} (h : DirIs t ps) (ha : t.Acct n) {i0 : Nat}
    (hi0 : i0 < 16777216) (hroom : t.childAt .dir i0 = none → t.pool.length < n) {T : Table}
    (hT : t.openExtension n i0 = T) :
    ∃ b0, T.childAt .dir i0 = some b0 ∧ T.Acct n ∧
      T.pool.length = t.pool.length + (if t.childAt .dir i0 = none then 1 else 0) ∧
      (∀ i, i < 16777216 → (T.slot .dir i).leaf = best ps 32 0 24 (i <<< 8)) ∧
      (∀ i, (T.childAt .dir i).isSome = true ↔ (below ps 32 3 i = true ∨ i = i0)) ∧
      (∀ b, T.inUse b = true ↔ ∃ i, T.childAt .dir i = some b) ∧
      (∀ i i' b, T.childAt .dir i = some b → T.childAt .dir i' = some b → i = i') ∧
      (∀ i b, T.childAt .dir i = some b → (T.block b).cnt = longUnder ps i) ∧
      (∀ i b, T.childAt .dir i = some b → ∀ j, j < 256 → (T.slot (.node b) j).leaf = best ps 32 0 32 (256 * i + j)) ∧
      (∀ i b, T.childAt .dir i = some b → ∀ j, j < 256 → T.childAt (.node b) j = none) := by
  unfold Table.openExtension at hT
  cases hc : t.childAt .dir i0 with
  | some m =>
    rw [hc] at hT
    simp only at hT
    subst hT
    refine ⟨m, hc, ha, by simp, h.leaf, ?_, h.reached, h.one, h.cnt, h.ext, h.flat⟩
    intro i
    rw [h.child]
    refine ⟨.inl, ?_⟩
    rintro (h1 | rfl)
    · exact h1
    · rw [← h.child, hc]; rfl
  | none =>
    rw [hc] at hT
    simp only at hT
    have hroom' := hroom hc
    obtain ⟨hfree, hlt⟩ := Table.pickFree_spec ha.pool hroom'
    obtain ⟨ha1, hl1⟩ := ha.allocBlock hroom'
    have huse1 : (t.allocBlock n).2.inUse (t.pickFree n) = true := by rw [Table.inUse_allocBlock]; simp
    have hm : (t.allocBlock n).1 = t.pickFree n := rfl
    rw [hm] at hT
    have ha2 : ((t.allocBlock n).2.mapSlots (.node (t.pickFree n)) 0 nodeSlots
      fun s => { s with leaf := (t.slot .dir i0).leaf }).Acct n := ha1.mapSlots _ (by simp [arraySize]) _
    have hslot2 : ∀ a j, ((t.allocBlock n).2.mapSlots (.node (t.pickFree n)) 0 nodeSlots
        fun s => { s with leaf := (t.slot .dir i0).leaf }).slot a j =
        if a = .node (t.pickFree n) ∧ j < 256 then ⟨(t.slot .dir i0).leaf, none⟩ else t.slot a j := by
      intro a j
      rw [Table.slot_mapSlots ha1.pool.arraysWf, Table.slot_allocBlock ha.pool hroom', Table.slot_allocBlock ha.pool hroom']
      have hem : t.slot (.node (t.pickFree n)) j = Slot.empty := by
        have e : t.slot (.node (t.pickFree n)) j = (t.block (t.pickFree n)).slots.get j := rfl
        rw [e, Table.block_of_not_inUse hfree]; rfl
      by_cases h1 : a = .node (t.pickFree n) ∧ j < 256
      · rw [if_pos h1, if_pos ⟨h1.1, huse1, Nat.zero_le _, by have := h1.2; unfold nodeSlots; omega⟩, hem]; rfl
      · rw [if_neg h1, if_neg]
        rintro ⟨h2, -, -, h3⟩
        exact h1 ⟨h2, by unfold nodeSlots at h3; omega⟩
    have ha3 : T.Acct n := by rw [← hT]; exact ha2.setChild .dir (by unfold arraySize dirSlots; omega) _
    have hch : ∀ i, T.childAt .dir i = if i = i0 then some (t.pickFree n) else t.childAt .dir i := by
      intro i
      rw [← hT, Table.childAt_setChild ha2.pool.arraysWf]
      by_cases h1 : i = i0
      · rw [if_pos h1, if_pos ⟨rfl, rfl, h1⟩]
      · rw [if_neg h1, if_neg (fun h2 => h1 h2.2.2)]
        unfold Table.childAt
        rw [hslot2, if_neg (by simp)]
    have hleaf : ∀ a j, (T.slot a j).leaf =
        if a = .node (t.pickFree n) ∧ j < 256 then (t.slot .dir i0).leaf else (t.slot a j).leaf := by
      intro a j
      rw [← hT, Table.leaf_setChild ha2.pool.arraysWf, hslot2]
      split_ifs <;> rfl
    have hnch : ∀ b j, T.childAt (.node b) j = if b = t.pickFree n ∧ j < 256 then none else t.childAt (.node b) j := by
      intro b j
      rw [← hT, Table.childAt_setChild ha2.pool.arraysWf, if_neg (by simp)]
      unfold Table.childAt
      rw [hslot2]
      simp only [SlotArray.node.injEq]
      split_ifs <;> rfl
    have huse : ∀ b, T.inUse b = (decide (b = t.pickFree n) || t.inUse b) := by
      intro b
      rw [← hT, Table.inUse_setChild, Table.inUse_mapSlots, Table.inUse_allocBlock]
    have hcnt : ∀ b, (T.block b).cnt = if b = t.pickFree n then 0 else (t.block b).cnt := by
      intro b
      rw [← hT, Table.setChild, Table.cnt_mapSlots, Table.cnt_mapSlots, Table.block_allocBlock]
      split_ifs <;> rfl
    have notm : ∀ {i b}, t.childAt .dir i = some b → b ≠ t.pickFree n := by
      rintro i b hb rfl
      have := (h.reached _).2 ⟨i, hb⟩
      rw [hfree] at this; cases this
    have hnb : below ps 32 3 i0 = false := by
      rw [← Bool.not_eq_true, ← h.child, hc]; simp
    refine ⟨t.pickFree n, by rw [hch, if_pos rfl], ha3, ?_, ?_, ?_, ?_, ?_, ?_, ?_, ?_⟩
    · rw [← hT, Table.setChild, Table.length_mapSlots ha2, Table.length_mapSlots ha1, hl1]; simp
    · intro i hi; rw [hleaf, if_neg (by simp)]; exact h.leaf i hi
    · intro i
      rw [hch, ← h.child]
      by_cases h1 : i = i0 <;> simp [h1]
    · intro b
      rw [huse, Bool.or_eq_true, decide_eq_true_eq, h.reached]
      constructor
      · rintro (rfl | ⟨i, hi⟩)
        · exact ⟨i0, by rw [hch, if_pos rfl]⟩
        · refine ⟨i, ?_⟩
          rw [hch, if_neg, hi]
          rintro rfl
          rw [hc] at hi; cases hi
      · rintro ⟨i, hi⟩
        rw [hch] at hi
        split_ifs at hi
        · exact .inl (Option.some.inj hi).symm
        · exact .inr ⟨i, hi⟩
    · intro i i' b hb hb'
      rw [hch] at hb hb'
      split_ifs at hb with h1 <;> split_ifs at hb' with h2
      · rw [h1, h2]
      · exact absurd (Option.some.inj hb).symm (notm hb')
      · exact absurd (Option.some.inj hb').symm (notm hb)
      · exact h.one _ _ _ hb hb'
    · intro i b hb
      rw [hch] at hb
      rw [hcnt]
      split_ifs at hb with h1
      · rw [if_pos (Option.some.inj hb).symm, h1]
        by_contra hne
        have := longUnder_pos.1 (Ne.symm hne)
        rw [hnb] at this; cases this
      · rw [if_neg (notm hb)]; exact h.cnt i b hb
    · intro i b hb j hj
      rw [hch] at hb
      rw [hleaf]
      split_ifs at hb with h1
      · obtain rfl := Option.some.inj hb
        rw [if_pos ⟨rfl, hj⟩, h1, h.leaf i0 hi0, best_of_not_below hi0 hj hnb]
      · rw [if_neg (by simpa using fun h2 => absurd h2 (notm hb))]
        exact h.ext i b hb j hj
    · intro i b hb j hj
      rw [hch] at hb
      rw [hnch]
      split_ifs at hb with h1
      · rw [if_pos ⟨(Option.some.inj hb).symm, hj⟩]
      · rw [if_neg (fun h2 => notm hb h2.1)]; exact h.flat i b hb j hj

theorem Table.d24Insert_ok {t : Table} {ps : PrefixStore} {n : Nat} (h : DirIs t ps) (ha : t.Acct n)
    (hw : Assoc.wf Prefix.before ps = true) {q : Prefix} (v : Word) (hq : Fits 32 q)
    (hroom : t.pool.length + t.d24Need q.net q.len ≤ n) :
    DirIs (t.d24Insert n q.net q.len v (Assoc.get? ps q).isSome) (Assoc.put Prefix.before ps q v) ∧
      (t.d24Insert n q.net q.len v (Assoc.get? ps q).isSome).Acct n ∧
      (t.d24Insert n q.net q.len v (Assoc.get? ps q).isSome).pool.length = t.pool.length + t.d24Need q.net q.len := by
  unfold Table.d24Insert Table.d24Need at *
  have hi0 := dirIndex_lt hq.2.1
  by_cases hl : q.len ≤ 24
  · simp only [if_pos hl] at hroom ⊢
    refine DirIs.mapShort h ha (Slot.child_fanWrite _ _) (Slot.leaf_fanWrite _ _) (Slot.fanWrite_twice _ _)
      (dir_range hq hl) ?_ ?_ ?_
    · intro i hi; rw [dirLeaf_put v hq hi]; simp only [hl, true_and]
    · intro i j hi hj
      classical
      rw [extLeaf_put v hq hi hj]
      simp only [extCovered, if_pos hl]
    · intro i; rw [longUnder_put _ _ _ _ hw, if_neg (by omega)]; rfl
  · simp only [if_neg hl] at hroom ⊢
    obtain ⟨b0, o1, o2, o3, o4, o5, o6, o7, o8, o9, o10⟩ := h.openExtension ha hi0
      (by intro hc; rw [hc] at hroom; simp only at hroom; omega) (T := _) rfl
    generalize t.openExtension n (dirIndex q.net) = T at *
    have hxb : T.extBlock (dirIndex q.net) = b0 := by unfold Table.extBlock; rw [o1]; rfl
    rw [hxb]
    have hwf := o2.pool.arraysWf
    have hu : T.inUse b0 = true := (o6 b0).2 ⟨_, o1⟩
    have ha2 : (T.fanWrite (.node b0) (extIndex q.net) (2 ^ (32 - q.len)) v q.len).Acct n :=
      o2.mapSlots _ (ext_range hq (by omega)) _
    have hlen2 : (T.fanWrite (.node b0) (extIndex q.net) (2 ^ (32 - q.len)) v q.len).pool.length = T.pool.length :=
      Table.length_mapSlots o2 _ _ _ _
    have hcnt2 : ∀ b, ((T.fanWrite (.node b0) (extIndex q.net) (2 ^ (32 - q.len)) v q.len).block b).cnt =
      (T.block b).cnt := Table.cnt_mapSlots _ _ _ _ _
    have hslot2 := Table.slot_mapSlots hwf (.node b0) (extIndex q.net) (2 ^ (32 - q.len)) (Slot.fanWrite v q.len)
    have hch2 := Table.childAt_mapSlots hwf (.node b0) (extIndex q.net) (2 ^ (32 - q.len)) (Slot.fanWrite v q.len)
      (Slot.child_fanWrite _ _)
    -- the facts that hold of any table with the same slots and the counts of the new store
    have fin : ∀ T' : Table, (∀ a j, T'.slot a j = (T.mapSlots (.node b0) (extIndex q.net) (2 ^ (32 - q.len))
          (Slot.fanWrite v q.len)).slot a j) → (∀ b, T'.inUse b = T.inUse b) →
        (∀ i b, T.childAt .dir i = some b → (T'.block b).cnt = longUnder (Assoc.put Prefix.before ps q v) i) →
        DirIs T' (Assoc.put Prefix.before ps q v) := by
      intro T' hT1 hT2 hT3
      have hTch : ∀ a j, T'.childAt a j = T.childAt a j := fun a j => by
        show (T'.slot a j).child = _
        rw [hT1]; exact hch2 a j
      refine ⟨?_, ?_, ?_, ?_, ?_, ?_, ?_⟩
      · intro i hi
        rw [hT1, hslot2, if_neg (by simp), dirLeaf_put v hq hi, if_neg (by omega)]
        exact o4 i hi
      · intro i
        rw [hTch, o5, below_put]
        refine or_congr_right ?_
        constructor
        · rintro rfl; exact ⟨by omega, rfl⟩
        · rintro ⟨-, h1⟩; exact h1.symm
      · intro b; rw [hT2, o6]; simp only [hTch]
      · intro i i' b hb hb'; rw [hTch] at hb hb'; exact o7 _ _ _ hb hb'
      · intro i b hb; rw [hTch] at hb; exact hT3 i b hb
      · intro i b hb j hj
        rw [hTch] at hb
        have hi := DirIs.child_lt o2.pool hb
        classical
        rw [hT1, hslot2, extLeaf_put v hq hi hj]
        simp only [extCovered, if_neg hl]
        by_cases h1 : i = dirIndex q.net ∧ extIndex q.net ≤ j ∧ j < extIndex q.net + 2 ^ (32 - q.len)
        · obtain ⟨rfl, h2⟩ := h1
          obtain rfl : b = b0 := Option.some.inj (hb.symm.trans o1)
          rw [if_pos ⟨rfl, hu, h2⟩, if_pos ⟨rfl, h2⟩, Slot.leaf_fanWrite, o9 _ _ hb j hj]
        · rw [if_neg h1, if_neg, o9 _ _ hb j hj]
          rintro ⟨h2, -, h3⟩
          refine h1 ⟨o7 _ _ _ hb ?_, h3⟩
          rw [SlotArray.node.inj h2]; exact o1
      · intro i b hb j hj
        rw [hTch] at hb ⊢
        exact o10 i b hb j hj
    have hpool : T.pool.length = t.pool.length + (match t.childAt .dir (dirIndex q.net) with
        | none => 1
        | some _ => 0) := by
      rw [o3]; cases t.childAt .dir (dirIndex q.net) <;> simp
    cases he : Assoc.get? ps q with
    | some x =>
      simp only [Option.isSome_some, if_true]
      refine ⟨fin _ (fun _ _ => rfl) (fun b => Table.inUse_mapSlots _ _ _ _ _ _) ?_, ha2, hlen2.trans hpool⟩
      intro i b hb
      rw [hcnt2, o8 i b hb, longUnder_put _ _ _ _ hw, if_neg (by simp [he])]; rfl
    | none =>
      simp only [Option.isSome_none, Bool.false_eq_true, if_false]
      refine ⟨fin _ (fun a j => Table.slot_setCnt _ _ _ _ _) (fun b => ?_) ?_, ha2.setCnt _ _, ?_⟩
      · rw [Table.inUse_setCnt]; exact Table.inUse_mapSlots _ _ _ _ _ _
      · intro i b hb
        rw [Table.cnt_setCnt, hcnt2, hcnt2, longUnder_put _ _ _ _ hw, o8 _ _ o1]
        have hu2 : (T.fanWrite (.node b0) (extIndex q.net) (2 ^ (32 - q.len)) v q.len).inUse b0 = true :=
          (Table.inUse_mapSlots _ _ _ _ _ _).trans hu
        by_cases h1 : b = b0
        · subst h1
          obtain rfl := o7 _ _ _ hb o1
          rw [if_pos ⟨rfl, hu2⟩, if_pos ⟨by omega, rfl, he⟩]
        · rw [if_neg (fun h2 => h1 h2.1), o8 i b hb, if_neg]
          · rfl
          · rintro ⟨-, h2, -⟩
            rw [h2] at o1
            exact h1 (Option.some.inj (hb.symm.trans o1))
      · exact (Table.length_updateBlock ha2.pool.sorted _ _).trans (hlen2.trans hpool)

theorem bestBelow_tag {ps : PrefixStore} {w len a : Nat} {l : Leaf} (h : bestBelow ps w 0 len a = some l) :
    l.tag ≠ len := by
  have := (bestSearch_tag h).2.1
  omega

theorem Table.d24Delete_ok {t : Table} {ps : PrefixStore} {n : Nat} (h : DirIs t ps) (ha : t.Acct n)
    (hw : Assoc.wf Prefix.before ps = true) {q : Prefix} {v : Word} (hq : Fits 32 q)
    (hmem : Assoc.get? ps q = some v) (hps : t.prefixes = Assoc.erase ps q) :
    DirIs (t.d24Delete q.net q.len) (Assoc.erase ps q) ∧ (t.d24Delete q.net q.len).Acct n := by
  unfold Table.d24Delete
  have hi0 := dirIndex_lt hq.2.1
  by_cases hl : q.len ≤ 24
  · simp only [if_pos hl, hps]
    obtain ⟨g1, g2, -⟩ := DirIs.mapShort h ha (Slot.child_fanClear _ _) (Slot.leaf_fanClear _ _)
      (Slot.fanClear_twice q.len (bestBelow (Assoc.erase ps q) 32 0 q.len q.net) fun l hl => bestBelow_tag hl)
      (dir_range hq hl) (ps' := Assoc.erase ps q)
      (by intro i hi; rw [dirLeaf_erase hq hi]; simp only [hl, true_and])
      (by
        intro i j hi hj
        classical
        rw [extLeaf_erase hq hi hj]
        simp only [extCovered, if_pos hl])
      (by
        intro i
        have := longUnder_erase ps q i hw hmem
        rw [if_neg (by omega)] at this
        omega)
    exact ⟨g1, g2⟩
  · simp only [if_neg hl, hps]
    have hbel : below ps 32 3 (dirIndex q.net) = true := below_of_get? hmem (by omega)
    obtain ⟨b0, o1⟩ := Option.isSome_iff_exists.1 ((h.child (dirIndex q.net)).2 hbel)
    have hxb : t.extBlock (dirIndex q.net) = b0 := by unfold Table.extBlock; rw [o1]; rfl
    rw [hxb]
    have hwf := ha.pool.arraysWf
    have hu : t.inUse b0 = true := (h.reached b0).2 ⟨_, o1⟩
    generalize hsh : bestBelow (Assoc.erase ps q) 32 0 q.len q.net = sh
    have ha1 : (t.fanClear (.node b0) (extIndex q.net) (2 ^ (32 - q.len)) q.len sh).Acct n :=
      ha.mapSlots _ (ext_range hq (by omega)) _
    have hu1 : (t.fanClear (.node b0) (extIndex q.net) (2 ^ (32 - q.len)) q.len sh).inUse b0 = true :=
      (Table.inUse_mapSlots _ _ _ _ _ _).trans hu
    have hcnt1 : ∀ b, ((t.fanClear (.node b0) (extIndex q.net) (2 ^ (32 - q.len)) q.len sh).block b).cnt =
      (t.block b).cnt := Table.cnt_mapSlots _ _ _ _ _
    have hslot1 := Table.slot_mapSlots hwf (.node b0) (extIndex q.net) (2 ^ (32 - q.len)) (Slot.fanClear q.len sh)
    have hch1 := Table.childAt_mapSlots hwf (.node b0) (extIndex q.net) (2 ^ (32 - q.len)) (Slot.fanClear q.len sh)
      (Slot.child_fanClear _ _)
    have ha2 := ha1.setCnt b0 (((t.fanClear (.node b0) (extIndex q.net) (2 ^ (32 - q.len)) q.len sh).block b0).cnt - 1)
    have hle := longUnder_erase ps q
    have hcnt2 : ∀ i b, t.childAt .dir i = some b →
        (((t.fanClear (.node b0) (extIndex q.net) (2 ^ (32 - q.len)) q.len sh).setCnt b0
          (((t.fanClear (.node b0) (extIndex q.net) (2 ^ (32 - q.len)) q.len sh).block b0).cnt - 1)).block b).cnt =
          longUnder (Assoc.erase ps q) i := by
      intro i b hb
      have h1 := hle i hw hmem
      rw [Table.cnt_setCnt, hcnt1, hcnt1, h.cnt _ _ o1]
      by_cases hbb : b = b0
      · subst hbb
        obtain rfl := h.one _ _ _ hb o1
        rw [if_pos ⟨rfl, hu1⟩]
        rw [if_pos ⟨by omega, rfl⟩] at h1
        omega
      · rw [if_neg (fun h2 => hbb h2.1), h.cnt i b hb]
        rw [if_neg] at h1
        · omega
        · rintro ⟨-, h2⟩
          rw [h2] at o1
          exact hbb (Option.some.inj (hb.symm.trans o1))
    have hslot2 : ∀ a j, ((t.fanClear (.node b0) (extIndex q.net) (2 ^ (32 - q.len)) q.len sh).setCnt b0
          (((t.fanClear (.node b0) (extIndex q.net) (2 ^ (32 - q.len)) q.len sh).block b0).cnt - 1)).slot a j =
        (t.mapSlots (.node b0) (extIndex q.net) (2 ^ (32 - q.len)) (Slot.fanClear q.len sh)).slot a j :=
      fun a j => Table.slot_setCnt _ _ _ _ _
    have huse2 : ∀ b, ((t.fanClear (.node b0) (extIndex q.net) (2 ^ (32 - q.len)) q.len sh).setCnt b0
          (((t.fanClear (.node b0) (extIndex q.net) (2 ^ (32 - q.len)) q.len sh).block b0).cnt - 1)).inUse b =
        t.inUse b := fun b => (Table.inUse_setCnt _ _ _ _).trans (Table.inUse_mapSlots _ _ _ _ _ _)
    generalize (t.fanClear (.node b0) (extIndex q.net) (2 ^ (32 - q.len)) q.len sh).setCnt b0
          (((t.fanClear (.node b0) (extIndex q.net) (2 ^ (32 - q.len)) q.len sh).block b0).cnt - 1) = T at *
    have hTch : ∀ a j, T.childAt a j = t.childAt a j := fun a j => by
      show (T.slot a j).child = _
      rw [hslot2]; exact hch1 a j
    have hTdir : ∀ i, i < 16777216 → (T.slot .dir i).leaf = best (Assoc.erase ps q) 32 0 24 (i <<< 8) := by
      intro i hi
      rw [hslot2, hslot1, if_neg (by simp), dirLeaf_erase hq hi, if_neg (by omega)]
      exact h.leaf i hi
    have hText : ∀ i b, t.childAt .dir i = some b → ∀ j, j < 256 →
        (T.slot (.node b) j).leaf = best (Assoc.erase ps q) 32 0 32 (256 * i + j) := by
      intro i b hb j hj
      have hi := DirIs.child_lt ha.pool hb
      classical
      rw [hslot2, hslot1, extLeaf_erase hq hi hj]
      simp only [extCovered, if_neg hl]
      by_cases h1 : i = dirIndex q.net ∧ extIndex q.net ≤ j ∧ j < extIndex q.net + 2 ^ (32 - q.len)
      · obtain ⟨rfl, h2⟩ := h1
        obtain rfl : b = b0 := Option.some.inj (hb.symm.trans o1)
        rw [if_pos ⟨rfl, hu, h2⟩, if_pos ⟨rfl, h2⟩, Slot.leaf_fanClear, h.ext _ _ hb j hj, hsh]
      · rw [if_neg h1, if_neg, h.ext _ _ hb j hj]
        rintro ⟨h2, -, h3⟩
        refine h1 ⟨h.one _ _ _ hb ?_, h3⟩
        rw [SlotArray.node.inj h2]; exact o1
    have hbelow : ∀ i, below (Assoc.erase ps q) 32 3 i = true ↔ longUnder (Assoc.erase ps q) i ≠ 0 :=
      fun i => longUnder_pos.symm
    have hother : ∀ i, i ≠ dirIndex q.net → longUnder (Assoc.erase ps q) i = longUnder ps i := by
      intro i hi
      have h1 := hle i hw hmem
      rw [if_neg (fun h2 => hi h2.2.symm)] at h1
      omega
    rw [hcnt2 _ _ o1]
    split_ifs with hz
    · -- the last long prefix under the slot: the block is freed
      have hu2 : T.inUse b0 = true := (huse2 b0).trans hu
      have hfr := (ha2.freeBlock hu2).1
      have ha3 := hfr.setChild .dir (j := dirIndex q.net) (by unfold arraySize dirSlots; omega) none
      have hch : ∀ i, ((T.freeBlock b0).setChild .dir (dirIndex q.net) none).childAt .dir i =
          if i = dirIndex q.net then none else t.childAt .dir i := by
        intro i
        rw [Table.childAt_setChild hfr.pool.arraysWf]
        by_cases h1 : i = dirIndex q.net
        · rw [if_pos h1, if_pos ⟨rfl, rfl, h1⟩]
        · rw [if_neg h1, if_neg (fun h2 => h1 h2.2.2), ← hTch]
          unfold Table.childAt
          rw [Table.slot_freeBlock, if_neg (by simp)]
      have hslotD : ∀ i, (((T.freeBlock b0).setChild .dir (dirIndex q.net) none).slot .dir i).leaf =
          (T.slot .dir i).leaf := by
        intro i
        rw [Table.leaf_setChild hfr.pool.arraysWf, Table.slot_freeBlock, if_neg (by simp)]
      have hslotN : ∀ b, b ≠ b0 → ∀ j, ((T.freeBlock b0).setChild .dir (dirIndex q.net) none).slot (.node b) j =
          T.slot (.node b) j := by
        intro b hbb j
        rw [Table.setChild, Table.slot_mapSlots hfr.pool.arraysWf, if_neg (by simp), Table.slot_freeBlock,
          if_neg (by simpa using hbb)]
      have hcb : ∀ {i b}, (if i = dirIndex q.net then none else t.childAt .dir i) = some b →
          t.childAt .dir i = some b ∧ i ≠ dirIndex q.net ∧ b ≠ b0 := by
        intro i b hb
        split_ifs at hb with h1
        refine ⟨hb, h1, ?_⟩
        rintro rfl
        exact h1 (h.one _ _ _ hb o1)
      refine ⟨⟨?_, ?_, ?_, ?_, ?_, ?_, ?_⟩, ha3⟩
      · intro i hi; rw [hslotD]; exact hTdir i hi
      · intro i
        rw [hch, hbelow]
        by_cases h1 : i = dirIndex q.net
        · rw [if_pos h1, h1, hz]; simp
        · rw [if_neg h1, h.child, hother i h1, longUnder_pos]
      · intro b
        rw [Table.inUse_setChild, Table.inUse_freeBlock, Bool.and_eq_true, decide_eq_true_eq, huse2, h.reached]
        simp only [hch]
        constructor
        · rintro ⟨hbb, i, hi⟩
          refine ⟨i, ?_⟩
          rw [if_neg, hi]
          rintro rfl
          exact hbb (Option.some.inj (hi.symm.trans o1))
        · rintro ⟨i, hi⟩
          obtain ⟨h1, -, h3⟩ := hcb hi
          exact ⟨h3, i, h1⟩
      · intro i i' b hb hb'
        rw [hch] at hb hb'
        exact h.one _ _ _ (hcb hb).1 (hcb hb').1
      · intro i b hb
        rw [hch] at hb
        obtain ⟨h1, h2, h3⟩ := hcb hb
        rw [Table.setChild, Table.cnt_mapSlots, Table.block_freeBlock, if_neg h3, hcnt2 i b h1]
      · intro i b hb j hj
        rw [hch] at hb
        obtain ⟨h1, h2, h3⟩ := hcb hb
        rw [hslotN b h3]
        exact hText i b h1 j hj
      · intro i b hb j hj
        rw [hch] at hb
        obtain ⟨h1, h2, h3⟩ := hcb hb
        show (((T.freeBlock b0).setChild .dir (dirIndex q.net) none).slot (.node b) j).child = none
        rw [hslotN b h3]
        exact (hTch _ _).trans (h.flat i b h1 j hj)
    · refine ⟨⟨hTdir, ?_, ?_, ?_, ?_, ?_, ?_⟩, ha2⟩
      · intro i
        rw [hTch, hbelow, h.child]
        by_cases h1 : i = dirIndex q.net
        · rw [h1]; exact ⟨fun _ => hz, fun _ => hbel⟩
        · rw [hother i h1, longUnder_pos]
      · intro b; rw [huse2, h.reached]; simp only [hTch]
      · intro i i' b hb hb'; rw [hTch] at hb hb'; exact h.one _ _ _ hb hb'
      · intro i b hb; rw [hTch] at hb; exact hcnt2 i b hb
      · intro i b hb j hj; rw [hTch] at hb; exact hText i b hb j hj
      · intro i b hb j hj; rw [hTch] at hb ⊢; exact h.flat i b hb j hj

/-- What a lookup reads of the DIR-24-8 layout of a store (10_state.md R37). -/
structure DirReads (t : Table) (ps : PrefixStore) : Prop where
  leaf : ∀ i, i < 16777216 → (t.slot .dir i).leaf = best ps 32 0 24 (i <<< 8)
  child : ∀ i, i < 16777216 → ((t.childAt .dir i).isSome = true ↔ below ps 32 3 i = true)
  ext : ∀ i b, t.childAt .dir i = some b → ∀ j, j < 256 → (t.slot (.node b) j).leaf = best ps 32 0 32 (256 * i + j)

theorem DirIs.reads {t : Table} {ps : PrefixStore} (h : DirIs t ps) : DirReads t ps :=
  ⟨h.leaf, fun i _ => h.child i, h.ext⟩

/-- 10_state.md R37 gives what a DIR-24-8 lookup reads. -/
theorem Table.Dir24Canonical.reads {t : Table} (h : t.Dir24Canonical) : DirReads t t.prefixes :=
  ⟨fun i hi => (h.direct i hi).1, fun i hi => Bool.eq_iff_iff.1 (h.direct i hi).2,
    fun i b hb j hj => ((h.extension i b hb).2 j hj).1⟩

/-- `d24_lookup(A)` is `LPM(P, A)` (40_commands_common.md R141). -/
theorem Table.d24Lookup_eq {t : Table} {ps : PrefixStore} (h : DirReads t ps) {a : Nat} (ha : a < 2 ^ 32) :
    t.d24Lookup a = lpm ps 32 a := by
  have hi := dirIndex_lt ha
  have hj : extIndex a < 256 := by rw [extIndex_eq]; omega
  have hs := dir_split a
  unfold Table.d24Lookup lpm
  cases hc : t.childAt .dir (dirIndex a) with
  | some b =>
    simp only
    rw [h.ext _ _ hc _ hj, ← hs]
  | none =>
    simp only
    have hnb : below ps 32 3 (dirIndex a) = false := by rw [← Bool.not_eq_true, ← h.child _ hi, hc]; simp
    rw [h.leaf _ hi, ← best_of_not_below hi hj hnb, ← hs]

end Sys2Proof.Machine
end

