-- ==== Sys2Proof/Laws/NodeCount.lean ====
section
/-! SUPPORT. How many blocks a layout has in use, and how many an INSERT adds (40_commands_common.md R144). -/

namespace Sys2Proof.Machine

theorem mem_nodePaths {ps : PrefixStore} {w lo hi k p : Nat} :
    (k, p) ∈ nodePaths ps w lo hi ↔ lo ≤ k ∧ k ≤ hi ∧ below ps w k p = true := by
  unfold nodePaths
  rw [List.mem_dedup, List.mem_flatMap]
  simp only [List.mem_map, List.mem_filter, List.mem_range'_1, decide_eq_true_eq, Prod.mk.injEq, below_iff]
  constructor
  · rintro ⟨e, he, k', ⟨⟨h1, h2⟩, h3⟩, rfl, rfl⟩
    exact ⟨h1, by omega, e, he, h3, rfl⟩
  · rintro ⟨h1, h2, e, he, h3, rfl⟩
    exact ⟨e, he, k, ⟨⟨h1, by omega⟩, h3⟩, rfl, rfl⟩

theorem nodup_nodePaths (ps : PrefixStore) (w lo hi : Nat) : (nodePaths ps w lo hi).Nodup := List.nodup_dedup _

theorem Assoc.nodup_keys {κ α : Type} {before : κ → κ → Bool} (ho : KeyOrder before) {m : Assoc κ α}
    (hw : Assoc.wf before m = true) : (m.map Prod.fst).Nodup := by
  induction m with
  | nil => simp
  | cons e m ih =>
    obtain ⟨a, v⟩ := e
    have hw' := (Assoc.wf_cons before a v m).1 hw
    rw [List.map_cons, List.nodup_cons]
    refine ⟨?_, ih hw'.2⟩
    rw [List.mem_map]
    rintro ⟨e, he, heq⟩
    have := hw'.1 e he
    rw [heq, ho.irrefl] at this; cases this

/-- The blocks in use are as many as the places that have one. -/
theorem Table.length_pool {t : Table} (hw : Assoc.wf natBefore t.pool = true) {S : List (Nat × Nat)} (hS : S.Nodup)
    (blk : Nat × Nat → Option Nat) (hdef : ∀ x ∈ S, (blk x).isSome = true)
    (huse : ∀ b, t.inUse b = true ↔ ∃ x ∈ S, blk x = some b)
    (hinj : ∀ x y b, blk x = some b → blk y = some b → x = y) : t.pool.length = S.length := by
  have hkeys := Assoc.nodup_keys natBefore_order hw
  have hget : ∀ x ∈ S, blk x = some ((blk x).getD 0) := fun x hx => by
    obtain ⟨b, hb⟩ := Option.isSome_iff_exists.1 (hdef x hx)
    rw [hb]; rfl
  have hmap : (S.map fun x => (blk x).getD 0).Nodup := by
    refine List.Nodup.map_on (fun x hx y hy hxy => ?_) hS
    refine hinj x y _ (hget x hx) ?_
    rw [hxy]; exact hget y hy
  have hperm : (t.pool.map Prod.fst).Perm (S.map fun x => (blk x).getD 0) := by
    rw [List.perm_ext_iff_of_nodup hkeys hmap]
    intro b
    have h1 : b ∈ t.pool.map Prod.fst ↔ t.inUse b = true := by
      unfold Table.inUse
      rw [List.mem_map]
      constructor
      · rintro ⟨⟨b', blk'⟩, he, rfl⟩; exact Assoc.get?_isSome_of_mem he
      · intro h
        obtain ⟨v, hv⟩ := Option.isSome_iff_exists.1 h
        exact ⟨(b, v), Assoc.mem_of_get? hv, rfl⟩
    rw [h1, huse, List.mem_map]
    constructor
    · rintro ⟨x, hx, hb⟩; exact ⟨x, hx, by rw [hb]; rfl⟩
    · rintro ⟨x, hx, rfl⟩; exact ⟨x, hx, hget x hx⟩
  have := hperm.length_eq
  simpa using this

theorem Table.length_stride8 {t : Table} {ps : PrefixStore} {w n : Nat} (h : TrieFor t t.trieRoot ps w 0)
    (ha : t.Acct n) (hs : StoreFits w ps) (hw : w % 8 = 0) (h0 : 0 < w) :
    t.pool.length = nodesOf .stride8 w ps := by
  have hroot : ∀ k p, t.nodeFrom t.trieRoot k p ≠ none ↔
      (k, p) ∈ (0, 0) :: nodePaths ps w 1 (w / 8 - 1) := by
    intro k p
    rw [← Option.isSome_iff_ne_none, h.exist, List.mem_cons, mem_nodePaths, Prod.mk.injEq]
    unfold NodeAt
    rw [Nat.zero_add]
    split_ifs with hk
    · simp [hk]
    · constructor
      · intro h1
        have := (below_level hs hw h1).1
        exact .inr ⟨by omega, by omega, h1⟩
      · rintro (h1 | h1)
        · exact absurd h1.1 hk
        · exact h1.2.2
  have := Table.length_pool ha.pool.sorted (S := (0, 0) :: nodePaths ps w 1 (w / 8 - 1))
    (by
      rw [List.nodup_cons]
      refine ⟨?_, nodup_nodePaths _ _ _ _⟩
      rw [mem_nodePaths]; omega)
    (fun x => t.nodeFrom t.trieRoot x.1 x.2)
    (fun x hx => Option.isSome_iff_ne_none.2 ((hroot x.1 x.2).2 hx))
    (fun b => by
      rw [h.reached]
      constructor
      · rintro ⟨d, p, hb⟩; exact ⟨(d, p), (hroot d p).1 (by rw [hb]; simp), hb⟩
      · rintro ⟨x, -, hb⟩; exact ⟨x.1, x.2, hb⟩)
    (fun x y b hx hy => by
      obtain ⟨h1, h2⟩ := h.onePath _ _ _ _ _ hx hy
      exact Prod.ext h1 h2)
  rw [this, List.length_cons, Nat.add_comm]; rfl

theorem Table.length_wide16 {t : Table} {ps : PrefixStore} {n : Nat} (h : WideIs t ps)
    (ha : t.Acct n) (hs : StoreFits 128 ps) : t.pool.length = nodesOf .wide16 128 ps := by
  have hat : ∀ d p, t.nodeFrom t.subRoots d p ≠ none ↔ (2 + d, p) ∈ nodePaths ps 128 2 15 := by
    intro d p
    rw [← Option.isSome_iff_ne_none, h.trie.exist, mem_nodePaths]
    unfold NodeAt
    rw [if_neg (by omega)]
    constructor
    · intro h1
      have := (below_level hs (by norm_num) h1).1
      exact ⟨by omega, by omega, h1⟩
    · exact fun h1 => h1.2.2
  have := Table.length_pool ha.pool.sorted (nodup_nodePaths ps 128 2 15)
    (fun x => if 2 ≤ x.1 then t.nodeFrom t.subRoots (x.1 - 2) x.2 else none)
    (fun x hx => by
      have h2 := (mem_nodePaths.1 hx).1
      rw [if_pos h2, Option.isSome_iff_ne_none, hat, show 2 + (x.1 - 2) = x.1 by omega]; exact hx)
    (fun b => by
      rw [h.trie.reached]
      constructor
      · rintro ⟨d, p, hb⟩
        refine ⟨(2 + d, p), (hat d p).1 (by rw [hb]; simp), ?_⟩
        rw [if_pos (by simp)]
        simpa using hb
      · rintro ⟨x, hx, hb⟩
        split_ifs at hb
        exact ⟨_, _, hb⟩)
    (fun x y b hx hy => by
      split_ifs at hx with h1
      split_ifs at hy with h2
      obtain ⟨h3, h4⟩ := h.trie.onePath _ _ _ _ _ hx hy
      exact Prod.ext (by omega) h4)
  exact this

theorem Table.length_dir24 {t : Table} {ps : PrefixStore} {n : Nat} (h : DirIs t ps) (ha : t.Acct n) :
    t.pool.length = nodesOf .dir24 32 ps := by
  have hmem : ∀ k p, (k, p) ∈ nodePaths ps 32 3 3 ↔ k = 3 ∧ t.childAt .dir p ≠ none := by
    intro k p
    rw [mem_nodePaths, ← Option.isSome_iff_ne_none, h.child]
    constructor
    · rintro ⟨h1, h2, h3⟩
      obtain rfl : k = 3 := by omega
      exact ⟨rfl, h3⟩
    · rintro ⟨rfl, h3⟩; exact ⟨le_rfl, le_rfl, h3⟩
  exact Table.length_pool ha.pool.sorted (nodup_nodePaths ps 32 3 3)
    (fun x => if x.1 = 3 then t.childAt .dir x.2 else none)
    (fun x hx => by
      obtain ⟨h1, h2⟩ := (hmem x.1 x.2).1 hx
      rw [if_pos h1, Option.isSome_iff_ne_none]; exact h2)
    (fun b => by
      rw [h.reached]
      constructor
      · rintro ⟨i, hb⟩; exact ⟨(3, i), (hmem 3 i).2 ⟨rfl, by rw [hb]; simp⟩, by rw [if_pos rfl]; exact hb⟩
      · rintro ⟨x, hx, hb⟩
        split_ifs at hb
        exact ⟨_, hb⟩)
    (fun x y b hx hy => by
      split_ifs at hx with h1
      split_ifs at hy with h2
      exact Prod.ext (h1.trans h2.symm) (h.one _ _ _ hx hy))

/-! ### What an INSERT adds -/

/-- The places of levels `lo .. hi` after an INSERT: those there were, and those on its path that were not. -/
theorem length_nodePaths_put (ps : PrefixStore) (q : Prefix) (v : Word) (w lo hi : Nat) :
    (nodePaths (Assoc.put Prefix.before ps q v) w lo hi).length = (nodePaths ps w lo hi).length +
      ((List.range' lo (hi + 1 - lo)).filter fun k =>
        decide (8 * k < q.len) && !below ps w k (path w q.net k)).length := by
  have hperm : (nodePaths (Assoc.put Prefix.before ps q v) w lo hi).Perm (nodePaths ps w lo hi ++
      (((List.range' lo (hi + 1 - lo)).filter fun k =>
        decide (8 * k < q.len) && !below ps w k (path w q.net k)).map fun k => (k, path w q.net k))) := by
    rw [List.perm_ext_iff_of_nodup (nodup_nodePaths _ _ _ _)]
    · rintro ⟨k, p⟩
      rw [mem_nodePaths, List.mem_append, mem_nodePaths, below_put, List.mem_map]
      simp only [List.mem_filter, List.mem_range'_1, Bool.and_eq_true, decide_eq_true_eq, Bool.not_eq_eq_eq_not,
        Bool.not_true, Prod.mk.injEq]
      constructor
      · rintro ⟨h1, h2, h3⟩
        by_cases hb : below ps w k p = true
        · exact .inl ⟨h1, h2, hb⟩
        · rcases h3 with h3 | ⟨h3, rfl⟩
          · exact absurd h3 hb
          · exact .inr ⟨k, ⟨⟨h1, by omega⟩, h3, by simpa using hb⟩, rfl, rfl⟩
      · rintro (⟨h1, h2, h3⟩ | ⟨k', ⟨⟨h1, h2⟩, h3, h4⟩, rfl, rfl⟩)
        · exact ⟨h1, h2, .inl h3⟩
        · exact ⟨h1, by omega, .inr ⟨h3, rfl⟩⟩
    · rw [List.nodup_append]
      refine ⟨nodup_nodePaths _ _ _ _, ?_, ?_⟩
      · refine List.Nodup.map_on (fun x _ y _ hxy => (Prod.mk.inj hxy).1) (List.Nodup.filter _ List.nodup_range')
      · rintro ⟨k, p⟩ h1 y h2 rfl
        rw [mem_nodePaths] at h1
        rw [List.mem_map] at h2
        obtain ⟨k', hk', heq⟩ := h2
        obtain ⟨rfl, rfl⟩ := Prod.mk.inj heq
        simp only [List.mem_filter, Bool.and_eq_true, Bool.not_eq_eq_eq_not, Bool.not_true] at hk'
        rw [hk'.2.2] at h1
        exact absurd h1.2.2 (by simp)
  rw [hperm.length_eq, List.length_append, List.length_map]

/-- A walk lacks the blocks of the levels at which the path has none. -/
theorem Table.missing_eq {t : Table} {R : Nat → Option Nat} {w N c : Nat} (steps : Nat) : ∀ d b, t.nodeFrom R d (path w N (c + d)) = some b →
      8 * (c + d + steps) ≤ w →
      t.missing w N steps (c + d) b = ((List.range' (d + 1) steps).filter fun i =>
        (t.nodeFrom R i (path w N (c + i))).isNone).length := by
  induction steps with
  | zero => intro d b _ _; rfl
  | succ steps ih =>
    intro d b hb hw
    have hps := path_succ (w := w) (n := N) (k := c + d) (by omega)
    have hchild := Table.nodeFrom_child hb (byte_lt (w := w) (n := N) (k := c + d) (by omega))
    rw [← hps] at hchild
    simp only [Table.missing]
    cases hc : t.childAt (.node b) (byte w N (c + d)) with
    | none =>
      rw [hc] at hchild
      have hall : ∀ i, i ∈ List.range' (d + 1) (steps + 1) → (t.nodeFrom R i (path w N (c + i))).isNone = true := by
        intro i hi
        rw [List.mem_range'_1] at hi
        obtain ⟨hi1, hi2⟩ := hi
        obtain ⟨e, rfl⟩ : ∃ e, i = d + 1 + e := ⟨i - (d + 1), by omega⟩
        clear hi1
        induction e with
        | zero => rw [Nat.add_zero, ← Nat.add_assoc, hchild]; rfl
        | succ e ih2 =>
          have := ih2 (by omega)
          rw [← Nat.add_assoc, Table.nodeFrom_succ, show c + (d + 1 + e + 1) = c + (d + 1 + e) + 1 by omega,
            path_parent (by omega), Option.isNone_iff_eq_none.1 this]
          rfl
      simp only
      rw [List.filter_eq_self.2 hall, List.length_range']
    | some m =>
      rw [hc] at hchild
      simp only
      have := ih (d + 1) m hchild (by omega)
      rw [← Nat.add_assoc] at this
      rw [this, List.range'_succ, List.filter_cons, if_neg]
      rw [← Nat.add_assoc, hchild]; simp

theorem Table.s8Need_eq {t : Table} {ps : PrefixStore} {w : Nat} (h : TrieFor t t.trieRoot ps w 0)
    (hw : w % 8 = 0) (h0 : 0 < w) {q : Prefix} (v : Word) (hq : Fits w q) :
    nodesOf .stride8 w (Assoc.put Prefix.before ps q v) = nodesOf .stride8 w ps + t.s8Need w q.net q.len := by
  have hkt := terminalLevel_le hq.1 hw h0
  have hm := Table.missing_eq (t := t) (R := t.trieRoot) (w := w) (N := q.net) (c := 0) (terminalLevel q.len) 0 t.rootb
    (by rw [path_zero hq.2.1]; rfl) (by omega)
  simp only [Nat.zero_add] at hm
  unfold nodesOf Table.s8Need
  simp only
  rw [length_nodePaths_put, hm, Nat.add_assoc]
  congr 2
  have hsplit : List.range' 1 (w / 8 - 1 + 1 - 1) =
      List.range' 1 (terminalLevel q.len) ++ List.range' (1 + terminalLevel q.len) (w / 8 - 1 - terminalLevel q.len) := by
    rw [List.range'_append_1]
    congr 1
    omega
  rw [hsplit, List.filter_append, List.length_append]
  have h2 : ((List.range' (1 + terminalLevel q.len) (w / 8 - 1 - terminalLevel q.len)).filter fun k =>
      decide (8 * k < q.len) && !below ps w k (path w q.net k)) = [] := by
    rw [List.filter_eq_nil_iff]
    intro k hk
    rw [List.mem_range'_1] at hk
    have : ¬8 * k < q.len := by rw [lt_terminalLevel]; omega
    simp [this]
  rw [h2, List.length_nil, Nat.add_zero]
  congr 1
  refine List.filter_congr fun k hk => ?_
  rw [List.mem_range'_1] at hk
  have hlt : 8 * k < q.len := by
    rw [lt_terminalLevel]
    refine ⟨by omega, ?_⟩
    by_contra h3
    have : terminalLevel q.len = 0 := by unfold terminalLevel; rw [if_pos (by omega)]
    omega
  have he := h.exist k (path w q.net k)
  unfold NodeAt at he
  rw [Nat.zero_add, if_neg (by omega), ← Bool.eq_iff_iff] at he
  rw [← he, decide_eq_true hlt, Bool.true_and]
  cases t.nodeFrom t.trieRoot k (path w q.net k) <;> rfl

theorem Table.w16Need_eq {t : Table} {ps : PrefixStore} (h : WideIs t ps) {q : Prefix} (v : Word) (hq : Fits 128 q) :
    nodesOf .wide16 128 (Assoc.put Prefix.before ps q v) = nodesOf .wide16 128 ps + t.w16Need q.net q.len := by
  have hkt := terminalLevel_le hq.1 (by norm_num : 128 % 8 = 0) (by norm_num)
  have hat : ∀ d, (t.nodeFrom t.subRoots d (path 128 q.net (2 + d))).isNone =
      !below ps 128 (2 + d) (path 128 q.net (2 + d)) := by
    intro d
    have := h.trie.exist d (path 128 q.net (2 + d))
    unfold NodeAt at this
    rw [if_neg (by omega)] at this
    cases hn : t.nodeFrom t.subRoots d (path 128 q.net (2 + d)) <;> rw [hn] at this <;> simp_all
  unfold nodesOf Table.w16Need
  simp only
  rw [length_nodePaths_put]
  congr 1
  split_ifs with hl
  · rw [List.length_eq_zero_iff, List.filter_eq_nil_iff]
    intro k hk
    rw [List.mem_range'_1] at hk
    have : ¬8 * k < q.len := by omega
    simp [this]
  · have hk2 : 2 ≤ terminalLevel q.len := by unfold terminalLevel; split_ifs <;> omega
    have hsplit : List.range' 2 (15 + 1 - 2) = List.range' 2 (terminalLevel q.len - 1) ++
        List.range' (2 + (terminalLevel q.len - 1)) (15 - terminalLevel q.len) := by
      rw [List.range'_append_1]
      congr 1
      omega
    rw [hsplit, List.filter_append, List.length_append]
    have h2 : ((List.range' (2 + (terminalLevel q.len - 1)) (15 - terminalLevel q.len)).filter fun k =>
        decide (8 * k < q.len) && !below ps 128 k (path 128 q.net k)) = [] := by
      rw [List.filter_eq_nil_iff]
      intro k hk
      rw [List.mem_range'_1] at hk
      have : ¬8 * k < q.len := by rw [lt_terminalLevel]; omega
      simp [this]
    rw [h2, List.length_nil, Nat.add_zero]
    have h3 : ((List.range' 2 (terminalLevel q.len - 1)).filter fun k =>
        decide (8 * k < q.len) && !below ps 128 k (path 128 q.net k)).length =
        ((List.range' 0 (terminalLevel q.len - 1)).filter fun d =>
          (t.nodeFrom t.subRoots d (path 128 q.net (2 + d))).isNone).length := by
      have e : List.range' 2 (terminalLevel q.len - 1) = (List.range' 0 (terminalLevel q.len - 1)).map (2 + ·) := by
        rw [List.map_add_range']
      rw [e, List.filter_map, List.length_map]
      congr 1
      refine List.filter_congr fun d hd => ?_
      rw [List.mem_range'_1] at hd
      have : 8 * (2 + d) < q.len := by rw [lt_terminalLevel]; omega
      simp only [Function.comp, this, decide_true, Bool.true_and, hat]
    rw [h3]
    obtain ⟨s, hs⟩ : ∃ s, terminalLevel q.len - 1 = s + 1 := ⟨terminalLevel q.len - 2, by omega⟩
    have hs2 : terminalLevel q.len - 2 = s := by omega
    rw [hs, hs2, List.range'_succ, List.filter_cons]
    cases hc : t.childAt .root16 (rootIndex q.net) with
    | none =>
      have h0 : t.nodeFrom t.subRoots 0 (path 128 q.net (2 + 0)) = none := hc
      have hall : ∀ i, i ∈ List.range' (0 + 1) s → (t.nodeFrom t.subRoots i (path 128 q.net (2 + i))).isNone = true := by
        intro i hi
        rw [List.mem_range'_1] at hi
        have hi2 := hi.2
        clear hi
        induction i with
        | zero => rw [h0]; rfl
        | succ i ih2 =>
          have := ih2 (by omega)
          rw [Table.nodeFrom_succ, show 2 + (i + 1) = 2 + i + 1 by omega, path_parent (by omega),
            Option.isNone_iff_eq_none.1 this]
          rfl
      rw [h0, List.filter_eq_self.2 hall]
      simp
    | some b =>
      have h0 : t.nodeFrom t.subRoots 0 (path 128 q.net (2 + 0)) = some b := hc
      have := Table.missing_eq (t := t) (R := t.subRoots) (w := 128) (N := q.net) (c := 2) s 0 b h0 (by omega)
      rw [h0, if_neg (by simp)]
      exact this.symm

theorem Table.d24Need_eq {t : Table} {ps : PrefixStore} (h : DirIs t ps) (q : Prefix) (v : Word) :
    nodesOf .dir24 32 (Assoc.put Prefix.before ps q v) = nodesOf .dir24 32 ps + t.d24Need q.net q.len := by
  unfold nodesOf Table.d24Need
  simp only
  rw [length_nodePaths_put]
  congr 1
  have hc := h.child (dirIndex q.net)
  rw [dirIndex_path] at hc ⊢
  have e : List.range' 3 (3 + 1 - 3) = [3] := rfl
  rw [e, List.filter_cons, List.filter_nil]
  split_ifs with hl h1 h1
  · have : 8 * 3 < q.len := by simp_all
    omega
  · have hb : below ps 32 3 (path 32 q.net 3) = false := by simp_all
    rw [hb] at hc
    cases hd : t.childAt .dir (path 32 q.net 3) with
    | none => rfl
    | some b => rw [hd] at hc; simp at hc
  · rfl
  · have hb : below ps 32 3 (path 32 q.net 3) = true := by
      have : 8 * 3 < q.len := by omega
      simp_all
    rw [hb] at hc
    cases hd : t.childAt .dir (path 32 q.net 3) with
    | none => rw [hd] at hc; simp at hc
    | some b => rfl

end Sys2Proof.Machine
end

