-- ==== Sys2Proof/Laws/PerInstr.lean ====
section
/-! SUPPORT. Laws about commands as syntax, one lemma for each constructor. -/

namespace Sys2Proof.Laws

/-- The word of a well-formed command is its opcode and its fields, side by side and with no bit lost
(30_encoding.md R91). -/
def EncodeKeepsFields.Statement (i : Instr) : Prop :=
  i.wellFormed = true → (encode i).toNat = i.opcode + i.fieldBits ∧ (encode i).toNat % 16 = i.opcode

theorem EncodeKeepsFields.construct (algo : AlgoTag) (family : Family) (strict : Bool) :
    EncodeKeepsFields.Statement (.construct algo family strict) := fun _ => by
  cases algo <;> cases family <;> cases strict <;> decide

theorem EncodeKeepsFields.insert (len : Nat) : EncodeKeepsFields.Statement (.insert len) := fun h => by
  simp only [Instr.wellFormed, decide_eq_true_eq] at h
  simp only [encode, Instr.opcode, Instr.fieldBits, BitVec.toNat_ofNat, Nat.shiftLeft_eq]
  omega

theorem EncodeKeepsFields.delete (len : Nat) : EncodeKeepsFields.Statement (.delete len) := fun h => by
  simp only [Instr.wellFormed, decide_eq_true_eq] at h
  simp only [encode, Instr.opcode, Instr.fieldBits, BitVec.toNat_ofNat, Nat.shiftLeft_eq]
  omega

theorem EncodeKeepsFields.lookup : EncodeKeepsFields.Statement .lookup := fun _ => by decide

theorem EncodeKeepsFields.lookupBatch (count : Nat) : EncodeKeepsFields.Statement (.lookupBatch count) := fun h => by
  simp only [Instr.wellFormed, decide_eq_true_eq] at h
  simp only [encode, Instr.opcode, Instr.fieldBits, BitVec.toNat_ofNat, Nat.shiftLeft_eq]
  omega

theorem EncodeKeepsFields.stats : EncodeKeepsFields.Statement .stats := fun _ => by decide

theorem EncodeKeepsFields.close : EncodeKeepsFields.Statement .close := fun _ => by decide

end Sys2Proof.Laws
end

