-- ==== Sys2Proof/Laws/TableOk.lean ====
section
/-! SUPPORT. The table between two commands: what making it, a prefix stored or removed, and a lookup do, whatever the
layout. -/

namespace Sys2Proof.Machine

/-! ### Operands -/

theorem assemble_lt (f : Family) (w0 w1 w2 w3 : Word) : assemble f w0 w1 w2 w3 < 2 ^ Family.width f := by
  cases f
  · exact w0.isLt
  · exact (w0 ++ w1 ++ w2 ++ w3).isLt

theorem State.keyAddress_lt (s : State) : s.keyAddress < 2 ^ s.table.width := assemble_lt _ _ _ _ _

theorem State.binAddress_lt (s : State) (i : Nat) : s.binAddress i < 2 ^ s.table.width := assemble_lt _ _ _ _ _

/-- What passes validation is a canonical prefix (40_commands_common.md R130). -/
theorem validate_fits {w : Nat} {strict : Bool} {n len : Nat} (hn : n < 2 ^ w) {p : Prefix}
    (h : validate w strict n len = some p) : Fits w p ∧ p = ⟨len, canon w n len⟩ := by
  unfold validate at h
  split_ifs at h with h1
  obtain rfl := Option.some.inj h
  have hl : len ≤ w := by omega
  exact ⟨⟨hl, canon_lt hn hl, canon_canon hn hl⟩, rfl⟩

/-! ### The layout of a store -/

/-- The slot arrays and the pool of the table are the layout of the store `ps`. -/
def Laid (t : Table) (ps : PrefixStore) : Prop :=
  match t.algo with
  | .stride8 => TrieFor t t.trieRoot ps t.width 0
  | .dir24 => DirIs t ps
  | .wide16 => WideIs t ps

theorem legal_width {t : Table} (h : legalPair t.algo t.family) :
    (t.algo = .dir24 → t.width = 32) ∧ (t.algo = .wide16 → t.width = 128) := by
  unfold Table.width
  rcases h with ⟨h1, h2⟩ | ⟨h1, h2⟩ | ⟨h1, h2⟩ | ⟨h1, h2⟩ <;> rw [h1, h2] <;> simp [Family.width]

theorem laid_iff {t : Table} {n : Nat} (hl : legalPair t.algo t.family) (hp : t.PoolOk n)
    (hs : StoreFits t.width t.prefixes) : (t.Tree ∧ t.Canonical) ↔ Laid t t.prefixes := by
  obtain ⟨h1, h2⟩ := legal_width hl
  unfold Table.Canonical Laid
  cases ha : t.algo with
  | stride8 => exact Table.stride8_trie ha
  | dir24 => exact Table.dir24_is ha hp (h1 ha ▸ hs)
  | wide16 => exact Table.wide16_trie ha (h2 ha)

theorem Table.StoreOk.fits {m : Nat} {t : Table} (h : t.StoreOk m) : StoreFits t.width t.prefixes := fun e he => by
  obtain ⟨h1, h2, h3, -⟩ := h.entries e he
  exact ⟨h1, h2, h3⟩

/-- The table's accounts. -/
theorem Table.Ok.acct {ps : Params} {t : Table} (h : t.Ok ps) (hp : ps.Legal) : t.Acct ps.nNodes :=
  ⟨h.pool, h.counters.nodes, hp.1.2⟩

theorem Table.Ok.laid {ps : Params} {t : Table} (h : t.Ok ps) (ho : t.life = .opened) : Laid t t.prefixes :=
  (laid_iff (h.legal ho) h.pool h.store.fits).1 ⟨h.tree ho, h.canonical ho⟩

/-- An open table is well formed when its store, its accounts and its layout are. -/
theorem Table.Ok.of_laid {ps : Params} {t : Table} (ho : t.life = .opened) (hl : legalPair t.algo t.family)
    (hs : t.StoreOk ps.maxPrefixes) (ha : t.Acct ps.nNodes) (hlaid : Laid t t.prefixes)
    (hn : t.numPfx.toNat = t.prefixes.length) (hw : t.numWide = if t.algo = .wide16 then 1#32 else 0#32) : t.Ok ps := by
  have := (laid_iff hl ha.pool hs.fits).2 hlaid
  refine ⟨hs, ha.pool, ⟨hn, ha.nodes, ?_⟩, ?_, fun _ => hl, fun _ => this.1, fun _ => this.2⟩
  · rw [hw, ho]; simp
  · rw [ho]; intro h; cases h

/-- The layout reads only the slot arrays, the pool, `ROOTB` and the configuration. -/
theorem Laid.congr {t t' : Table} {ps : PrefixStore} (h : Laid t ps) (h1 : t'.algo = t.algo) (h2 : t'.family = t.family)
    (h3 : t'.pool = t.pool) (h4 : t'.rootb = t.rootb) (h5 : t'.dir = t.dir) (h6 : t'.root16 = t.root16) :
    Laid t' ps := by
  unfold Laid at *
  rw [h1]
  cases ha : t.algo with
  | stride8 =>
    rw [ha] at h
    simp only at h ⊢
    have e1 : t'.width = t.width := by unfold Table.width; rw [h2]
    have e2 : t'.trieRoot = t.trieRoot := by funext p; unfold Table.trieRoot; rw [h4]
    rw [e1, e2]
    exact h.of_pool h3
  | dir24 =>
    rw [ha] at h
    simp only at h ⊢
    have e : ∀ a j, a ≠ .root16 → t'.slot a j = t.slot a j := by
      intro a j hne
      cases a with
      | node b => show (t'.block b).slots.get j = (t.block b).slots.get j; unfold Table.block; rw [h3]
      | dir => show t'.dir.get j = t.dir.get j; rw [h5]
      | root16 => exact absurd rfl hne
    have ed : ∀ i, t'.childAt .dir i = t.childAt .dir i := fun i => by
      unfold Table.childAt; rw [e _ _ (by simp)]
    have en : ∀ b i, t'.childAt (.node b) i = t.childAt (.node b) i := fun b i => by
      unfold Table.childAt; rw [e _ _ (by simp)]
    have eu : ∀ b, t'.inUse b = t.inUse b := fun b => by unfold Table.inUse; rw [h3]
    have eb : ∀ b, t'.block b = t.block b := fun b => by unfold Table.block; rw [h3]
    refine ⟨?_, ?_, ?_, ?_, ?_, ?_, ?_⟩
    · intro i hi; rw [e _ _ (by simp)]; exact h.leaf i hi
    · intro i; rw [ed]; exact h.child i
    · intro b; rw [eu, h.reached]; simp only [ed]
    · intro i i' b hb hb'; rw [ed] at hb hb'; exact h.one _ _ _ hb hb'
    · intro i b hb; rw [ed] at hb; rw [eb]; exact h.cnt i b hb
    · intro i b hb j hj; rw [ed] at hb; rw [e _ _ (by simp)]; exact h.ext i b hb j hj
    · intro i b hb j hj; rw [ed] at hb; rw [en]; exact h.flat i b hb j hj
  | wide16 =>
    rw [ha] at h
    simp only at h ⊢
    refine ⟨?_, h.leaves.congr h6⟩
    rw [Table.subRoots_congr h6]
    exact h.trie.of_pool h3

/-! ### The layout procedures, whatever the layout -/

theorem Laid.insert {t : Table} {n : Nat} (h : Laid t t.prefixes) (ha : t.Acct n) (hl : legalPair t.algo t.family)
    (hs : StoreFits t.width t.prefixes) (hw : Assoc.wf Prefix.before t.prefixes = true) {q : Prefix} (v : Word)
    (hq : Fits t.width q) (hroom : t.pool.length + t.need q ≤ n) :
    Laid (t.layoutInsert n q v (t.stores q)) (Assoc.put Prefix.before t.prefixes q v) ∧
      (t.layoutInsert n q v (t.stores q)).Acct n := by
  have hhead := Table.head_layoutInsert t n q v (t.stores q)
  have e1 : (t.layoutInsert n q v (t.stores q)).algo = t.algo := Table.head_algo hhead
  have e2 : (t.layoutInsert n q v (t.stores q)).width = t.width := Table.head_width hhead
  have e3 : (t.layoutInsert n q v (t.stores q)).trieRoot = t.trieRoot := by
    funext p; unfold Table.trieRoot; rw [Table.head_rootb hhead]
  obtain ⟨w1, w2⟩ := width_facts t.family
  obtain ⟨l1, l2⟩ := legal_width hl
  unfold Laid at h ⊢
  rw [e1, e2, e3]
  unfold Table.need at hroom
  unfold Table.layoutInsert
  cases hal : t.algo with
  | stride8 =>
    rw [hal] at h hroom
    simp only at h hroom ⊢
    obtain ⟨g1, g2, -⟩ := Table.s8Insert_ok h ha hs w1 w2 v hq hroom
    exact ⟨g1, g2⟩
  | dir24 =>
    rw [hal] at h hroom
    simp only at h hroom ⊢
    rw [l1 hal] at hs hq
    obtain ⟨g1, g2, -⟩ := Table.d24Insert_ok h ha hw v hq hroom
    exact ⟨g1, g2⟩
  | wide16 =>
    rw [hal] at h hroom
    simp only at h hroom ⊢
    rw [l2 hal] at hs hq
    obtain ⟨g1, g2, -⟩ := Table.w16Insert_ok h ha hs v hq hroom
    exact ⟨g1, g2⟩

theorem Laid.delete {t : Table} {n : Nat} (h : Laid t t.prefixes) (ha : t.Acct n) (hl : legalPair t.algo t.family)
    (hs : StoreFits t.width t.prefixes) (hw : Assoc.wf Prefix.before t.prefixes = true) {q : Prefix} {v : Word}
    (hq : Fits t.width q) (hmem : Assoc.get? t.prefixes q = some v) :
    Laid (t.deletePrefix q) (Assoc.erase t.prefixes q) ∧ (t.deletePrefix q).Acct n := by
  have hhead : (t.deletePrefix q).head = (t.removePrefix q).head := Table.head_layoutDelete _ _
  have e1 : (t.deletePrefix q).algo = t.algo := Table.head_algo (t := t.removePrefix q) hhead
  have e2 : (t.deletePrefix q).width = t.width := Table.head_width (t := t.removePrefix q) hhead
  have e3 : (t.deletePrefix q).trieRoot = (t.removePrefix q).trieRoot := by
    funext p; unfold Table.trieRoot; rw [Table.head_rootb hhead]
  have h' : Laid (t.removePrefix q) t.prefixes := h.congr rfl rfl rfl rfl rfl rfl
  have ha' : (t.removePrefix q).Acct n := ha.of_pool rfl rfl rfl rfl
  obtain ⟨w1, w2⟩ := width_facts t.family
  obtain ⟨l1, l2⟩ := legal_width hl
  have ea : (t.removePrefix q).algo = t.algo := rfl
  unfold Laid at h' ⊢
  rw [e1, e2, e3]
  rw [ea] at h'
  unfold Table.deletePrefix Table.layoutDelete
  rw [ea]
  cases hal : t.algo with
  | stride8 =>
    rw [hal] at h'
    exact Table.s8Delete_ok (t := t.removePrefix q) h' ha' hs w1 w2 hq hmem rfl
  | dir24 =>
    rw [hal] at h'
    rw [l1 hal] at hs hq
    exact Table.d24Delete_ok (t := t.removePrefix q) h' ha' hw hq hmem rfl
  | wide16 =>
    rw [hal] at h'
    rw [l2 hal] at hs hq
    exact Table.w16Delete_ok (t := t.removePrefix q) h' ha' hs hq hmem rfl

/-- `layout_lookup(A)` is `LPM(P, A)` (40_commands_common.md R141). -/
theorem Laid.lookup {t : Table} (h : Laid t t.prefixes) (hl : legalPair t.algo t.family) {a : Nat}
    (ha : a < 2 ^ t.width) : t.layoutLookup a = lpm t.prefixes t.width a := by
  obtain ⟨w1, w2⟩ := width_facts t.family
  obtain ⟨l1, l2⟩ := legal_width hl
  unfold Laid at h
  unfold Table.layoutLookup
  cases hal : t.algo with
  | stride8 => rw [hal] at h; exact Table.s8Lookup_eq h.reads w1 w2 ha
  | dir24 => rw [hal] at h; rw [l1 hal] at ha ⊢; exact Table.d24Lookup_eq h.reads ha
  | wide16 => rw [hal] at h; rw [l2 hal] at ha ⊢; exact Table.w16Lookup_eq h.trie.reads h.leaves ha

/-- The blocks in use are as many as the store's nodes (40_commands_common.md R144). -/
theorem Laid.nodes {t : Table} {n : Nat} (h : Laid t t.prefixes) (ha : t.Acct n) (hl : legalPair t.algo t.family)
    (hs : StoreFits t.width t.prefixes) : t.pool.length = nodesOf t.algo t.width t.prefixes := by
  obtain ⟨w1, w2⟩ := width_facts t.family
  obtain ⟨l1, l2⟩ := legal_width hl
  unfold Laid at h
  cases hal : t.algo with
  | stride8 => rw [hal] at h; exact Table.length_stride8 h ha hs w1 w2
  | dir24 => rw [hal] at h; rw [l1 hal]; exact Table.length_dir24 h ha
  | wide16 => rw [hal] at h; rw [l2 hal] at hs ⊢; exact Table.length_wide16 h ha hs

/-- `need(N, L)` is the difference of the node counts (40_commands_common.md R144). -/
theorem Laid.need {t : Table} (h : Laid t t.prefixes) (hl : legalPair t.algo t.family) {q : Prefix} (v : Word)
    (hq : Fits t.width q) : nodesOf t.algo t.width (Assoc.put Prefix.before t.prefixes q v) =
      nodesOf t.algo t.width t.prefixes + t.need q := by
  obtain ⟨w1, w2⟩ := width_facts t.family
  obtain ⟨l1, l2⟩ := legal_width hl
  unfold Laid at h
  unfold Table.need
  cases hal : t.algo with
  | stride8 => rw [hal] at h; exact Table.s8Need_eq h w1 w2 v hq
  | dir24 => rw [hal] at h; rw [l1 hal]; exact Table.d24Need_eq h q v
  | wide16 => rw [hal] at h; rw [l2 hal] at hq ⊢; exact Table.w16Need_eq h v hq

/-! ### The table's well-formedness -/

theorem Table.Ok.insert {ps : Params} {t : Table} (h : t.Ok ps) (hp : ps.Legal) (ho : t.life = .opened) {q : Prefix}
    {v : Word} (hq : Fits t.width q) (hv : v ≠ sentinel) (hcap : t.stores q = true ∨ t.prefixes.length < ps.maxPrefixes)
    (hroom : t.pool.length + t.need q ≤ ps.nNodes) : (t.insertPrefix ps.nNodes q v).Ok ps := by
  have hl := h.legal ho
  have hlaid := h.laid ho
  obtain ⟨g1, g2⟩ := hlaid.insert (h.acct hp) hl h.store.fits h.store.sorted v hq hroom
  have hhead := Table.head_layoutInsert t ps.nNodes q v (t.stores q)
  have e1 : (t.insertPrefix ps.nNodes q v).algo = t.algo :=
    Table.head_algo (t' := t.layoutInsert ps.nNodes q v (t.stores q)) hhead
  have e2 : (t.insertPrefix ps.nNodes q v).family = t.family :=
    Table.head_family (t' := t.layoutInsert ps.nNodes q v (t.stores q)) hhead
  have e3 : (t.insertPrefix ps.nNodes q v).prefixes = Assoc.put Prefix.before t.prefixes q v := by
    show Assoc.put Prefix.before (t.layoutInsert ps.nNodes q v (t.stores q)).prefixes q v = _
    rw [Table.head_prefixes hhead]
  have e4 : (t.insertPrefix ps.nNodes q v).width = t.width := by unfold Table.width; rw [e2]
  have hlen : (Assoc.put Prefix.before t.prefixes q v).length =
      if t.stores q then t.prefixes.length else t.prefixes.length + 1 :=
    Assoc.length_put prefixBefore_order h.store.sorted q v
  have hle : (Assoc.put Prefix.before t.prefixes q v).length ≤ ps.maxPrefixes := by
    rw [hlen]
    have := h.store.bounded
    split_ifs with hst
    · exact this
    · rcases hcap with hc | hc
      · exact absurd hc hst
      · omega
  refine Table.Ok.of_laid ((Table.head_life hhead).trans ho) (by rw [e1, e2]; exact hl) ?_
    (g2.of_pool rfl rfl rfl rfl) ?_ ?_ ?_
  · refine ⟨?_, ?_, ?_⟩
    · rw [e3]; exact Assoc.wf_put prefixBefore_order h.store.sorted _ _
    · rw [e3, e4]
      intro e he
      rcases Assoc.mem_put he with rfl | he
      · exact ⟨hq.1, hq.2.1, hq.2.2, hv⟩
      · exact h.store.entries e he
    · rw [e3]; exact hle
  · rw [e3]; exact g1.congr rfl rfl rfl rfl rfl rfl
  · rw [e3]
    have e5 : (t.insertPrefix ps.nNodes q v).numPfx = if t.stores q then t.numPfx else t.numPfx + 1#32 := by
      show (if t.stores q then (t.layoutInsert ps.nNodes q v (t.stores q)).numPfx
        else (t.layoutInsert ps.nNodes q v (t.stores q)).numPfx + 1#32) = _
      rw [Table.head_numPfx hhead]
    rw [e5, hlen]
    rw [hlen] at hle
    have h1 := h.counters.pfx
    have h2 := hp.2.1.2
    split_ifs at hle ⊢ with hst
    · exact h1
    · rw [BitVec.toNat_add, h1]
      simp only [BitVec.toNat_ofNat]
      omega
  · rw [e1]
    have e6 : (t.insertPrefix ps.nNodes q v).numWide = t.numWide :=
    Table.head_numWide (t' := t.layoutInsert ps.nNodes q v (t.stores q)) hhead
    rw [e6, h.counters.wide, ho]; simp

theorem Table.Ok.delete {ps : Params} {t : Table} (h : t.Ok ps) (hp : ps.Legal) (ho : t.life = .opened) {q : Prefix}
    (hq : Fits t.width q) (hst : t.stores q = true) : (t.deletePrefix q).Ok ps := by
  have hl := h.legal ho
  have hlaid := h.laid ho
  obtain ⟨v, hmem⟩ := Option.isSome_iff_exists.1 hst
  obtain ⟨g1, g2⟩ := hlaid.delete (h.acct hp) hl h.store.fits h.store.sorted hq hmem
  have hhead : (t.deletePrefix q).head = (t.removePrefix q).head := Table.head_layoutDelete _ _
  have e1 : (t.deletePrefix q).algo = t.algo :=
    Table.head_algo (t := t.removePrefix q) hhead
  have e2 : (t.deletePrefix q).family = t.family :=
    Table.head_family (t := t.removePrefix q) hhead
  have e3 : (t.deletePrefix q).prefixes = Assoc.erase t.prefixes q := Table.head_prefixes hhead
  have e4 : (t.deletePrefix q).width = t.width :=
    Table.head_width (t := t.removePrefix q) hhead
  have hlen := Assoc.length_erase prefixBefore_order h.store.sorted q hst
  refine Table.Ok.of_laid ((Table.head_life hhead).trans ho) (by rw [e1, e2]; exact hl) ?_ g2 ?_ ?_ ?_
  · refine ⟨?_, ?_, ?_⟩
    · rw [e3]; exact Assoc.wf_erase h.store.sorted _
    · rw [e3, e4]
      exact fun e he => h.store.entries e (Assoc.mem_erase.1 he).1
    · rw [e3]; have := h.store.bounded; omega
  · rw [e3]; exact g1
  · rw [e3]
    have e5 : (t.deletePrefix q).numPfx = t.numPfx - 1#32 := Table.head_numPfx hhead
    have h1 := h.counters.pfx
    have h2 := t.numPfx.isLt
    rw [e5, BitVec.toNat_sub, h1]
    simp only [BitVec.toNat_ofNat]
    omega
  · rw [e1]
    have e6 : (t.deletePrefix q).numWide = t.numWide :=
    Table.head_numWide (t := t.removePrefix q) hhead
    rw [e6, h.counters.wide, ho]; simp

/-- The empty trie, direct table or root is the layout of the empty store (40_commands_common.md R124). -/
theorem Table.Ok.construct {ps : Params} {t : Table} (h : t.PoolOk ps.nNodes) (hp : ps.Legal) {a : Algo} {f : Family}
    (strict : Bool) (hl : legalPair a f) : (t.construct ps.nNodes a f strict).Ok ps := by
  have hlatch : (t.latch a f strict).Acct ps.nNodes :=
    ⟨⟨rfl, (by intro e he; cases he), (by intro e he; cases he), h.dir, h.root16⟩, rfl, hp.1.2⟩
  have hno : ∀ b, (t.latch a f strict).inUse b = false := fun b => rfl
  have hsort : Assoc.wf Prefix.before ([] : PrefixStore) = true := rfl
  have hbelow : ∀ w k p, ¬below [] w k p = true := fun w k p => by simp [below]
  have hmax : 0 ≤ ps.maxPrefixes := Nat.zero_le _
  cases a with
  | stride8 =>
    have hroom : (t.latch .stride8 f strict).pool.length < ps.nNodes := hp.1.1
    obtain ⟨ha1, -⟩ := hlatch.allocBlock hroom
    obtain ⟨hfree, -⟩ := Table.pickFree_spec hlatch.pool hroom
    have hc : t.construct ps.nNodes .stride8 f strict =
        { ((t.latch .stride8 f strict).allocBlock ps.nNodes).2 with
          rootb := (t.latch .stride8 f strict).pickFree ps.nNodes } := rfl
    rw [hc]
    refine Table.Ok.of_laid rfl hl ⟨hsort, (by intro e he; cases he), hmax⟩ (ha1.of_pool rfl rfl rfl rfl) ?_ rfl rfl
    have hch : ∀ b j, Table.childAt { ((t.latch .stride8 f strict).allocBlock ps.nNodes).2 with
          rootb := (t.latch .stride8 f strict).pickFree ps.nNodes } (.node b) j = none := by
      intro b j
      have e : Table.childAt { ((t.latch .stride8 f strict).allocBlock ps.nNodes).2 with
          rootb := (t.latch .stride8 f strict).pickFree ps.nNodes } (.node b) j =
          (((t.latch .stride8 f strict).allocBlock ps.nNodes).2.slot (.node b) j).child := rfl
      rw [e, Table.slot_allocBlock hlatch.pool hroom]
      exact Table.not_inUse_childAt (hno b) j
    have hnode : ∀ d p, Table.nodeFrom { ((t.latch .stride8 f strict).allocBlock ps.nNodes).2 with
          rootb := (t.latch .stride8 f strict).pickFree ps.nNodes } (Table.trieRoot { ((t.latch .stride8 f strict).allocBlock ps.nNodes).2 with
          rootb := (t.latch .stride8 f strict).pickFree ps.nNodes }) d p =
        if d = 0 ∧ p = 0 then some ((t.latch .stride8 f strict).pickFree ps.nNodes) else none := by
      intro d p
      cases d with
      | zero => simp [Table.nodeFrom, Table.trieRoot]
      | succ d =>
        rw [Table.nodeFrom_succ, if_neg (by omega), Option.bind_eq_none_iff]
        intro b _
        exact hch b _
    show TrieIs _ _ _ _
    refine ⟨?_, ?_, ?_, ?_, ?_⟩
    · intro d p
      rw [hnode]
      unfold NodeAt
      rw [Nat.zero_add]
      have hb := hbelow (Family.width f) d p
      by_cases hd : d = 0
      · by_cases hp0 : p = 0 <;> simp [hd, hp0]
      · rw [if_neg (fun h1 => hd h1.1), if_neg hd]
        simp [below]
    · intro b
      simp only [hnode]
      have e : Table.inUse { ((t.latch .stride8 f strict).allocBlock ps.nNodes).2 with
          rootb := (t.latch .stride8 f strict).pickFree ps.nNodes } b =
          (((t.latch .stride8 f strict).allocBlock ps.nNodes).2).inUse b := rfl
      rw [e, Table.inUse_allocBlock, hno, Bool.or_false, decide_eq_true_eq]
      constructor
      · rintro rfl; exact ⟨0, 0, by simp⟩
      · rintro ⟨d, p, hb⟩
        split_ifs at hb
        exact (Option.some.inj hb).symm
    · intro d p d' p' b hb hb'
      rw [hnode] at hb hb'
      split_ifs at hb with h1
      split_ifs at hb' with h2
      exact ⟨h1.1.trans h2.1.symm, h1.2.trans h2.2.symm⟩
    · intro d p b hb
      have e : (Table.block { ((t.latch .stride8 f strict).allocBlock ps.nNodes).2 with
          rootb := (t.latch .stride8 f strict).pickFree ps.nNodes } b) =
          ((t.latch .stride8 f strict).allocBlock ps.nNodes).2.block b := rfl
      rw [e, Table.block_allocBlock]
      split_ifs
      · rfl
      · rw [Table.block_of_not_inUse (hno b)]; rfl
    · intro d p b hb j hj
      have e : Table.slot { ((t.latch .stride8 f strict).allocBlock ps.nNodes).2 with
          rootb := (t.latch .stride8 f strict).pickFree ps.nNodes } (.node b) j =
          ((t.latch .stride8 f strict).allocBlock ps.nNodes).2.slot (.node b) j := rfl
      rw [e, Table.slot_allocBlock hlatch.pool hroom]
      have e2 : (t.latch .stride8 f strict).slot (.node b) j = ((t.latch .stride8 f strict).block b).slots.get j := rfl
      rw [e2, Table.block_of_not_inUse (hno b)]
      unfold leafAt best
      exact (bestSearch_nil _ _ _ _).symm
  | dir24 =>
    have hc : t.construct ps.nNodes .dir24 f strict = { t.latch .dir24 f strict with dir := [] } := rfl
    rw [hc]
    refine Table.Ok.of_laid rfl hl ⟨hsort, (by intro e he; cases he), hmax⟩
      ⟨⟨rfl, (by intro e he; cases he), (by intro e he; cases he), ArrayOk.nil _, h.root16⟩, rfl, hp.1.2⟩ ?_ rfl rfl
    have hch : ∀ i, Table.childAt { t.latch .dir24 f strict with dir := [] } .dir i = none := fun _ => rfl
    show DirIs _ _
    refine ⟨?_, ?_, ?_, ?_, ?_, ?_, ?_⟩
    · intro i _; unfold best; exact (bestSearch_nil _ _ _ _).symm
    · intro i; rw [hch]; simp [below]
    · intro b
      simp only [hch]
      have e : Table.inUse { t.latch .dir24 f strict with dir := [] } b = false := rfl
      rw [e]; simp
    · intro i i' b hb; rw [hch] at hb; cases hb
    · intro i b hb; rw [hch] at hb; cases hb
    · intro i b hb; rw [hch] at hb; cases hb
    · intro i b hb; rw [hch] at hb; cases hb
  | wide16 =>
    have hc : t.construct ps.nNodes .wide16 f strict = { t.latch .wide16 f strict with root16 := [], numWide := 1#32 } :=
      rfl
    rw [hc]
    refine Table.Ok.of_laid rfl hl ⟨hsort, (by intro e he; cases he), hmax⟩
      ⟨⟨rfl, (by intro e he; cases he), (by intro e he; cases he), h.dir, ArrayOk.nil _⟩, rfl, hp.1.2⟩ ?_ rfl rfl
    have hnode : ∀ d p, Table.nodeFrom { t.latch .wide16 f strict with root16 := [], numWide := 1#32 }
        (Table.subRoots { t.latch .wide16 f strict with root16 := [], numWide := 1#32 }) d p = none := by
      intro d
      induction d with
      | zero => intro p; rfl
      | succ d ih => intro p; rw [Table.nodeFrom_succ, ih]; rfl
    show WideIs _ _
    refine ⟨⟨?_, ?_, ?_, ?_, ?_⟩, ?_⟩
    · intro d p
      rw [hnode]
      unfold NodeAt
      rw [if_neg (by omega)]
      simp [below]
    · intro b
      simp only [hnode]
      have e : Table.inUse { t.latch .wide16 f strict with root16 := [], numWide := 1#32 } b = false := rfl
      rw [e]; simp
    · intro d p d' p' b hb; rw [hnode] at hb; cases hb
    · intro d p b hb; rw [hnode] at hb; cases hb
    · intro d p b hb; rw [hnode] at hb; cases hb
    · intro r _; unfold best; exact (bestSearch_nil _ _ _ _).symm

/-- A closed table is well formed (40_commands_common.md R126). -/
theorem Table.Ok.shut {ps : Params} {t : Table} (h : t.PoolOk ps.nNodes) : t.shut.Ok ps := by
  refine ⟨⟨rfl, (by intro e he; cases he), Nat.zero_le _⟩,
    ⟨rfl, (by intro e he; cases he), (by intro e he; cases he), h.dir, h.root16⟩, ⟨rfl, rfl, rfl⟩,
    fun _ => ⟨rfl, rfl, rfl, rfl, rfl⟩, ?_, ?_, ?_⟩ <;> intro h1 <;> cases h1

theorem Table.Ok.reset (ps : Params) (picks : List Nat) : Table.Ok ps { Table.reset with picks := picks } := by
  refine ⟨⟨rfl, (by intro e he; cases he), Nat.zero_le _⟩,
    ⟨rfl, (by intro e he; cases he), (by intro e he; cases he), ArrayOk.nil _, ArrayOk.nil _⟩, ⟨rfl, rfl, rfl⟩,
    fun _ => ⟨rfl, rfl, rfl, rfl, rfl⟩, ?_, ?_, ?_⟩ <;> intro h1 <;> cases h1

end Sys2Proof.Machine
end

