-- ==== Sys2Proof/Tests/Slice0.lean ====
section
/-! SUPPORT. Tests: the well-formedness checks, words written out from the encoding, one or two small runs for each
command with the values of 95_test_vectors.md, and for each statement a state that meets its hypotheses. -/

open Sys2Proof Sys2Proof.Machine

namespace Sys2Proof.Tests

/-! ### Small states -/

/-- The parameters of programs P1 to P4 (95_test_vectors.md); `MAX_PREFIXES` is no matter there. -/
def params : Params := ⟨16, 1000, 8⟩

/-- Reset, with these parameters. -/
def shutEngine : State := { State.reset with params := params }

/-- An engine with a new empty table. -/
def openAs (a : Algo) (f : Family) (strict : Bool) : State :=
  shutEngine.withTable (shutEngine.table.construct 16 a f strict)

/-- The engine with one more prefix. -/
def withRoute (s : State) (p : Prefix) (nh : Word) : State := s.withTable (s.table.insertPrefix 16 p nh)

/-- Next-hop and address operands. -/
def keyed (s : State) (k0 nh : Word) : State := { s with key0 := k0, nh := nh }

/-- The next operation. -/
def withOp (s : State) (op : HostOp) : State := { s with pending := [op] }

/-- 95_test_vectors.md, E1: 192.168.0.0/16, 192.168.1.0/24, 192.168.1.128/25. -/
def routes4 (s : State) : State :=
  withRoute (withRoute (withRoute s ⟨16, 0xC0A80000⟩ 16#32) ⟨24, 0xC0A80100⟩ 24#32) ⟨25, 0xC0A80180⟩ 25#32

/-- E1 on Stride8. -/
def trie4 : State := routes4 (openAs .stride8 .ipv4 false)

/-- E1 on DIR-24-8. -/
def dir4 : State := routes4 (openAs .dir24 .ipv4 false)

/-- 95_test_vectors.md, E2, on Wide16: 2001:db8::/32, 2001:db8:1::/48. -/
def wide6 : State :=
  withRoute (withRoute (openAs .wide16 .ipv6 false) ⟨32, 0x20010DB8000000000000000000000000⟩ 32#32)
    ⟨48, 0x20010DB8000100000000000000000000⟩ 48#32

/-- What a command makes of a state, if it ends in a next state. -/
def after (i : Instr) (s : State) : Option State :=
  match exec i s with
  | .next t => some t
  | .fault _ => none
  | .refused _ => none

theorem inv_shut : shutEngine.Inv :=
  ⟨by decide, Table.Ok.reset params [], ⟨rfl, fun _ he => by cases he⟩, ⟨rfl, fun _ he => by cases he⟩⟩

theorem inv_open {a : Algo} {f : Family} (strict : Bool) (h : legalPair a f) : (openAs a f strict).Inv :=
  ⟨inv_shut.params, Table.Ok.construct (ps := params) inv_shut.table.pool inv_shut.params strict h, inv_shut.bin,
    inv_shut.bout⟩

theorem inv_route {s : State} (h : s.Inv) {p : Prefix} {nh : Word}
    (hc : s.params = params ∧ s.table.life = .opened ∧ nh ≠ sentinel ∧ p.len ≤ s.table.width ∧ p.net < 2 ^ s.table.width ∧
      canon s.table.width p.net p.len = p.net ∧ s.table.prefixes.length < 1000 ∧
      s.table.pool.length + s.table.need p ≤ 16) : (withRoute s p nh).Inv := by
  obtain ⟨h1, h2, h3, h4, h5, h6, h7, h8⟩ := hc
  have hok := h.table
  rw [h1] at hok
  have hok' : (s.table.insertPrefix 16 p nh).Ok params :=
    Table.Ok.insert hok (by decide) h2 ⟨h4, h5, h6⟩ h3 (.inr h7) h8
  refine ⟨h.params, ?_, h.bin, h.bout⟩
  show Table.Ok s.params _
  rw [h1]
  exact hok'

theorem inv_trie4 : trie4.Inv :=
  inv_route (inv_route (inv_route (inv_open false (by decide)) (by decide)) (by decide)) (by decide)

theorem inv_dir4 : dir4.Inv :=
  inv_route (inv_route (inv_route (inv_open false (by decide)) (by decide)) (by decide)) (by decide)

theorem inv_wide6 : wide6.Inv :=
  inv_route (inv_route (inv_open false (by decide)) (by decide)) (by decide)

/-! ### Well-formedness -/

theorem test_insert_length_too_long_for_its_field : (Instr.insert 256).wellFormed = false := by decide

theorem test_delete_length_too_long_for_its_field : (Instr.delete 256).wellFormed = false := by decide

theorem test_batch_count_too_large_for_its_field : (Instr.lookupBatch (2 ^ 24)).wellFormed = false := by decide

/-! ### Words written out from the formats of 30_encoding.md R91 (values of 95_test_vectors.md 2.1) -/

theorem test_decode_construct_stride8 : decode 0b0000_0000_0000_0000_0000_0000_0000_0001#32 =
    .instr (.construct .stride8 .ipv4 false) := by decide

theorem test_decode_construct_dir24_strict : decode 0b0000_0000_0000_0000_0000_0000_1001_0001#32 =
    .instr (.construct .dir24 .ipv4 true) := by decide

theorem test_decode_construct_wide16 : decode 0b0000_0000_0000_0000_0000_0000_0110_0001#32 =
    .instr (.construct .wide16 .ipv6 false) := by decide

theorem test_decode_construct_algo3 : decode 0b0000_0000_0000_0000_0000_0000_1111_0001#32 =
    .instr (.construct .algo3 .ipv6 true) := by decide

theorem test_decode_insert : decode 0b0000_0000_0000_0000_1111_1111_0000_0010#32 = .instr (.insert 255) := by decide

theorem test_decode_delete : decode 0b0000_0000_0000_0000_0001_1000_0000_0011#32 = .instr (.delete 24) := by decide

theorem test_decode_lookup : decode 0b0000_0000_0000_0000_0000_0000_0000_0100#32 = .instr .lookup := by decide

theorem test_decode_batch : decode 0b1111_1111_1111_1111_1111_1111_0000_0101#32 = .instr (.lookupBatch 16777215) := by
  decide

theorem test_decode_stats : decode 0b0000_0000_0000_0000_0000_0000_0000_0110#32 = .instr .stats := by decide

theorem test_decode_close : decode 0b0000_0000_0000_0000_0000_0000_0000_0111#32 = .instr .close := by decide

theorem test_decode_refuses : (decode 0x00000101#32, decode 0x00010002#32, decode 0x00000812#32, decode 0x80000004#32,
    decode 0x00000015#32, decode 0x00000000#32, decode 0xFFFFFFFF#32) =
    (.reservedBits 1, .reservedBits 2, .reservedBits 2, .reservedBits 4, .reservedBits 5, .reservedOpcode 0,
      .reservedOpcode 15) := by decide

theorem test_fetched_word_runs : (match step (State.reset.withFetchWord 32 0x11) with
    | .next t => some t.status | .fault _ => none | .refused _ => none) = some 0x30#32 := by decide

/-! ### Commands -/

/-- 95_test_vectors.md 2.2: `0xE1` gives `STATUS = 0x1D0` and the counts 0, 0, 1. -/
theorem test_construct_wide16_strict : (after (.construct .wide16 .ipv6 true) shutEngine).map
    (fun t => (t.status, t.table.numPfx, t.table.numNodes, t.table.numWide)) = some (0x1D0#32, 0#32, 0#32, 1#32) := by
  decide

/-- 95_test_vectors.md 2.2: from `0x11` open, `0x21` gives `0x37`; closed, it gives `0x06`. -/
theorem test_construct_fails : ((after (.construct .wide16 .ipv4 false) dir4).map State.status,
    (after (.construct .wide16 .ipv4 false) shutEngine).map State.status) = (some 0x37#32, some 0x06#32) := by decide

/-- P1 step 6 to 8: the third prefix takes the table to 3 prefixes and 4 nodes. -/
theorem test_insert_counts : (after (.insert 25)
    (keyed (withRoute (withRoute (openAs .stride8 .ipv4 false) ⟨16, 0xC0A80000⟩ 16#32) ⟨24, 0xC0A80100⟩ 24#32)
      0xC0A80180#32 25#32)).map (fun t => (t.code, t.table.numPfx, t.table.numNodes)) = some (.ok, 3#32, 4#32) := by
  decide

/-- P2 step 13: an insert of 192.168.1.77/24 replaces the next-hop of 192.168.1.0/24, and `KEY0` keeps its host bits. -/
theorem test_insert_replaces : (after (.insert 24) (keyed dir4 0xC0A8014D#32 0x240#32)).map
    (fun t => (t.code, t.table.numPfx, t.key0, t.table.layoutLookup 0xC0A80101)) =
    some (.ok, 3#32, 0xC0A8014D#32, 0x240#32) := by decide

/-- E1: after the delete of the /24 its addresses answer from the /16. -/
theorem test_delete_restores : (after (.delete 24) (keyed trie4 0xC0A80100#32 0xFFFFFFFF#32)).map
    (fun t => (t.code, t.table.numPfx, t.table.numNodes, t.table.layoutLookup 0xC0A80101)) =
    some (.ok, 2#32, 4#32, 16#32) := by decide

/-- P3 step 25: the delete of the /48 frees the nodes below the /32's. -/
theorem test_delete_prunes : (after (.delete 48) { wide6 with key0 := 0x20010DB8#32, key1 := 0x10000#32 }).map
    (fun t => (t.code, t.table.numPfx, t.table.numNodes)) = some (.ok, 1#32, 2#32) := by decide

/-- E1: 192.168.1.129 answers 25 on both layouts. -/
theorem test_lookup_longest : ((after .lookup (keyed trie4 0xC0A80181#32 0#32)).map State.result,
    (after .lookup (keyed dir4 0xC0A80181#32 0#32)).map State.result) = (some 25#32, some 25#32) := by decide

/-- E2: 2001:db8:ffff::1 answers 32; on a closed engine the sentinel is left. -/
theorem test_lookup_wide : ((after .lookup { wide6 with key0 := 0x20010DB8#32, key1 := 0xFFFF0000#32, key3 := 1#32 }).map
    State.result, (after .lookup { shutEngine with result := 5#32 }).map fun t => (t.result, t.code)) =
    (some 32#32, some (0xFFFFFFFF#32, .errClosed)) := by decide

/-- P1: a batch of 192.168.1.1, 192.168.1.129, 192.168.2.1. -/
theorem test_batch_answers : (after (.lookupBatch 3)
    { trie4 with bin := [(0, 0xC0A80101#32), (4, 0xC0A80181#32), (8, 0xC0A80201#32)] }).map
    (fun t => (t.code, t.bout)) = some (.ok, [(0, 24#32), (1, 25#32), (2, 16#32)]) := by decide

/-- P4 step 29: nine entries are more than the buffers hold. -/
theorem test_batch_out_of_range : (after (.lookupBatch 9) trie4).map (fun t => (t.code, t.bout)) =
    some (.errBatchRange, []) := by decide

/-- E2: two prefixes, four nodes, one wide array. -/
theorem test_stats_wide : (after .stats wide6).map (fun t => (t.code, t.statPfx, t.statNode, t.statWide)) =
    some (.ok, 2#32, 4#32, 1#32) := by decide

/-- P4 step 3. -/
theorem test_stats_closed : (after .stats shutEngine).map State.status = some 5#32 := by decide

/-- P1 step 31. -/
theorem test_close : (after .close trie4).map (fun t => (t.status, t.table.prefixes.length, t.table.inUse 0, t.table.numNodes)) =
    some (0#32, 0, false, 0#32) := by decide

/-! ### States that meet the statements' hypotheses -/

theorem meets_DecodeEncodeAgree : (Instr.insert 255).wellFormed = true ∧ (Instr.delete 0).wellFormed = true ∧
    (Instr.lookupBatch (2 ^ 24 - 1)).wellFormed = true ∧ (Instr.construct .algo3 .ipv6 true).wellFormed = true ∧
    decode 0x0000FF02#32 = .instr (.insert 255) := by decide

theorem meets_DecodeReadsTheFormats :
    (∀ n : Fin 16, (BitVec.ofNat 32 (16 * n.val + 1)).extractLsb' 0 4 = 1#4 ∧
      (BitVec.ofNat 32 (16 * n.val + 1)).extractLsb' 8 24 = 0#24 ∧
      (BitVec.ofNat 32 (16 * n.val + 1)).extractLsb' 4 2 = BitVec.ofNat 2 n.val ∧
      (BitVec.ofNat 32 (16 * n.val + 1)).extractLsb' 6 1 = BitVec.ofNat 1 (n.val / 4)) ∧
    ((0xFF02#32).extractLsb' 0 4 = 2#4 ∧ (0xFF02#32).extractLsb' 16 16 = 0#16 ∧ (0xFF02#32).extractLsb' 4 4 = 0#4) ∧
    ((0xFF03#32).extractLsb' 0 4 = 3#4 ∧ (0xFF03#32).extractLsb' 16 16 = 0#16 ∧ (0xFF03#32).extractLsb' 4 4 = 0#4) ∧
    ((4#32).extractLsb' 0 4 = 4#4 ∧ (4#32).extractLsb' 4 28 = 0#28) ∧
    ((0xFFFFFF05#32).extractLsb' 0 4 = 5#4 ∧ (0xFFFFFF05#32).extractLsb' 4 4 = 0#4) ∧
    ((6#32).extractLsb' 0 4 = 6#4 ∧ (6#32).extractLsb' 4 28 = 0#28) ∧
    ((7#32).extractLsb' 0 4 = 7#4 ∧ (7#32).extractLsb' 4 28 = 0#28) := by decide

theorem meets_RowsDecideTheCommand : ∃ r ∈ opcodeRows, r.matchesWord 0xFFFFFF05#32 = true ∧
    r.mnemonic = "LOOKUP_BATCH" := by decide

theorem meets_StepRunsTheDecodedCommand : (withOp shutEngine (.regWrite 0 0x11#32)).pending = [.regWrite 0 0x11#32] ∧
    decode 0x11#32 = .instr (.construct .dir24 .ipv4 false) := by decide

theorem meets_IllegalWordWritesOnlyTheCode : (withOp trie4 (.regWrite 0 0x101#32)).pending = [.regWrite 0 0x101#32] ∧
    (0xFFFFFFF0#32).extractLsb' 0 4 = 0#4 ∧ 8 ≤ ((8#32).extractLsb' 0 4).toNat ∧
    8 ≤ ((0xFFFFFFFF#32).extractLsb' 0 4).toNat ∧
    ∃ r ∈ opcodeRows, r.pattern.extractLsb' 0 4 = (0x101#32).extractLsb' 0 4 ∧ 0x101#32 &&& r.mask ≠ r.pattern := by
  decide

theorem meets_IdleStepKeepsTheState : shutEngine.pending = [] ∧ trie4.pending = [] := by decide

/-- The first index outside each space, where `BATCH_MAX` is 8. -/
theorem meets_OnlyOutOfRangeIndicesAreRefused : (∀ op : HostOp, (withOp trie4 op).pending = [op]) ∧
    (∃ r, step (withOp trie4 (.boutWrite 8 1#32)) = .refused r) ∧
    ∀ op ∈ [HostOp.regRead 16, .regWrite 16 1#32, .binRead 32, .binWrite 32 1#32, .boutRead 8, .boutWrite 8 1#32],
      op.OutOfRange trie4.params := by
  refine ⟨fun _ => rfl, ⟨_, rfl⟩, fun op h => ?_⟩
  fin_cases h <;> simp only [HostOp.OutOfRange] <;> decide

theorem meets_OperandRegistersStore : (withOp trie4 (.regWrite 3 5#32)).pending = [.regWrite 3 5#32] ∧ 3 ≤ 3 ∧ 3 ≤ 7 ∧
    (withOp trie4 (.regWrite 7 5#32)).pending = [.regWrite 7 5#32] ∧ 3 ≤ 7 ∧ 7 ≤ 7 ∧ 0 ≤ 15 ∧ 15 ≤ 15 := by decide

theorem meets_ReservedAndReadOnlyRegisters :
    (∀ op : HostOp, (withOp trie4 op).pending = [op]) ∧ (11 ≤ 11 ∧ 11 ≤ 15) ∧ (11 ≤ 15 ∧ 15 ≤ 15) ∧
    (∀ i ∈ [1, 2, 8, 9, 10, 11, 15], i ∈ [1, 2, 8, 9, 10] ∨ (11 ≤ i ∧ i ≤ 15)) ∧ 15 < 16 :=
  ⟨fun _ => rfl, by decide⟩

theorem meets_RegisterReadsHaveNoSideEffect : (withOp trie4 (.regRead 0)).pending = [.regRead 0] ∧ 0 ≤ 10 ∧
    (withOp trie4 (.regRead 10)).pending = [.regRead 10] ∧ 10 ≤ 10 := by decide

theorem meets_BinStoresWords : (withOp trie4 (.binWrite 0 7#32)).pending = [.binWrite 0 7#32] ∧
    0 < 4 * trie4.params.batchMax ∧ (withOp trie4 (.binWrite 31 7#32)).pending = [.binWrite 31 7#32] ∧
    31 < 4 * trie4.params.batchMax := by decide

theorem meets_BufferReadsAndBoutWrites : (∀ op : HostOp, (withOp trie4 op).pending = [op]) ∧
    0 < 4 * trie4.params.batchMax ∧ 31 < 4 * trie4.params.batchMax ∧ 0 < trie4.params.batchMax ∧
    7 < trie4.params.batchMax := ⟨fun _ => rfl, by decide⟩

/-- An open table of each layout and family, and a closed engine. -/
theorem meets_StatusFields : shutEngine.table.life = .closed ∧ trie4.table.life = .opened ∧
    trie4.table.algo = .stride8 ∧ trie4.table.family = .ipv4 ∧ dir4.table.life = .opened ∧ dir4.table.algo = .dir24 ∧
    wide6.table.life = .opened ∧ wide6.table.algo = .wide16 ∧ wide6.table.family = .ipv6 := by decide

theorem meets_AddressPacking : trie4.table.family = .ipv4 ∧ 0 < 4 ∧ 3 < 4 ∧ wide6.table.family = .ipv6 ∧ 0 < 16 ∧
    15 < 16 := by decide

theorem meets_CommandsKeepOperandRegisters : (∃ t, exec .lookup trie4 = .next t) ∧ (∃ t, exec .stats trie4 = .next t) ∧
    Instr.stats ≠ .lookup := ⟨⟨_, rfl⟩, ⟨_, rfl⟩, by decide⟩

theorem meets_Ipv4IgnoresUpperKeys : trie4.table.family = .ipv4 ∧ ∃ t, exec .lookup trie4 = .next t :=
  ⟨by decide, _, rfl⟩

theorem meets_ResetDiscardsTheTable : (withOp trie4 .reset).pending = [.reset] := rfl

theorem meets_CloseLeavesTheResetTable : trie4.Inv ∧ shutEngine.Inv := ⟨inv_trie4, inv_shut⟩

theorem meets_ConstructMakesAnEmptyTable : params.Legal ∧ trie4.params = params ∧ shutEngine.params = params ∧
    trie4.table.life = .opened ∧ shutEngine.table.life = .closed ∧ IllegalPair .algo3 .ipv4 ∧
    IllegalPair .dir24 .ipv6 ∧ IllegalPair .wide16 .ipv4 ∧ ¬IllegalPair .stride8 .ipv6 ∧ ¬IllegalPair .dir24 .ipv4 ∧
    ¬IllegalPair .wide16 .ipv6 := by decide

theorem meets_CloseReleasesTheTable : shutEngine.table.life = .closed ∧ wide6.table.life = .opened ∧
    ∃ t, exec .close wide6 = .next t ∧ ∃ u, exec (.insert 0) t = .next u := ⟨by decide, by decide, _, rfl, _, rfl⟩

theorem meets_StatsLatchesTheCounts : shutEngine.table.life = .closed ∧ dir4.table.life = .opened := by decide

theorem meets_StatsAreSnapshots :
    (∃ t, step (withOp trie4 (.regWrite 0 6#32)) = .next t ∧ t.statNode ≠ trie4.statNode) ∧
    ∃ t, step { withOp trie4 .reset with statPfx := 3#32 } = .next t ∧ t.statPfx ≠ 3#32 :=
  ⟨⟨_, rfl, by decide⟩, _, rfl, by decide⟩

/-- The shortest and the longest prefix, in a table of each family. -/
theorem meets_InsertStoresThePrefix : (keyed trie4 0#32 9#32).CanInsert 0 ∧
    (keyed trie4 0xC0A80181#32 9#32).CanInsert 32 ∧ (keyed dir4 0xC0A8014D#32 9#32).CanInsert 24 ∧
    (keyed (openAs .wide16 .ipv6 true) 1#32 9#32).CanInsert 128 := by decide

theorem meets_InsertTakesTheBlocksItNeeds : trie4.Inv ∧ (keyed trie4 0xC0A80181#32 9#32).CanInsert 32 ∧
    (keyed trie4 0xC0A80181#32 9#32).Inv :=
  ⟨inv_trie4, by decide, ⟨inv_trie4.params, inv_trie4.table, inv_trie4.bin, inv_trie4.bout⟩⟩

/-- A re-insert of 192.168.1.0/24 with another next-hop and with its own; below it stands a leaf of length 25. -/
theorem meets_ReinsertReplacesTheNextHop : (keyed dir4 0xC0A80100#32 9#32).Inv ∧
    (keyed dir4 0xC0A80100#32 9#32).table.life = .opened ∧ (keyed dir4 0xC0A80100#32 9#32).ValidPrefix 24 ∧
    (keyed dir4 0xC0A80100#32 9#32).nh ≠ sentinel ∧
    dir4.table.stores ((keyed dir4 0xC0A80100#32 9#32).operand 24) = true ∧
    (dir4.table.slot (.node 0) 0x80).leaf = some ⟨25#32, 25⟩ ∧
    Assoc.get? dir4.table.prefixes ((keyed dir4 0xC0A80100#32 24#32).operand 24) = some (keyed dir4 0xC0A80100#32 24#32).nh ∧
    0xC0A80101 < 2 ^ dir4.table.width :=
  ⟨⟨inv_dir4.params, inv_dir4.table, inv_dir4.bin, inv_dir4.bout⟩, by decide⟩

theorem meets_DeleteRemovesThePrefix : (keyed trie4 0xC0A80000#32 0#32).CanDelete 16 ∧
    (keyed dir4 0xC0A801FF#32 sentinel).CanDelete 25 ∧ { wide6 with key0 := 0x20010DB8#32 }.CanDelete 32 := by decide

theorem meets_DeleteRestoresTheNextBest : (keyed dir4 0xC0A80100#32 0#32).Inv ∧
    (keyed dir4 0xC0A80100#32 0#32).CanDelete 24 ∧
    ∃ t, exec (.delete 24) (keyed dir4 0xC0A80100#32 0#32) = .next t ∧ t.table.inUse 0 = true ∧
      ∃ u, exec .lookup { t with key0 := 0xC0A80101#32 } = .next u :=
  ⟨⟨inv_dir4.params, inv_dir4.table, inv_dir4.bin, inv_dir4.bout⟩, by decide, _, rfl, by decide, _, rfl⟩

theorem meets_LookupAnswersLpm : shutEngine.table.life = .closed ∧ wide6.Inv ∧ wide6.table.life = .opened :=
  ⟨by decide, inv_wide6, by decide⟩

/-- The tables of E1 and E2, one for each layout, with their first and last address. -/
theorem meets_CanonicalTablesAnswerLpm : ∀ s ∈ [trie4, dir4, wide6], s.table.life = .opened ∧
    legalPair s.table.algo s.table.family ∧ s.table.StoreOk 1000 ∧ s.table.Canonical ∧ 0 < 2 ^ s.table.width ∧
    2 ^ s.table.width - 1 < 2 ^ s.table.width := by
  have h : ∀ s : State, s.Inv → s.params = params ∧ s.table.life = .opened ∧ 0 < 2 ^ s.table.width ∧
      2 ^ s.table.width - 1 < 2 ^ s.table.width → s.table.life = .opened ∧ legalPair s.table.algo s.table.family ∧
      s.table.StoreOk 1000 ∧ s.table.Canonical ∧ 0 < 2 ^ s.table.width ∧ 2 ^ s.table.width - 1 < 2 ^ s.table.width :=
    fun s hi ⟨hp, ho, hw⟩ => by
      have hs := hi.table.store
      rw [hp] at hs
      exact ⟨ho, hi.table.legal ho, hs, hi.table.canonical ho, hw⟩
  intro s hs
  fin_cases hs
  · exact h _ inv_trie4 (by decide)
  · exact h _ inv_dir4 (by decide)
  · exact h _ inv_wide6 (by decide)

theorem meets_LayoutsAgree : trie4.Inv ∧ dir4.Inv ∧ trie4.table.life = .opened ∧ dir4.table.life = .opened ∧
    trie4.table.family = dir4.table.family ∧ trie4.table.prefixes = dir4.table.prefixes ∧
    trie4.keyAddress = dir4.keyAddress := ⟨inv_trie4, inv_dir4, by decide⟩

/-- The default route beside 10.0.0.0/8, and the address 11.0.0.0. -/
theorem meets_DefaultRouteAnswersTheRest :
    (keyed (withRoute (withRoute (openAs .dir24 .ipv4 false) ⟨0, 0⟩ 13#32) ⟨8, 0x0A000000⟩ 8#32) 0x0B000000#32 0#32).Inv ∧
    (∀ s, s = keyed (withRoute (withRoute (openAs .dir24 .ipv4 false) ⟨0, 0⟩ 13#32) ⟨8, 0x0A000000⟩ 8#32) 0x0B000000#32 0#32 →
      s.table.life = .opened ∧ Assoc.get? s.table.prefixes ⟨0, 0⟩ = some 13#32 ∧
      ∀ e ∈ s.table.prefixes, e.1.len ≠ 0 → ¬s.keyAddress &&& mask s.table.width e.1.len = e.1.net) := by
  have h := inv_route (nh := 8#32) (p := ⟨8, 0x0A000000⟩)
    (inv_route (nh := 13#32) (p := ⟨0, 0⟩) (inv_open (a := .dir24) (f := .ipv4) false (by decide)) (by decide)) (by decide)
  refine ⟨⟨h.params, h.table, h.bin, h.bout⟩, ?_⟩
  rintro s rfl
  decide

theorem meets_BatchIsManyLookups : trie4.table.life = .opened ∧ 0 ≤ trie4.params.batchMax ∧ 8 ≤ trie4.params.batchMax ∧
    0 < 8 ∧ 7 < 8 ∧ trie4.Inv := ⟨by decide, by decide, by decide, by decide, by decide, inv_trie4⟩

theorem meets_EmptyBatchTouchesNothing : trie4.table.life = .opened ∧ shutEngine.table.life = .closed := by decide

/-- An illegal word; an open and a closed engine; 192.168.1.77/24 in a strict table, and a length of 33; the sentinel as
next-hop; a table with room for one block only; 10.0.0.0/8, which is not stored; a batch of nine. -/
theorem meets_FailurePriority : decode 0x101#32 = .reservedBits 1 ∧ trie4.table.life = .opened ∧
    shutEngine.table.life = .closed ∧ IllegalPair .algo3 .ipv6 ∧
    ¬(keyed (openAs .stride8 .ipv4 true) 0xC0A8014D#32 0#32).ValidPrefix 24 ∧ ¬trie4.ValidPrefix 33 ∧
    trie4.ValidPrefix 32 ∧ (keyed trie4 0#32 sentinel).nh = sentinel ∧
    ¬{ keyed (openAs .stride8 .ipv4 false) 0x0A000000#32 0#32 with params := ⟨1, 1, 1⟩ }.HasRoom ⟨9, 0x0A000000⟩ ∧
    ¬{ withRoute (openAs .stride8 .ipv4 false) ⟨1, 0⟩ 7#32 with params := ⟨1, 1, 1⟩ }.HasRoom ⟨0, 0⟩ ∧
    trie4.table.stores ((keyed trie4 0x0A000000#32 0#32).operand 8) = false ∧ trie4.params.batchMax < 9 := by decide

theorem meets_FailuresKeepTheTable : (∃ t, exec .lookup shutEngine = .next t ∧ t.code ≠ .ok) ∧
    ∃ t, exec (.lookupBatch 9) trie4 = .next t ∧ t.code ≠ .ok := ⟨⟨_, rfl, by decide⟩, _, rfl, by decide⟩

theorem meets_CommandsEndWithTheirCodes : ∃ t, exec (.delete 8) trie4 = .next t := ⟨_, rfl⟩

theorem meets_LifecycleGate : shutEngine.table.life = .closed ∧ trie4.table.life = .opened := by decide

theorem meets_OnlyConstructAndCloseReconfigure :
    (∃ t, step (withOp shutEngine (.regWrite 0 0x61#32)) = .next t ∧ t.table.life ≠ shutEngine.table.life) ∧
    (∃ t, step (withOp wide6 (.regWrite 0 7#32)) = .next t ∧ t.table.algo ≠ wide6.table.algo) ∧
    ∃ t, step (withOp wide6 .reset) = .next t ∧ t.table.family ≠ wide6.table.family :=
  ⟨⟨_, rfl, by decide⟩, ⟨_, rfl, by decide⟩, _, rfl, by decide⟩

theorem meets_ParametersNeverChange : ∃ t, step (withOp trie4 (.regWrite 0 7#32)) = .next t := ⟨_, rfl⟩

theorem meets_PrefixArithmetic : 0 ≤ 32 ∧ 32 ≤ 32 ∧ 0xFFFFFFFF < 2 ^ 32 ∧ 128 ≤ 128 ∧ 2 ^ 128 - 1 < 2 ^ 128 := by
  decide

/-- 192.168.1.129 in the store of E1: the /25; from 0 to 24 the /24; from 26 on none. -/
theorem meets_BestIsTheLongest : best trie4.table.prefixes 32 0 32 0xC0A80181 = some ⟨25#32, 25⟩ ∧
    best trie4.table.prefixes 32 0 24 0xC0A80181 = some ⟨24#32, 24⟩ ∧
    best trie4.table.prefixes 32 26 32 0xC0A80181 = none ∧ best trie4.table.prefixes 32 0 32 0x0A000001 = none ∧
    0xC0A80181 &&& mask 32 25 = (⟨25, 0xC0A80180⟩ : Prefix).net := by decide

/-- The direct table, and the extension block of E1. -/
theorem meets_FanOutRules : (dir4.table.array .dir).wf = true ∧ (dir4.table.array (.node 0)).wf = true ∧
    dir4.table.inUse 0 = true ∧ SlotArray.dir ≠ .node 0 ∧
    (dir4.table.slot (.node 0) 0x7F).leaf = some ⟨24#32, 24⟩ ∧ (dir4.table.slot .dir 0).leaf = none := by decide

/-- The shortest and longest prefixes on each side of the layouts' limits. -/
theorem meets_FanOutRangesFit : ∀ e ∈ [(32, (⟨0, 0⟩ : Prefix)), (32, ⟨24, 0xFFFFFF00⟩), (32, ⟨25, 0xFFFFFF80⟩),
    (32, ⟨32, 0xFFFFFFFF⟩), (128, ⟨0, 0⟩), (128, ⟨16, 0xFFFF <<< 112⟩), (128, ⟨128, 2 ^ 128 - 1⟩)],
    (e.1 = 32 ∨ e.1 = 128) ∧ e.2.len ≤ e.1 ∧ e.2.net < 2 ^ e.1 ∧ canon e.1 e.2.net e.2.len = e.2.net := by decide

/-- A pool of sixteen blocks with one block in use. -/
theorem meets_AllocAndFree : 16 ≤ 2 ^ 32 - 1 ∧ dir4.table.PoolOk 16 ∧
    dir4.table.numNodes.toNat = dir4.table.pool.length ∧ 1 ≤ dir4.table.free 16 ∧ dir4.table.inUse 0 = true :=
  ⟨by decide, inv_dir4.table.pool, by decide, by decide, by decide⟩

theorem meets_StepKeepsTheInvariant : (withOp trie4 (.regWrite 0 7#32)).Inv ∧
    ∃ t, step (withOp trie4 (.regWrite 0 7#32)) = .next t :=
  ⟨⟨inv_trie4.params, inv_trie4.table, inv_trie4.bin, inv_trie4.bout⟩, _, rfl⟩

theorem meets_StepKeepsTheBuffers : BufferOk (4 * trie4.params.batchMax) [(0, 1#32), (31, 2#32)] ∧
    BufferOk trie4.params.batchMax [(7, 1#32)] ∧
    ∃ t, step { withOp trie4 (.binWrite 5 9#32) with bin := [(0, 1#32), (31, 2#32)], bout := [(7, 1#32)] } = .next t :=
  ⟨by decide, by decide, _, rfl⟩

theorem meets_NodeCountIsAFunctionOfTheStore : wide6.Inv ∧ wide6.table.life = .opened := ⟨inv_wide6, by decide⟩

theorem meets_NeedIsADifferenceOfNodeCounts : trie4.Inv ∧ trie4.table.life = .opened ∧ trie4.ValidPrefix 0 ∧
    trie4.ValidPrefix 32 := ⟨inv_trie4, by decide, by decide, by decide⟩

theorem meets_SlotsRefineTheAbstractMachine : dir4.Inv ∧ ∃ t, exec (.delete 16) dir4 = .next t := ⟨inv_dir4, _, rfl⟩

/-- Two engines that differ in the blocks their next allocations take, before a CONSTRUCT of Stride8. -/
theorem meets_FreeBlockChoiceIsUnobservable : ∀ s s' : State, s = withOp shutEngine (.regWrite 0 1#32) →
    s' = { s with table := { Table.reset with picks := [7, 9] } } →
    s.Inv ∧ s'.Inv ∧ s.forget = s'.forget ∧ (∃ t, step s = .next t ∧ t.table.rootb = 0) ∧
      ∃ t, step s' = .next t ∧ t.table.rootb = 7 := by
  rintro s s' rfl rfl
  exact ⟨⟨inv_shut.params, inv_shut.table, inv_shut.bin, inv_shut.bout⟩,
    ⟨inv_shut.params, Table.Ok.reset params [7, 9], inv_shut.bin, inv_shut.bout⟩, rfl, ⟨_, rfl, rfl⟩, _, rfl, rfl⟩

theorem meets_ChurnLeavesNoTrace : (keyed trie4 0x0A000000#32 9#32).Inv ∧ (keyed trie4 0x0A000000#32 9#32).CanInsert 9 ∧
    trie4.table.stores ((keyed trie4 0x0A000000#32 9#32).operand 9) = false ∧ 0 < 2 ^ trie4.table.width :=
  ⟨⟨inv_trie4.params, inv_trie4.table, inv_trie4.bin, inv_trie4.bout⟩, by decide, by decide, by decide⟩

/-- 192.168.1.0/26 beside E1, and the address 192.168.1.63. -/
theorem meets_InsertedPrefixAnswers : (keyed trie4 0xC0A80100#32 9#32).Inv ∧
    (keyed trie4 0xC0A80100#32 9#32).CanInsert 26 ∧
    assemble .ipv4 0xC0A8013F#32 0#32 0#32 0#32 &&& mask 32 26 = ((keyed trie4 0xC0A80100#32 9#32).operand 26).net ∧
    ∀ e ∈ trie4.table.prefixes, 26 < e.1.len → ¬0xC0A8013F &&& mask 32 e.1.len = e.1.net :=
  ⟨⟨inv_trie4.params, inv_trie4.table, inv_trie4.bin, inv_trie4.bout⟩, by decide, by decide, by decide⟩

/-- 192.168.1.77/24 and 192.168.1.0/24. -/
theorem meets_CanonicalisationIsSilent : dir4.table.strict = false ∧
    (keyed dir4 0xC0A8014D#32 9#32).operand 24 = (keyed dir4 0xC0A80100#32 9#32).operand 24 ∧
    (∃ t, exec (.insert 24) (keyed dir4 0xC0A8014D#32 9#32) = .next t) ∧
    ∃ t, exec (.delete 24) (keyed dir4 0xC0A8014D#32 9#32) = .next t := ⟨by decide, by decide, ⟨_, rfl⟩, _, rfl⟩

theorem meets_CloseZeroesTheConfiguration : wide6.Inv ∧ shutEngine.Inv := ⟨inv_wide6, inv_shut⟩

end Sys2Proof.Tests
end

section
/-! PROOFS of 00_scope.md R10 and R11: the prefix arithmetic bit by bit, and `best` characterised both ways. -/

namespace Sys2Proof.Machine

/-! ### Masks, networks and host bits -/

@[simp] theorem mask_zero (w : Nat) : mask w 0 = 0 := by simp [mask]

@[simp] theorem mask_width (w : Nat) : mask w w = 2 ^ w - 1 := by simp [mask]

theorem testBit_mask {w len : Nat} (h : len ≤ w) (i : Nat) :
    (mask w len).testBit i = (decide (w - len ≤ i) && decide (i < w)) := by
  have hlt : w - len ≤ i → (i - (w - len) < len ↔ i < w) := by omega
  rw [mask_eq h, ← Nat.shiftLeft_eq, Nat.testBit_shiftLeft, Nat.testBit_two_pow_sub_one]
  by_cases hi : w - len ≤ i
  · simp [hi, hlt hi]
  · simp [hi]

theorem testBit_canon {w n len : Nat} (hn : n < 2 ^ w) (h : len ≤ w) (i : Nat) :
    (canon w n len).testBit i = (n.testBit i && decide (w - len ≤ i)) := by
  rw [canon, Nat.testBit_and, testBit_mask h]
  by_cases hi : i < w
  · simp [hi]
  · have hzero : n.testBit i = false :=
      Nat.testBit_lt_two_pow (hn.trans_le (Nat.pow_le_pow_right (by decide) (not_lt.1 hi)))
    simp [hzero]

theorem covers_iff_canon {w a : Nat} {q : Prefix} : q.covers w a ↔ canon w a q.len = q.net := Iff.rfl

/-- A canonical prefix covers the addresses that agree with it above the host bits. -/
theorem covers_canon_iff {w a n len : Nat} (ha : a < 2 ^ w) (hn : n < 2 ^ w) (h : len ≤ w) :
    Prefix.covers w ⟨len, canon w n len⟩ a ↔ a / 2 ^ (w - len) = n / 2 ^ (w - len) :=
  covers_iff_canon.trans (canon_eq_canon_iff ha hn h)

/-- The default route covers every address. -/
theorem covers_default (w a : Nat) : Prefix.covers w ⟨0, 0⟩ a := by simp [covers_iff_canon, canon]

/-- The address and the length determine the prefix that covers. -/
theorem eq_of_covers {w a : Nat} {q q' : Prefix} (hl : q.len = q'.len) (h : q.covers w a) (h' : q'.covers w a) :
    q = q' := by
  obtain ⟨len, net⟩ := q
  obtain ⟨len', net'⟩ := q'
  obtain rfl : len = len' := hl
  exact congrArg (Prefix.mk len) ((covers_iff_canon.1 h).symm.trans (covers_iff_canon.1 h'))

/-! ### The reference function -/

/-- The search answers a length exactly when its prefix is stored and no longer one of the range is. -/
theorem bestSearch_eq_some {p : PrefixStore} {w a lo n : Nat} {nh : Word} {len : Nat} :
    bestSearch p w a lo n = some ⟨nh, len⟩ ↔
      lo ≤ len ∧ len < lo + n ∧ Assoc.get? p ⟨len, canon w a len⟩ = some nh ∧
        ∀ len', len < len' → len' < lo + n → Assoc.get? p ⟨len', canon w a len'⟩ = none := by
  induction n with
  | zero => simp only [bestSearch, reduceCtorEq, false_iff]; omega
  | succ n ih =>
    simp only [bestSearch]
    cases hg : Assoc.get? p ⟨lo + n, canon w a (lo + n)⟩ with
    | some v =>
      simp only [Option.some.injEq, Leaf.mk.injEq]
      constructor
      · rintro ⟨rfl, rfl⟩
        exact ⟨by omega, by omega, hg, by omega⟩
      · rintro ⟨hlo, hhi, hget, hmax⟩
        obtain rfl : lo + n = len := by
          by_contra hne
          exact absurd (hg.symm.trans (hmax (lo + n) (by omega) (by omega))) (by simp)
        exact ⟨Option.some.inj (hg.symm.trans hget), rfl⟩
    | none =>
      simp only [ih]
      constructor
      · rintro ⟨hlo, hhi, hget, hmax⟩
        refine ⟨hlo, by omega, hget, fun len' h h' => ?_⟩
        obtain rfl | hlt : len' = lo + n ∨ len' < lo + n := by omega
        · exact hg
        · exact hmax len' h hlt
      · rintro ⟨hlo, hhi, hget, hmax⟩
        have hne : len ≠ lo + n := by rintro rfl; simp [hg] at hget
        exact ⟨hlo, by omega, hget, fun len' h h' => hmax len' h (by omega)⟩

/-- A length from `lo` on is within the search of `best` exactly when it is at most `hi`. -/
theorem lt_searchEnd_iff {lo hi len : Nat} (h : lo ≤ len) : len < lo + (hi + 1 - lo) ↔ len ≤ hi := by omega

theorem best_eq_some {p : PrefixStore} {w lo hi a : Nat} {nh : Word} {len : Nat} :
    best p w lo hi a = some ⟨nh, len⟩ ↔
      lo ≤ len ∧ len ≤ hi ∧ Assoc.get? p ⟨len, canon w a len⟩ = some nh ∧
        ∀ len', len < len' → len' ≤ hi → Assoc.get? p ⟨len', canon w a len'⟩ = none := by
  rw [best, bestSearch_eq_some]
  refine and_congr_right fun hlo => and_congr (lt_searchEnd_iff hlo) (and_congr_right fun _ => ?_)
  exact forall_congr' fun len' => forall_congr' fun h => imp_congr_left (lt_searchEnd_iff (hlo.trans h.le))

theorem best_eq_none {p : PrefixStore} {w lo hi a : Nat} :
    best p w lo hi a = none ↔ ∀ len, lo ≤ len → len ≤ hi → Assoc.get? p ⟨len, canon w a len⟩ = none := by
  rw [best, bestSearch_eq_none]
  exact forall_congr' fun len => forall_congr' fun hlo => imp_congr_left (lt_searchEnd_iff hlo)

theorem lpm_of_best_eq_some {p : PrefixStore} {w a : Nat} {l : Leaf} (h : best p w 0 w a = some l) :
    lpm p w a = l.nh := by rw [lpm, h, leafOr]

theorem lpm_of_best_eq_none {p : PrefixStore} {w a : Nat} (h : best p w 0 w a = none) : lpm p w a = sentinel := by
  rw [lpm, h, leafOr]

/-! ### The statements -/

/-- Settles O44: the masks bit by bit, and a covering prefix as agreement above the host bits. -/
theorem prefixArithmetic : Obligations.PrefixArithmetic := by
  intro w n len h hn
  exact ⟨mask_zero w, mask_width w, testBit_mask h, testBit_canon hn h, hostbits_eq w n len,
    fun a ha => covers_canon_iff ha hn h, covers_default w⟩

/-- Settles O45, by the characterisation of the search behind `best`. -/
theorem bestIsTheLongest : Obligations.BestIsTheLongest := by
  intro p w lo hi a
  exact ⟨fun _ _ => best_eq_some, best_eq_none, fun _ _ => lpm_of_best_eq_some, lpm_of_best_eq_none,
    fun _ _ => eq_of_covers⟩

end Sys2Proof.Machine
end

section
/-! PROOFS about 10_state.md: what a command and a host operation can do, said once, and what every step keeps. -/

namespace Sys2Proof.Machine

/-! ### What a command can do -/

/-- What a command does to a state, with the checks it has passed (40_commands_common.md R120). -/
inductive CommandEffect (s : State) : Instr → State → Prop
  | raised {i : Instr} {c : Code} : c ≠ .ok → CommandEffect s i (s.raise c)
  | missed : s.table.life = .closed → CommandEffect s .lookup ((s.withResult sentinel).raise .errClosed)
  | constructed {algo : AlgoTag} {family : Family} {strict : Bool} {a : Algo} :
      s.table.life = .closed → legalLayout algo family = some a →
      CommandEffect s (.construct algo family strict)
        (s.withTable (s.table.construct s.params.nNodes a family strict)).complete
  | inserted {len : Nat} {p : Prefix} :
      s.table.life = .opened → s.prefixOperand len = some p → s.nh ≠ sentinel → s.lacksRoom p = false →
      CommandEffect s (.insert len) (s.withTable (s.table.insertPrefix s.params.nNodes p s.nh)).complete
  | deleted {len : Nat} {p : Prefix} :
      s.table.life = .opened → s.prefixOperand len = some p → s.table.stores p = true →
      CommandEffect s (.delete len) (s.withTable (s.table.deletePrefix p)).complete
  | answered : s.table.life = .opened →
      CommandEffect s .lookup (s.withResult (s.table.layoutLookup s.keyAddress)).complete
  | batched {count : Nat} : s.table.life = .opened → count ≤ s.params.batchMax →
      CommandEffect s (.lookupBatch count) (State.complete { s with bout := s.batchOut count })
  | latched : s.table.life = .opened → CommandEffect s .stats s.latchStats.complete
  | stayedClosed : s.table.life = .closed → CommandEffect s .close s.complete
  | released : s.table.life = .opened → CommandEffect s .close (s.withTable s.table.shut).complete

/-- Every outcome of a command is one of its effects. -/
theorem exec_effect {i : Instr} {s t : State} (h : exec i s = .next t) : CommandEffect s i t := by
  cases hl : s.table.life with
  | closed =>
    cases i with
    | construct algo family strict =>
      simp only [exec, execConstruct, hl] at h
      cases ha : legalLayout algo family <;> simp only [ha, Host.Outcome.next.injEq] at h <;> subst h
      · exact .raised (by decide)
      · exact .constructed hl ha
    | lookup =>
      simp only [exec, execLookup, hl, Host.Outcome.next.injEq] at h
      exact h ▸ .missed hl
    | close =>
      simp only [exec, execClose, hl, Host.Outcome.next.injEq] at h
      exact h ▸ .stayedClosed hl
    | insert len | delete len | lookupBatch count | stats =>
      simp only [exec, execInsert, execDelete, execLookupBatch, execStats, hl, Host.Outcome.next.injEq] at h
      exact h ▸ .raised (by decide)
  | opened =>
    cases i with
    | construct algo family strict =>
      simp only [exec, execConstruct, hl, Host.Outcome.next.injEq] at h
      exact h ▸ .raised (by decide)
    | insert len =>
      cases hp : s.prefixOperand len with
      | none =>
        simp only [exec, execInsert, hl, hp, Host.Outcome.next.injEq] at h
        exact h ▸ .raised (by decide)
      | some p =>
        simp only [exec, execInsert, hl, hp] at h
        split_ifs at h with hnh hroom <;> obtain rfl := Host.Outcome.next.inj h
        · exact .raised (by decide)
        · exact .raised (by decide)
        · exact .inserted hl hp hnh (by simpa using hroom)
    | delete len =>
      cases hp : s.prefixOperand len with
      | none =>
        simp only [exec, execDelete, hl, hp, Host.Outcome.next.injEq] at h
        exact h ▸ .raised (by decide)
      | some p =>
        simp only [exec, execDelete, hl, hp] at h
        split_ifs at h with hst <;> obtain rfl := Host.Outcome.next.inj h
        · exact .deleted hl hp hst
        · exact .raised (by decide)
    | lookup =>
      simp only [exec, execLookup, hl, Host.Outcome.next.injEq] at h
      exact h ▸ .answered hl
    | lookupBatch count =>
      simp only [exec, execLookupBatch, hl] at h
      split_ifs at h with hc <;> obtain rfl := Host.Outcome.next.inj h
      · exact .raised (by decide)
      · exact .batched hl (by omega)
    | stats =>
      simp only [exec, execStats, hl, Host.Outcome.next.injEq] at h
      exact h ▸ .latched hl
    | close =>
      simp only [exec, execClose, hl, Host.Outcome.next.injEq] at h
      exact h ▸ .released hl

/-! ### What a host operation can do -/

theorem hostStep_regRead {s : State} {i : Nat} (hi : i ≤ 15) :
    hostStep (.regRead i) s = .next (s.pushRead (s.regWord i)) := if_pos hi

theorem hostStep_command (s : State) (c : Word) : hostStep (.regWrite 0 c) s = runCommand c s := rfl

theorem hostStep_regWrite {s : State} {i : Nat} (h0 : i ≠ 0) (hi : i ≤ 15) (v : Word) :
    hostStep (.regWrite i v) s = .next (s.setReg i v) := (if_neg h0).trans (if_pos hi)

theorem hostStep_binRead {s : State} {w : Nat} (hw : w < 4 * s.params.batchMax) :
    hostStep (.binRead w) s = .next (s.pushRead (s.binWord w)) := if_pos hw

theorem hostStep_binWrite {s : State} {w : Nat} (hw : w < 4 * s.params.batchMax) (v : Word) :
    hostStep (.binWrite w v) s = .next { s with bin := s.bin.write w v } := if_pos hw

theorem hostStep_boutRead {s : State} {i : Nat} (hi : i < s.params.batchMax) :
    hostStep (.boutRead i) s = .next (s.pushRead (s.boutWord i)) := if_pos hi

theorem hostStep_boutWrite {s : State} {i : Nat} (hi : i < s.params.batchMax) (v : Word) :
    hostStep (.boutWrite i v) s = .next s := if_pos hi

theorem runCommand_instr {c : Word} {i : Instr} (hc : decode c = .instr i) (s : State) :
    runCommand c s = exec i s := by rw [runCommand, hc]

theorem runCommand_illegal {c : Word} (hc : ∀ i, decode c ≠ .instr i) (s : State) :
    runCommand c s = .next (s.raise .errIllegalCmd) := by
  rw [runCommand]
  cases hd : decode c with
  | instr i => exact absurd hd (hc i)
  | reservedOpcode _ | reservedBits _ => rfl

/-- What a host operation does to a state, with the range its index lies in (20_memory.md R62, R63). -/
inductive HostEffect (s : State) : HostOp → State → Prop
  | command {c : Word} {i : Instr} {t : State} :
      decode c = .instr i → exec i s = .next t → HostEffect s (.regWrite 0 c) t
  | illegal {c : Word} : (∀ i, decode c ≠ .instr i) → HostEffect s (.regWrite 0 c) (s.raise .errIllegalCmd)
  | regWrite {i : Nat} {v : Word} : i ≠ 0 → i ≤ 15 → HostEffect s (.regWrite i v) (s.setReg i v)
  | regRead {i : Nat} : i ≤ 15 → HostEffect s (.regRead i) (s.pushRead (s.regWord i))
  | binRead {w : Nat} : w < 4 * s.params.batchMax → HostEffect s (.binRead w) (s.pushRead (s.binWord w))
  | binWrite {w : Nat} {v : Word} :
      w < 4 * s.params.batchMax → HostEffect s (.binWrite w v) { s with bin := s.bin.write w v }
  | boutRead {i : Nat} : i < s.params.batchMax → HostEffect s (.boutRead i) (s.pushRead (s.boutWord i))
  | boutWrite {i : Nat} {v : Word} : i < s.params.batchMax → HostEffect s (.boutWrite i v) s
  | reset : HostEffect s .reset s.afterReset

/-- A host operation that is not refused has one of these effects. -/
theorem hostStep_effect {op : HostOp} {s t : State} (h : hostStep op s = .next t) : HostEffect s op t := by
  cases op with
  | regRead i =>
    simp only [hostStep] at h
    split_ifs at h with hi
    exact Host.Outcome.next.inj h ▸ .regRead hi
  | regWrite i v =>
    by_cases h0 : i = 0
    · subst h0
      rw [hostStep_command] at h
      by_cases hd : ∃ j, decode v = .instr j
      · obtain ⟨j, hj⟩ := hd
        rw [runCommand_instr hj] at h
        exact .command hj h
      · rw [runCommand_illegal (not_exists.1 hd)] at h
        exact Host.Outcome.next.inj h ▸ .illegal (not_exists.1 hd)
    · simp only [hostStep, if_neg h0] at h
      split_ifs at h with hi
      exact Host.Outcome.next.inj h ▸ .regWrite h0 hi
  | binRead w =>
    simp only [hostStep] at h
    split_ifs at h with hw
    exact Host.Outcome.next.inj h ▸ .binRead hw
  | binWrite w v =>
    simp only [hostStep] at h
    split_ifs at h with hw
    exact Host.Outcome.next.inj h ▸ .binWrite hw
  | boutRead i =>
    simp only [hostStep] at h
    split_ifs at h with hi
    exact Host.Outcome.next.inj h ▸ .boutRead hi
  | boutWrite i v =>
    simp only [hostStep] at h
    split_ifs at h with hi
    exact Host.Outcome.next.inj h ▸ .boutWrite hi
  | reset => exact Host.Outcome.next.inj h ▸ .reset

/-! ### What a step can do -/

/-- The state once the host's next operation is taken off the pending list. -/
def State.withPending (s : State) (rest : List HostOp) : State := { s with pending := rest }

@[simp] theorem State.withPending_table (s : State) (rest : List HostOp) : (s.withPending rest).table = s.table := rfl

theorem step_idle {s : State} (h : s.pending = []) : step s = .next s := by rw [step, takeNext, h]

theorem step_of_pending {s : State} {op : HostOp} {rest : List HostOp} (h : s.pending = op :: rest) :
    step s = hostStep op (s.withPending rest) := by rw [step, takeNext, h]; rfl

/-- A step is idle, or it is the next host operation. -/
theorem step_cases {s t : State} (h : step s = .next t) :
    (s.pending = [] ∧ t = s) ∨ ∃ op rest, s.pending = op :: rest ∧ HostEffect (s.withPending rest) op t := by
  cases hp : s.pending with
  | nil => exact .inl ⟨rfl, (Host.Outcome.next.inj ((step_idle hp).symm.trans h)).symm⟩
  | cons op rest => exact .inr ⟨op, rest, rfl, hostStep_effect ((step_of_pending hp).symm.trans h)⟩

/-! ### The configuration and the store after a command -/

section
variable (t : Table) (n : Nat) (p : Prefix) (v : Word)

@[simp] theorem Table.insertPrefix_life : (t.insertPrefix n p v).life = t.life :=
  (Table.head_life (Table.head_layoutInsert t n p v _) :)

@[simp] theorem Table.insertPrefix_algo : (t.insertPrefix n p v).algo = t.algo :=
  (Table.head_algo (Table.head_layoutInsert t n p v _) :)

@[simp] theorem Table.insertPrefix_family : (t.insertPrefix n p v).family = t.family :=
  (Table.head_family (Table.head_layoutInsert t n p v _) :)

@[simp] theorem Table.insertPrefix_strict : (t.insertPrefix n p v).strict = t.strict :=
  (Table.head_strict (Table.head_layoutInsert t n p v _) :)

@[simp] theorem Table.insertPrefix_prefixes :
    (t.insertPrefix n p v).prefixes = Assoc.put Prefix.before t.prefixes p v :=
  congrArg (Assoc.put Prefix.before · p v) (Table.head_prefixes (Table.head_layoutInsert t n p v _))

@[simp] theorem Table.deletePrefix_life : (t.deletePrefix p).life = t.life :=
  (Table.head_life (Table.head_layoutDelete (t.removePrefix p) p) :)

@[simp] theorem Table.deletePrefix_algo : (t.deletePrefix p).algo = t.algo :=
  (Table.head_algo (Table.head_layoutDelete (t.removePrefix p) p) :)

@[simp] theorem Table.deletePrefix_family : (t.deletePrefix p).family = t.family :=
  (Table.head_family (Table.head_layoutDelete (t.removePrefix p) p) :)

@[simp] theorem Table.deletePrefix_strict : (t.deletePrefix p).strict = t.strict :=
  (Table.head_strict (Table.head_layoutDelete (t.removePrefix p) p) :)

@[simp] theorem Table.deletePrefix_prefixes : (t.deletePrefix p).prefixes = Assoc.erase t.prefixes p :=
  Table.head_prefixes (Table.head_layoutDelete (t.removePrefix p) p)

@[simp] theorem Table.construct_life (a : Algo) (f : Family) (b : Bool) : (t.construct n a f b).life = .opened := by
  cases a <;> rfl

@[simp] theorem Table.construct_algo (a : Algo) (f : Family) (b : Bool) : (t.construct n a f b).algo = a := by
  cases a <;> rfl

@[simp] theorem Table.construct_family (a : Algo) (f : Family) (b : Bool) : (t.construct n a f b).family = f := by
  cases a <;> rfl

@[simp] theorem Table.construct_strict (a : Algo) (f : Family) (b : Bool) : (t.construct n a f b).strict = b := by
  cases a <;> rfl

@[simp] theorem Table.construct_prefixes (a : Algo) (f : Family) (b : Bool) : (t.construct n a f b).prefixes = [] := by
  cases a <;> rfl

end

/-! ### A register write keeps everything else -/

@[simp] theorem State.setReg_table (s : State) (i : Nat) (v : Word) : (s.setReg i v).table = s.table := by
  unfold State.setReg; split_ifs <;> rfl

@[simp] theorem State.setReg_bin (s : State) (i : Nat) (v : Word) : (s.setReg i v).bin = s.bin := by
  unfold State.setReg; split_ifs <;> rfl

@[simp] theorem State.setReg_bout (s : State) (i : Nat) (v : Word) : (s.setReg i v).bout = s.bout := by
  unfold State.setReg; split_ifs <;> rfl

/-! ### What no command changes -/

theorem CommandEffect.params {i : Instr} {s t : State} (h : CommandEffect s i t) : t.params = s.params := by
  cases h <;> rfl

theorem CommandEffect.bin {i : Instr} {s t : State} (h : CommandEffect s i t) : t.bin = s.bin := by
  cases h <;> rfl

theorem HostEffect.params {op : HostOp} {s t : State} (h : HostEffect s op t) : t.params = s.params := by
  cases h with
  | command _ he => exact (exec_effect he).params
  | regWrite _ _ => unfold State.setReg; split_ifs <;> rfl
  | illegal | regRead | binRead | binWrite | boutRead | boutWrite | reset => rfl

/-- Settles O43: no host operation writes the parameters, and idling keeps them. -/
theorem parametersNeverChange : Obligations.ParametersNeverChange := by
  intro s t h
  obtain ⟨-, rfl⟩ | ⟨op, rest, -, he⟩ := step_cases h
  · rfl
  · exact he.params

/-- Settles O18: among the effects of commands only those of LOOKUP write `RESULT`, and none an operand register. -/
theorem commandsKeepOperandRegisters : Obligations.CommandsKeepOperandRegisters := by
  intro i s t h
  cases exec_effect h with
  | missed | answered => exact ⟨rfl, rfl, rfl, rfl, rfl, fun hne => absurd rfl hne⟩
  | raised | constructed | inserted | deleted | batched | latched | stayedClosed | released =>
    exact ⟨rfl, rfl, rfl, rfl, rfl, fun _ => rfl⟩

/-! ### The configuration -/

/-- `LIFE` and the latched configuration are the same in both tables (10_state.md R26, R27). -/
def Table.SameConfig (t u : Table) : Prop :=
  t.life = u.life ∧ t.algo = u.algo ∧ t.family = u.family ∧ t.strict = u.strict

/-- A command that reconfigures the table is a successful CONSTRUCT or a CLOSE of an open one. -/
theorem CommandEffect.config {i : Instr} {s t : State} (h : CommandEffect s i t) : t.table.SameConfig s.table ∨
    (∃ a f x, i = .construct a f x ∧ s.table.life = .closed ∧ t.table.life = .opened ∧ t.code = .ok) ∨
      (i = .close ∧ s.table.life = .opened ∧ t.table.life = .closed) := by
  cases h with
  | raised | missed | answered | batched | latched | stayedClosed => exact .inl ⟨rfl, rfl, rfl, rfl⟩
  | constructed hl _ => exact .inr (.inl ⟨_, _, _, rfl, hl, Table.construct_life .., rfl⟩)
  | inserted => exact .inl (by simp [Table.SameConfig])
  | deleted => exact .inl (by simp [Table.SameConfig])
  | released hl => exact .inr (.inr ⟨rfl, hl, rfl⟩)

/-- Settles O42: of the host operations only a CMD write and a reset touch the configuration. -/
theorem onlyConstructAndCloseReconfigure : Obligations.OnlyConstructAndCloseReconfigure := by
  intro s t h hne
  have hconfig : ¬t.table.SameConfig s.table := by
    unfold Table.SameConfig
    tauto
  obtain ⟨-, rfl⟩ | ⟨op, rest, hp, he⟩ := step_cases h
  · exact absurd ⟨rfl, rfl, rfl, rfl⟩ hconfig
  · cases he with
    | command hd hx =>
      obtain hsame | ⟨a, f, x, rfl, hl, hl', hc⟩ | ⟨rfl, hl, hl'⟩ := (exec_effect hx).config
      · exact absurd hsame hconfig
      · exact .inl ⟨_, rest, a, f, x, hp, hd, hl, hl', hc⟩
      · exact .inr (.inl ⟨_, rest, hp, hd, hl, hl'⟩)
    | regWrite _ _ => exact absurd (by simp [Table.SameConfig]) hconfig
    | reset => exact .inr (.inr ⟨rest, hp⟩)
    | illegal | regRead | binRead | binWrite | boutRead | boutWrite =>
      exact absurd ⟨rfl, rfl, rfl, rfl⟩ hconfig

/-! ### The buffers -/

/-- A batch within the buffers' size keeps `BOUT` canonical and within its size (44_batch.md R252). -/
theorem State.batchOut_ok {n : Nat} {s : State} (h : BufferOk n s.bout) :
    ∀ {count : Nat}, count ≤ n → BufferOk n (s.batchOut count)
  | 0, _ => h
  | _ + 1, hc => Memory.write_ok (State.batchOut_ok h (by omega)) hc _

theorem CommandEffect.bout_ok {i : Instr} {s t : State} (h : CommandEffect s i t)
    (hb : BufferOk s.params.batchMax s.bout) : BufferOk s.params.batchMax t.bout := by
  cases h with
  | batched _ hc => exact State.batchOut_ok hb hc
  | raised | missed | constructed | inserted | deleted | answered | latched | stayedClosed | released => exact hb

theorem BufferOk.nil (n : Nat) : BufferOk n [] := ⟨rfl, by simp⟩

/-- A host operation keeps the form and the size of both buffers. -/
theorem HostEffect.buffers_ok {op : HostOp} {s t : State} (h : HostEffect s op t)
    (hbin : BufferOk (4 * s.params.batchMax) s.bin) (hbout : BufferOk s.params.batchMax s.bout) :
    BufferOk (4 * t.params.batchMax) t.bin ∧ BufferOk t.params.batchMax t.bout := by
  rw [h.params]
  cases h with
  | command _ he => exact ⟨(exec_effect he).bin ▸ hbin, (exec_effect he).bout_ok hbout⟩
  | regWrite _ _ => simpa using ⟨hbin, hbout⟩
  | binWrite hw => exact ⟨Memory.write_ok hbin hw _, hbout⟩
  | reset => exact ⟨BufferOk.nil _, BufferOk.nil _⟩
  | illegal | regRead | binRead | boutRead | boutWrite => exact ⟨hbin, hbout⟩

/-- Settles O51: `BIN` is written within its range by the host alone, `BOUT` by a batch that fits it. -/
theorem stepKeepsTheBuffers : Obligations.StepKeepsTheBuffers := by
  intro s t hbin hbout h
  obtain ⟨-, rfl⟩ | ⟨op, rest, -, he⟩ := step_cases h
  · exact ⟨hbin, hbout⟩
  · exact he.buffers_ok hbin hbout

/-! ### The invariant -/

/-- The parameters are legal, whatever numbers they are made from (00_scope.md R6). -/
theorem configParams_legal : Config.params.Legal := by
  simp only [Params.Legal, Config.params]
  omega

/-- Settles O49: the reset table is a closed one, and its buffers list no word. -/
theorem resetMeetsTheInvariant : Obligations.ResetMeetsTheInvariant :=
  ⟨configParams_legal, Table.Ok.reset _ [], BufferOk.nil _, BufferOk.nil _⟩

theorem legalPair_of_legalLayout {algo : AlgoTag} {f : Family} {a : Algo} (h : legalLayout algo f = some a) :
    legalPair a f := by
  cases algo <;> cases f <;> cases h <;> decide

/-- What validation lets through is a canonical operand of the table's width (40_commands_common.md R130). -/
theorem State.prefixOperand_fits {s : State} {len : Nat} {p : Prefix} (h : s.prefixOperand len = some p) :
    Fits s.table.width p := (validate_fits s.keyAddress_lt h).1

/-- The room that an INSERT's checks find, in the sizes of the store and the pool (40_commands_common.md R132). -/
theorem State.Inv.lacksRoom_iff {s : State} (h : s.Inv) (p : Prefix) : s.lacksRoom p = true ↔
    (s.table.stores p = false ∧ s.table.prefixes.length = s.params.maxPrefixes) ∨
      s.params.nNodes - s.table.pool.length < s.table.need p := by
  simp [State.lacksRoom, h.table.counters.pfx, (h.table.acct h.params).free_eq]

/-- Every command keeps the table well formed. -/
theorem CommandEffect.table_ok {i : Instr} {s t : State} (h : CommandEffect s i t) (hs : s.Inv) :
    t.table.Ok s.params := by
  cases h with
  | raised | missed | answered | batched | latched | stayedClosed => exact hs.table
  | constructed _ ha => exact Table.Ok.construct hs.table.pool hs.params _ (legalPair_of_legalLayout ha)
  | inserted ho hp hnh hroom =>
    have hlen := (hs.table.acct hs.params).length_le
    have hbound := hs.table.store.bounded
    rw [← Bool.not_eq_true, hs.lacksRoom_iff, not_or] at hroom
    obtain ⟨hstore, hneed⟩ := hroom
    refine Table.Ok.insert hs.table hs.params ho (State.prefixOperand_fits hp) hnh ?_ (by omega)
    cases hst : s.table.stores _ with
    | true => exact .inl rfl
    | false => exact .inr (lt_of_le_of_ne hbound fun hfull => hstore ⟨hst, hfull⟩)
  | deleted ho hp hst => exact Table.Ok.delete hs.table hs.params ho (State.prefixOperand_fits hp) hst
  | released _ => exact Table.Ok.shut hs.table.pool

theorem HostEffect.table_ok {op : HostOp} {s t : State} (h : HostEffect s op t) (hs : s.Inv) :
    t.table.Ok s.params := by
  cases h with
  | command _ he => exact (exec_effect he).table_ok hs
  | regWrite _ _ => simpa using hs.table
  | reset => exact Table.Ok.reset _ _
  | illegal | regRead | binRead | binWrite | boutRead | boutWrite => exact hs.table

/-- The invariant says nothing of the operations to come. -/
theorem State.Inv.withPending {s : State} (h : s.Inv) (rest : List HostOp) : (s.withPending rest).Inv :=
  ⟨h.params, h.table, h.bin, h.bout⟩

theorem HostEffect.inv {op : HostOp} {s t : State} (h : HostEffect s op t) (hs : s.Inv) : t.Inv := by
  obtain ⟨hbin, hbout⟩ := h.buffers_ok hs.bin hs.bout
  exact ⟨h.params ▸ hs.params, h.params ▸ h.table_ok hs, hbin, hbout⟩

/-- Settles O50: an idle step keeps the state, and every host operation keeps the invariant. -/
theorem stepKeepsTheInvariant : Obligations.StepKeepsTheInvariant := by
  intro s t hs h
  obtain ⟨-, rfl⟩ | ⟨op, rest, -, he⟩ := step_cases h
  · exact hs
  · exact he.inv (hs.withPending rest)

end Sys2Proof.Machine
end

section
/-! PROOFS about 10_state.md R34: no host operation sees which free blocks the allocations take. On every command the
machine without slot arrays, pool and free input is the abstract machine of 40_commands_common.md R144. -/

namespace Sys2Proof.Machine

/-! ### What is left of a state without the slot arrays -/

@[simp] theorem State.forget_table (s : State) : s.forget.table = s.table.forget := rfl
@[simp] theorem Table.forget_life (t : Table) : t.forget.life = t.life := rfl

@[simp] theorem State.forget_prefixOperand (s : State) (len : Nat) :
    s.forget.prefixOperand len = s.prefixOperand len := rfl

/-- The host sees nothing of the slot arrays, the pool, the root handle and the free input (10_state.md R41). -/
theorem State.view_forget (s : State) : s.forget.view = s.view := rfl

/-! ### A table that is the function of its store -/

theorem word_eq_ofNat {v : Word} {n : Nat} (h : v.toNat = n) : v = BitVec.ofNat 32 n := by
  rw [← h, BitVec.ofNat_toNat, BitVec.setWidth_eq]

/-- Of an open well-formed table the configuration and the store are all that is left (40_commands_common.md R144). -/
theorem Table.Ok.forget_eq {ps : Params} {t : Table} (h : t.Ok ps) (hp : ps.Legal) (ho : t.life = .opened) :
    t.forget = Table.ofStore t.algo t.family t.strict t.prefixes := by
  have hpfx := word_eq_ofNat h.counters.pfx
  have hnodes := word_eq_ofNat
    (h.counters.nodes.trans ((h.laid ho).nodes (h.acct hp) (h.legal ho) h.store.fits))
  have hwide : t.numWide = BitVec.ofNat 32 (wideOf t.algo) := by
    rw [h.counters.wide, ho]
    cases t.algo <;> rfl
  unfold Table.forget Table.ofStore
  rw [← ho, hpfx, hnodes, hwide]
  rfl

theorem Table.Ok.forget_construct {ps : Params} {t : Table} {n : Nat} {a : Algo} {f : Family} {strict : Bool}
    (h : (t.construct n a f strict).Ok ps) (hp : ps.Legal) :
    (t.construct n a f strict).forget = Table.ofStore a f strict [] := by
  have heq := h.forget_eq hp (Table.construct_life ..)
  rwa [Table.construct_algo, Table.construct_family, Table.construct_strict, Table.construct_prefixes] at heq

theorem Table.Ok.forget_insertPrefix {ps : Params} {t : Table} {n : Nat} {p : Prefix} {v : Word}
    (h : (t.insertPrefix n p v).Ok ps) (hp : ps.Legal) (ho : t.life = .opened) :
    (t.insertPrefix n p v).forget = t.withStore (Assoc.put Prefix.before t.prefixes p v) := by
  have heq := h.forget_eq hp ((Table.insertPrefix_life ..).trans ho)
  rwa [Table.insertPrefix_algo, Table.insertPrefix_family, Table.insertPrefix_strict,
    Table.insertPrefix_prefixes] at heq

theorem Table.Ok.forget_deletePrefix {ps : Params} {t : Table} {p : Prefix} (h : (t.deletePrefix p).Ok ps)
    (hp : ps.Legal) (ho : t.life = .opened) :
    (t.deletePrefix p).forget = t.withStore (Assoc.erase t.prefixes p) := by
  have heq := h.forget_eq hp ((Table.deletePrefix_life ..).trans ho)
  rwa [Table.deletePrefix_algo, Table.deletePrefix_family, Table.deletePrefix_strict,
    Table.deletePrefix_prefixes] at heq

/-- `need(N, L)` of a well-formed table is the abstract machine's (40_commands_common.md R144). -/
theorem Table.Ok.storeNeed_eq {ps : Params} {t : Table} (h : t.Ok ps) (ho : t.life = .opened) {p : Prefix}
    (hp : Fits t.width p) (v : Word) : t.storeNeed p v = t.need p := by
  rw [Table.storeNeed, (h.laid ho).need (h.legal ho) v hp, Nat.add_sub_cancel_left]

/-- The room that an INSERT's checks find, in the terms of the abstract machine (40_commands_common.md R144). -/
theorem State.Inv.lacksRoom_iff_storeNeed {s : State} (h : s.Inv) (ho : s.table.life = .opened) {p : Prefix}
    (hp : Fits s.table.width p) : s.lacksRoom p = true ↔
      (s.table.stores p = false ∧ s.table.prefixes.length = s.params.maxPrefixes) ∨
        s.params.nNodes - nodesOf s.table.algo s.table.width s.table.prefixes < s.table.storeNeed p s.nh := by
  rw [h.lacksRoom_iff, h.table.storeNeed_eq ho hp,
    (h.table.laid ho).nodes (h.table.acct h.params) (h.table.legal ho) h.table.store.fits]

/-- `layout_lookup(A)` of a well-formed open table is `LPM(P, A)` (40_commands_common.md R141). -/
theorem Table.Ok.lookup {ps : Params} {t : Table} (h : t.Ok ps) (ho : t.life = .opened) {a : Nat}
    (ha : a < 2 ^ t.width) : t.layoutLookup a = lpm t.prefixes t.width a := (h.laid ho).lookup (h.legal ho) ha

/-- The batch loop writes what the abstract machine's writes (44_batch.md R253). -/
theorem State.Inv.batchOut_eq {s : State} (h : s.Inv) (ho : s.table.life = .opened) (n : Nat) :
    s.batchOut n = s.forget.absBatchOut n := by
  induction n with
  | zero => rfl
  | succ n ih => rw [State.batchOut, State.absBatchOut, ih, h.table.lookup ho (s.binAddress_lt n)]; rfl

/-! ### Each command and the abstract machine's -/

theorem execConstruct_forget {algo : AlgoTag} {family : Family} {strict : Bool} {s t : State} (hs : s.Inv)
    (h : execConstruct algo family strict s = .next t) : t.forget = absConstruct algo family strict s.forget := by
  unfold execConstruct at h
  unfold absConstruct
  simp only [State.forget_table, Table.forget_life]
  cases hl : s.table.life with
  | opened => simp only [hl] at h; exact Host.Outcome.next.inj h ▸ rfl
  | closed =>
    cases ha : legalLayout algo family with
    | none => simp only [hl, ha] at h; exact Host.Outcome.next.inj h ▸ rfl
    | some a =>
      simp only [hl, ha] at h
      obtain rfl := Host.Outcome.next.inj h
      have hok := (CommandEffect.constructed (strict := strict) hl ha).table_ok hs
      exact congrArg (fun u => (s.forget.withTable u).complete) (Table.Ok.forget_construct hok hs.params)

/-- The abstract machine's INSERT of a valid operand, its two checks for room as one. -/
theorem absInsert_opened {len : Nat} {s : State} {p : Prefix} (ho : s.table.life = .opened)
    (hp : s.prefixOperand len = some p) : absInsert len s =
      if s.nh = sentinel then s.raise .errInvalidNexthop
      else if (s.table.stores p = false ∧ s.table.prefixes.length = s.params.maxPrefixes) ∨
          s.params.nNodes - nodesOf s.table.algo s.table.width s.table.prefixes < s.table.storeNeed p s.nh then
        s.raise .errAlloc
      else (s.withTable (s.table.withStore (Assoc.put Prefix.before s.table.prefixes p s.nh))).complete := by
  simp only [absInsert, ho, hp, ite_or]

theorem execInsert_forget {len : Nat} {s t : State} (hs : s.Inv) (h : execInsert len s = .next t) :
    t.forget = absInsert len s.forget := by
  unfold execInsert at h
  cases hl : s.table.life with
  | closed =>
    simp only [hl] at h
    rw [absInsert, State.forget_table, Table.forget_life, hl, ← Host.Outcome.next.inj h]; rfl
  | opened =>
    cases hp : s.prefixOperand len with
    | none =>
      simp only [hl, hp] at h
      rw [absInsert, State.forget_table, Table.forget_life, hl, State.forget_prefixOperand, hp,
        ← Host.Outcome.next.inj h]; rfl
    | some p =>
      have hroom := hs.lacksRoom_iff_storeNeed hl (State.prefixOperand_fits hp)
      simp only [hl, hp] at h
      rw [absInsert_opened (s := s.forget) hl hp]
      split_ifs at h with hnh hlack <;> obtain rfl := Host.Outcome.next.inj h
      · exact (if_pos hnh).symm
      · exact ((if_neg hnh).trans (if_pos (hroom.1 hlack))).symm
      · refine Eq.trans ?_ ((if_neg hnh).trans (if_neg (mt hroom.2 hlack))).symm
        have hok := (CommandEffect.inserted hl hp hnh (by simpa using hlack)).table_ok hs
        exact congrArg (fun u => (s.forget.withTable u).complete) (Table.Ok.forget_insertPrefix hok hs.params hl)

theorem execDelete_forget {len : Nat} {s t : State} (hs : s.Inv) (h : execDelete len s = .next t) :
    t.forget = absDelete len s.forget := by
  unfold execDelete at h
  unfold absDelete
  simp only [State.forget_table, Table.forget_life, State.forget_prefixOperand]
  cases hl : s.table.life with
  | closed => simp only [hl] at h; exact Host.Outcome.next.inj h ▸ rfl
  | opened =>
    cases hp : s.prefixOperand len with
    | none => simp only [hl, hp] at h; exact Host.Outcome.next.inj h ▸ rfl
    | some p =>
      simp only [hl, hp] at h
      split_ifs at h with hst <;> obtain rfl := Host.Outcome.next.inj h
      · refine Eq.trans ?_ (if_pos hst).symm
        have hok := (CommandEffect.deleted hl hp hst).table_ok hs
        exact congrArg (fun u => (s.forget.withTable u).complete) (Table.Ok.forget_deletePrefix hok hs.params hl)
      · exact (if_neg hst).symm

theorem execLookup_forget {s t : State} (hs : s.Inv) (h : execLookup s = .next t) :
    t.forget = absLookup s.forget := by
  unfold execLookup at h
  unfold absLookup
  simp only [State.forget_table, Table.forget_life]
  cases hl : s.table.life with
  | closed => simp only [hl] at h; exact Host.Outcome.next.inj h ▸ rfl
  | opened =>
    simp only [hl, hs.table.lookup hl s.keyAddress_lt] at h
    exact Host.Outcome.next.inj h ▸ rfl

theorem execLookupBatch_forget {count : Nat} {s t : State} (hs : s.Inv) (h : execLookupBatch count s = .next t) :
    t.forget = absLookupBatch count s.forget := by
  unfold execLookupBatch at h
  unfold absLookupBatch
  simp only [State.forget_table, Table.forget_life]
  cases hl : s.table.life with
  | closed => simp only [hl] at h; exact Host.Outcome.next.inj h ▸ rfl
  | opened =>
    simp only [hl, hs.batchOut_eq hl] at h
    split_ifs at h with hc <;> obtain rfl := Host.Outcome.next.inj h
    · exact (if_pos hc).symm
    · exact (if_neg hc).symm

theorem execStats_forget {s t : State} (h : execStats s = .next t) : t.forget = absStats s.forget := by
  unfold execStats at h
  unfold absStats
  simp only [State.forget_table, Table.forget_life]
  cases hl : s.table.life <;> simp only [hl] at h <;> exact Host.Outcome.next.inj h ▸ rfl

theorem execClose_forget {s t : State} (h : execClose s = .next t) : t.forget = absClose s.forget := by
  unfold execClose at h
  unfold absClose
  simp only [State.forget_table, Table.forget_life]
  cases hl : s.table.life <;> simp only [hl] at h <;> exact Host.Outcome.next.inj h ▸ rfl

/-- On every command the slot-level machine, its slot arrays left out, is the abstract machine
(40_commands_common.md R144). -/
theorem exec_forget {i : Instr} {s t : State} (hs : s.Inv) (h : exec i s = .next t) :
    t.forget = absExec i s.forget := by
  cases i with
  | construct algo family strict => exact execConstruct_forget hs h
  | insert len => exact execInsert_forget hs h
  | delete len => exact execDelete_forget hs h
  | lookup => exact execLookup_forget hs h
  | lookupBatch count => exact execLookupBatch_forget hs h
  | stats => exact execStats_forget h
  | close => exact execClose_forget h

/-! ### Two runs -/

theorem State.forget_setReg (s : State) (i : Nat) (v : Word) : (s.setReg i v).forget = s.forget.setReg i v := by
  unfold State.setReg; split_ifs <;> rfl

/-- Two well-formed states that differ only in what is left out differ only there after the same host operation. -/
theorem HostEffect.forget_congr {op : HostOp} {s s' t t' : State} (hs : s.Inv) (hs' : s'.Inv)
    (hf : s.forget = s'.forget) (h : HostEffect s op t) (h' : HostEffect s' op t') : t.forget = t'.forget := by
  cases h with
  | command hd he =>
    cases h' with
    | command hd' he' =>
      obtain rfl := Decoded.instr.inj (hd.symm.trans hd')
      rw [exec_forget hs he, exec_forget hs' he', hf]
    | illegal hn => exact absurd hd (hn _)
    | regWrite h0 _ => exact absurd rfl h0
  | illegal hn =>
    cases h' with
    | command hd' _ => exact absurd hd' (hn _)
    | illegal _ => exact congrArg (·.raise .errIllegalCmd) hf
    | regWrite h0 _ => exact absurd rfl h0
  | regWrite h0 _ =>
    cases h' with
    | command | illegal => exact absurd rfl h0
    | regWrite _ _ => rw [State.forget_setReg, State.forget_setReg, hf]
  | @regRead i _ => cases h'; exact congrArg (fun u => u.pushRead (u.regWord i)) hf
  | @binRead w _ => cases h'; exact congrArg (fun u => u.pushRead (u.binWord w)) hf
  | @binWrite w v _ => cases h'; exact congrArg (fun u : State => { u with bin := u.bin.write w v }) hf
  | @boutRead i _ => cases h'; exact congrArg (fun u => u.pushRead (u.boutWord i)) hf
  | boutWrite _ => cases h'; exact hf
  | reset => cases h'; exact congrArg State.afterReset hf

/-- Settles O55: the host's view is a function of what is left without the slot arrays, the pool and the free input, and
each step of that is a function of it alone. -/
theorem freeBlockChoiceIsUnobservable : Obligations.FreeBlockChoiceIsUnobservable := by
  intro s s' t t' hs hs' hf h h'
  have hpending : s.pending = s'.pending := (congrArg State.pending hf :)
  have hforget : t.forget = t'.forget := by
    obtain ⟨hnil, rfl⟩ | ⟨op, rest, hcons, he⟩ := step_cases h
    · exact Host.Outcome.next.inj ((step_idle (hpending ▸ hnil)).symm.trans h') ▸ hf
    · rw [step_of_pending (hpending ▸ hcons)] at h'
      exact he.forget_congr (hs.withPending rest) (hs'.withPending rest) (congrArg (·.withPending rest) hf)
        (hostStep_effect h')
  exact ⟨hforget, by rw [← t.view_forget, hforget, t'.view_forget]⟩

end Sys2Proof.Machine
end

section
/-! PROOFS about 10_state.md R21 to R25, R34, R39 to R44: the registers, the buffers, the fields of `STATUS`, how an
address is packed into the `KEY` registers, the pool, the canonical layouts and the values of reset. -/

namespace Sys2Proof.Machine

/-! ### The write to `CMD` -/

/-- Settles O5: the write to `CMD` is taken off the pending list and runs the command. -/
theorem stepRunsTheDecodedCommand : Obligations.StepRunsTheDecodedCommand := by
  intro s c rest i hp hd
  rw [step_of_pending hp, hostStep_command, runCommand_instr hd]
  rfl

/-! ### Registers -/

/-- A write to `NH` or to a `KEY` register leaves `STATUS` as it is. -/
@[simp] theorem State.setReg_status (s : State) (i : Nat) (v : Word) : (s.setReg i v).status = s.status := by
  unfold State.setReg; split_ifs <;> rfl

theorem State.regWord_setReg_same {s : State} {i : Nat} (h3 : 3 ≤ i) (h7 : i ≤ 7) (v : Word) :
    (s.setReg i v).regWord i = v := by
  interval_cases i <;> rfl

/-- Only `NH` and `KEY0 .. KEY3` are stored; any other register write changes nothing (10_state.md R22, R43). -/
theorem State.setReg_ignored {s : State} {i : Nat} (h : i < 3 ∨ 7 < i) (v : Word) : s.setReg i v = s := by
  simp (disch := omega) only [State.setReg, if_neg]

/-- A write to one operand register leaves what every other register reads. -/
theorem State.regWord_setReg_ne {s : State} {i j : Nat} (h : j ≠ i) (v : Word) :
    (s.setReg i v).regWord j = s.regWord j := by
  unfold State.regWord
  rw [State.setReg_status]
  by_cases hi : i < 3 ∨ 7 < i
  · rw [State.setReg_ignored hi]
  · obtain ⟨h3, h7⟩ : 3 ≤ i ∧ i ≤ 7 := by omega
    interval_cases i <;> simp [State.setReg, h]

/-- A register write touches `NH` and `KEY0 .. KEY3` alone. -/
theorem State.setReg_frame (s : State) (i : Nat) (v : Word) : s.setReg i v =
    { s with
      nh := (s.setReg i v).nh
      key0 := (s.setReg i v).key0
      key1 := (s.setReg i v).key1
      key2 := (s.setReg i v).key2
      key3 := (s.setReg i v).key3 } := by
  unfold State.setReg; split_ifs <;> rfl

/-- The reserved register numbers read 0 (10_state.md R43). -/
theorem State.regWord_reserved {s : State} {i : Nat} (h : 11 ≤ i) : s.regWord i = 0#32 := by
  simp (disch := omega) only [State.regWord, if_neg]

/-- Settles O10: what a register write stores, and that every other register reads as before. -/
theorem operandRegistersStore : Obligations.OperandRegistersStore := by
  intro s i v rest hp h3 h7
  refine ⟨(s.withPending rest).setReg i v, ?_, State.setReg_frame (s.withPending rest) i v, fun j _ => ?_⟩
  · rw [step_of_pending hp, hostStep_regWrite (by omega) (by omega)]
  · split_ifs with hj
    · rw [hj, State.regWord_setReg_same h3 h7]
    · exact State.regWord_setReg_ne hj v

/-- Settles O11: a reserved register is no operand register and reads 0; a number above 15 is outside the space. -/
theorem reservedAndReadOnlyRegisters : Obligations.ReservedAndReadOnlyRegisters := by
  intro s i v rest
  refine ⟨fun h11 h15 hp => ?_, fun hi hp => ?_, fun h15 hp => ?_, fun h15 hp => ?_⟩
  · rw [step_of_pending hp, hostStep_regRead h15, State.regWord_reserved h11]; rfl
  · simp only [List.mem_cons, List.not_mem_nil, or_false] at hi
    rw [step_of_pending hp, hostStep_regWrite (by omega) (by omega), State.setReg_ignored (by omega)]; rfl
  · rw [step_of_pending hp, hostStep, if_neg (by omega)]
  · rw [step_of_pending hp, hostStep, if_neg (by omega), if_neg (by omega)]

/-- Settles O12: a read pushes the register's word, register by register. -/
theorem registerReadsHaveNoSideEffect : Obligations.RegisterReadsHaveNoSideEffect := by
  intro s i rest hp hi
  rw [step_of_pending hp, hostStep_regRead (by omega)]
  interval_cases i <;> rfl

/-! ### Buffers -/

/-- Settles O15: the write of one word of `BIN`. -/
theorem binStoresWords : Obligations.BinStoresWords := by
  intro s w v rest hp hw
  refine ⟨{ s.withPending rest with bin := s.bin.write w v }, ?_, rfl, fun w' => ?_⟩
  · rw [step_of_pending hp]
    exact hostStep_binWrite (s := s.withPending rest) hw v
  · exact State.binWord_write (s.withPending rest) w v w'

/-- Settles O16: the reads of the buffers and the ignored write. -/
theorem bufferReadsAndBoutWrites : Obligations.BufferReadsAndBoutWrites := by
  intro s w v rest
  refine ⟨fun hp hw => ?_, fun hp hw => ?_, fun hp hw => ?_⟩ <;> rw [step_of_pending hp]
  · exact hostStep_binRead (s := s.withPending rest) hw
  · exact hostStep_boutRead (s := s.withPending rest) hw
  · exact hostStep_boutWrite (s := s.withPending rest) hw v

/-! ### `STATUS` -/

/-- The low bits of `STATUS` are the code's number (10_state.md R25). -/
theorem State.status_code (s : State) : s.status.extractLsb' 0 4 = BitVec.ofNat 4 s.code.number :=
  BitVec.extractLsb'_append_eq_right

theorem Code.number_lt (c : Code) : c.number < 16 := by cases c <;> decide

theorem State.status_open (s : State) : s.status.getLsbD 4 = s.table.openBit := by
  simp only [State.status, BitVec.getLsbD_append]
  simp

theorem State.status_algo (s : State) : s.status.extractLsb' 5 2 = BitVec.ofNat 2 s.table.algoBits := by
  rw [State.status, BitVec.extractLsb'_append_eq_of_le (by decide), BitVec.extractLsb'_append_eq_of_le (by decide)]
  exact BitVec.extractLsb'_append_eq_right

theorem State.status_family (s : State) : s.status.extractLsb' 7 1 = BitVec.ofNat 1 s.table.familyBit := by
  rw [State.status, BitVec.extractLsb'_append_eq_of_le (by decide), BitVec.extractLsb'_append_eq_of_le (by decide),
    BitVec.extractLsb'_append_eq_of_le (by decide)]
  exact BitVec.extractLsb'_append_eq_right

theorem State.status_strict (s : State) : s.status.getLsbD 8 = s.table.strictBit := by
  simp only [State.status, BitVec.getLsbD_append]
  simp

theorem State.status_busy (s : State) : s.status.getLsbD 9 = false := by
  simp only [State.status, BitVec.getLsbD_append]
  simp

theorem State.status_reserved (s : State) : s.status.extractLsb' 10 22 = 0#22 := by
  rw [State.status]
  iterate 5 rw [BitVec.extractLsb'_append_eq_of_le (by decide)]
  exact BitVec.extractLsb'_append_eq_left

/-- The configuration fields, bits 8 to 5, are those of the table (10_state.md R25). -/
theorem State.status_config (s : State) : s.status.extractLsb' 5 4 =
    BitVec.ofBool s.table.strictBit ++ BitVec.ofNat 1 s.table.familyBit ++ BitVec.ofNat 2 s.table.algoBits := by
  refine BitVec.eq_of_getLsbD_eq fun i hi => ?_
  simp only [State.status, BitVec.getLsbD_extractLsb', BitVec.getLsbD_append]
  interval_cases i <;> simp

@[simp] theorem Table.openBit_eq_true {t : Table} : t.openBit = true ↔ t.life = .opened := by
  simp [Table.openBit]

theorem Table.openBit_closed {t : Table} (h : t.life = .closed) : t.openBit = false := by
  simp [Table.openBit, h]

/-- Settles O13: each field at its place, and its number in the open and the closed state. -/
theorem statusFields : Obligations.StatusFields := by
  intro s
  refine ⟨?_, ?_, fun hc => ?_, fun ho => ?_, ?_, s.status_busy, s.status_reserved⟩
  · rw [s.status_code, BitVec.toNat_ofNat, Nat.mod_eq_of_lt s.code.number_lt]
  · rw [s.status_open, Table.openBit_eq_true]
  · rw [s.status_config]
    simp [Table.strictBit, Table.familyBit, Table.algoBits, Table.openBit_closed hc]
  · rw [s.status_algo, s.status_family, Table.algoBits, Table.familyBit, if_pos (Table.openBit_eq_true.2 ho),
      if_pos (Table.openBit_eq_true.2 ho)]
    exact ⟨fun h => h ▸ rfl, fun h => h ▸ rfl, fun h => h ▸ rfl, fun h => h ▸ rfl, fun h => h ▸ rfl⟩
  · rw [s.status_strict, Table.strictBit, Bool.and_eq_true, Table.openBit_eq_true]

/-! ### Addresses -/

/-- A byte of the first of two words side by side is that byte of the word (00_scope.md R9). -/
theorem byte_append_left {w v k : Nat} (x : BitVec w) (y : BitVec v) (h : 8 * (k + 1) ≤ w) :
    byte (w + v) (x ++ y).toNat k = byte w x.toNat k := by
  rw [byte_eq (by omega), byte_eq h, BitVec.toNat_append, ← Nat.shiftLeft_add_eq_or_of_lt y.isLt, Nat.shiftLeft_eq,
    show w + v - 8 * (k + 1) = v + (w - 8 * (k + 1)) by omega, pow_add, ← Nat.div_div_eq_div_mul,
    Nat.mul_comm, Nat.mul_add_div (by positivity), Nat.div_eq_of_lt y.isLt, Nat.add_zero]

/-- A byte past the first of two words side by side is a byte of the second. -/
theorem byte_append_right {m v k : Nat} (x : BitVec (8 * m)) (y : BitVec v) (h : 8 * (k + 1) ≤ v) :
    byte (8 * m + v) (x ++ y).toNat (m + k) = byte v y.toNat k := by
  have hpow : 2 ^ v = 2 ^ (v - 8 * (k + 1)) * (256 * 2 ^ (8 * k)) := by
    rw [show 256 * 2 ^ (8 * k) = 2 ^ (8 + 8 * k) by rw [pow_add]; rfl, ← pow_add]; congr 1; omega
  rw [byte_eq (by omega), byte_eq h, BitVec.toNat_append, ← Nat.shiftLeft_add_eq_or_of_lt y.isLt, Nat.shiftLeft_eq,
    show 8 * m + v - 8 * (m + k + 1) = v - 8 * (k + 1) by omega, hpow, ← Nat.mul_assoc, Nat.mul_comm x.toNat,
    Nat.mul_assoc, Nat.mul_add_div (by positivity), Nat.mul_left_comm, Nat.mul_add_mod]

/-- Byte `r` of the word numbered `q` is byte `4q + r` of the four words side by side (10_state.md R23). -/
theorem byte_words (w0 w1 w2 w3 : Word) {q r : Nat} (hq : q < 4) (hr : r < 4) :
    byte 128 (w0 ++ w1 ++ w2 ++ w3).toNat (4 * q + r) = byte 32 ([w0, w1, w2, w3].getD q 0#32).toNat r := by
  interval_cases q
  · rw [byte_append_left (w0 ++ w1 ++ w2) w3 (by omega), byte_append_left (w0 ++ w1) w2 (by omega),
      byte_append_left w0 w1 (by omega), Nat.mul_zero, Nat.zero_add]
    rfl
  · rw [byte_append_left (w0 ++ w1 ++ w2) w3 (by omega), byte_append_left (w0 ++ w1) w2 (by omega)]
    exact byte_append_right (m := 4) w0 w1 (by omega)
  · rw [byte_append_left (w0 ++ w1 ++ w2) w3 (by omega)]
    exact byte_append_right (m := 8) (w0 ++ w1) w2 (by omega)
  · exact byte_append_right (m := 12) (w0 ++ w1 ++ w2) w3 (by omega)

theorem State.keyAddress_ipv4 {s : State} (h : s.table.family = .ipv4) : s.keyAddress = s.key0.toNat := by
  rw [State.keyAddress, h, assemble]

theorem State.keyAddress_ipv6 {s : State} (h : s.table.family = .ipv6) :
    s.keyAddress = (s.key0 ++ s.key1 ++ s.key2 ++ s.key3).toNat := by
  rw [State.keyAddress, h, assemble]

/-- Settles O17, by the bytes of four words side by side. -/
theorem addressPacking : Obligations.AddressPacking := by
  intro s
  refine ⟨fun h4 => ⟨State.keyAddress_ipv4 h4, fun k _ => ?_⟩,
    fun h6 => ⟨State.keyAddress_ipv6 h6, fun k hk => ?_⟩⟩
  · rw [State.keyAddress_ipv4 h4, byte]
  · rw [State.keyAddress_ipv6 h6]
    conv_lhs => rw [← Nat.div_add_mod k 4]
    rw [byte_words s.key0 s.key1 s.key2 s.key3 (by omega) (Nat.mod_lt _ (by decide)), byte]

/-! ### The upper `KEY` registers of an IPv4 table -/

/-- The state with other words in `KEY1`, `KEY2`, `KEY3`. -/
def State.withUpperKeys (s : State) (a b c : Word) : State := { s with key1 := a, key2 := b, key3 := c }

section
variable (s : State) (a b c : Word)

@[simp] theorem State.withUpperKeys_table : (s.withUpperKeys a b c).table = s.table := rfl
@[simp] theorem State.withUpperKeys_params : (s.withUpperKeys a b c).params = s.params := rfl

/-- A batch reads its addresses from `BIN` (44_batch.md R252). -/
@[simp] theorem State.withUpperKeys_batchOut (n : Nat) : (s.withUpperKeys a b c).batchOut n = s.batchOut n := by
  induction n with
  | zero => rfl
  | succ n ih => rw [State.batchOut, ih]; rfl

end

theorem State.withUpperKeys_keyAddress {s : State} (h : s.table.family = .ipv4) (a b c : Word) :
    (s.withUpperKeys a b c).keyAddress = s.keyAddress :=
  (State.keyAddress_ipv4 (s := s.withUpperKeys a b c) h).trans (State.keyAddress_ipv4 h).symm

theorem State.withUpperKeys_prefixOperand {s : State} (h : s.table.family = .ipv4) (a b c : Word) (len : Nat) :
    (s.withUpperKeys a b c).prefixOperand len = s.prefixOperand len := by
  rw [State.prefixOperand, State.withUpperKeys_keyAddress h, State.withUpperKeys_table]; rfl

/-- On an IPv4 table a command does the same whatever the upper `KEY` registers hold. -/
theorem exec_withUpperKeys {i : Instr} {s t : State} (hf : s.table.family = .ipv4) (h : exec i s = .next t)
    (a b c : Word) : exec i (s.withUpperKeys a b c) = .next (t.withUpperKeys a b c) := by
  cases i with
  | construct algo family strict =>
    simp only [exec, execConstruct, State.withUpperKeys_table, State.withUpperKeys_params] at h ⊢
    split at h
    · exact Host.Outcome.next.inj h ▸ rfl
    · split at h <;> exact Host.Outcome.next.inj h ▸ rfl
  | insert len =>
    simp only [exec, execInsert, State.withUpperKeys_table, State.withUpperKeys_prefixOperand hf] at h ⊢
    split at h
    · exact Host.Outcome.next.inj h ▸ rfl
    · split at h
      · exact Host.Outcome.next.inj h ▸ rfl
      · split_ifs at h with hnh hlack <;> obtain rfl := Host.Outcome.next.inj h
        · exact if_pos hnh
        · exact (if_neg hnh).trans (if_pos hlack)
        · exact (if_neg hnh).trans (if_neg hlack)
  | delete len =>
    simp only [exec, execDelete, State.withUpperKeys_table, State.withUpperKeys_prefixOperand hf] at h ⊢
    split at h
    · exact Host.Outcome.next.inj h ▸ rfl
    · split at h
      · exact Host.Outcome.next.inj h ▸ rfl
      · split_ifs at h with hst <;> obtain rfl := Host.Outcome.next.inj h
        · exact if_pos hst
        · exact if_neg hst
  | lookup =>
    simp only [exec, execLookup, State.withUpperKeys_table, State.withUpperKeys_keyAddress hf] at h ⊢
    split at h <;> exact Host.Outcome.next.inj h ▸ rfl
  | lookupBatch count =>
    simp only [exec, execLookupBatch, State.withUpperKeys_table, State.withUpperKeys_params,
      State.withUpperKeys_batchOut] at h ⊢
    split at h
    · exact Host.Outcome.next.inj h ▸ rfl
    · split_ifs at h with hc <;> obtain rfl := Host.Outcome.next.inj h
      · exact if_pos hc
      · exact if_neg hc
  | stats =>
    simp only [exec, execStats, State.withUpperKeys_table] at h ⊢
    split at h <;> exact Host.Outcome.next.inj h ▸ rfl
  | close =>
    simp only [exec, execClose, State.withUpperKeys_table] at h ⊢
    split at h <;> exact Host.Outcome.next.inj h ▸ rfl

/-- Settles O19: an IPv4 operand is read from `KEY0` alone. -/
theorem ipv4IgnoresUpperKeys : Obligations.Ipv4IgnoresUpperKeys :=
  fun _ _ _ a b c hf h => exec_withUpperKeys hf h a b c

/-! ### Reset, the pool and the canonical layouts -/

/-- Settles O20: the reset state, field by field. -/
theorem resetValues : Obligations.ResetValues :=
  ⟨rfl, by decide, rfl, rfl, rfl, rfl, rfl, rfl, rfl, rfl, rfl, rfl, rfl, rfl, rfl, rfl, rfl, rfl, rfl, fun _ => rfl⟩

/-- Settles O48: the allocation takes a block that the pool does not list, and both keep the accounts. -/
theorem allocAndFree : Obligations.AllocAndFree := by
  intro n t hn hpool hnodes
  have hacct : t.Acct n := ⟨hpool, hnodes, hn⟩
  refine ⟨fun hfree => ?_, fun b hb => ?_⟩
  · have hroom : t.pool.length < n := by rw [hacct.free_eq] at hfree; omega
    obtain ⟨hunused, hlt⟩ := Table.pickFree_spec hpool hroom
    obtain ⟨hacct', hlen⟩ := hacct.allocBlock hroom
    refine ⟨hunused, hlt, fun b => ?_, ?_, fun b hb => ?_, ?_⟩
    · rw [Table.inUse_allocBlock, Table.allocBlock_fst, Bool.or_eq_true, decide_eq_true_eq]
    · rw [Table.block_allocBlock, Table.allocBlock_fst, if_pos rfl]
    · rw [Table.block_allocBlock]
      exact if_neg hb
    · rw [hacct'.nodes, hlen, hnodes]
  · obtain ⟨hacct', hlen⟩ := hacct.freeBlock hb
    refine ⟨fun b' => ?_, fun b' hb' => ?_, ?_⟩
    · rw [Table.inUse_freeBlock, Bool.and_eq_true, decide_eq_true_eq]
    · rw [Table.block_freeBlock, if_neg hb']
    · rw [hacct'.nodes, hlen, hnodes]

/-- Settles O33: what each layout's canonical form gives its lookup to read. -/
theorem canonicalTablesAnswerLpm : Obligations.CanonicalTablesAnswerLpm := by
  intro _ t _ hl _ hc a ha
  obtain ⟨hmod, hpos⟩ := width_facts t.family
  obtain ⟨hdir, hwide⟩ := legal_width hl
  unfold Table.Canonical at hc
  unfold Table.layoutLookup
  cases halgo : t.algo with
  | stride8 =>
    rw [halgo] at hc
    exact Table.s8Lookup_eq (Table.Stride8Canonical.reads halgo hc) hmod hpos ha
  | dir24 =>
    rw [halgo] at hc
    rw [hdir halgo] at ha ⊢
    exact Table.d24Lookup_eq (Table.Dir24Canonical.reads hc) ha
  | wide16 =>
    rw [halgo] at hc
    obtain ⟨htrie, hleaves⟩ := Table.Wide16Canonical.reads halgo (hwide halgo) hc
    rw [hwide halgo] at ha ⊢
    exact Table.w16Lookup_eq htrie hleaves ha

end Sys2Proof.Machine
end

section
/-! PROOFS about 20_memory.md R63: a host operation is refused exactly where its index is outside its space. -/

namespace Sys2Proof.Machine

/-! ### Commands end -/

/-- No command faults or is refused: each branch of each command's meaning is a next state. -/
theorem exec_ends (i : Instr) (s : State) : ∃ t, exec i s = .next t := by
  cases i with
  | construct algo family strict =>
    rw [exec, execConstruct]
    split
    · exact ⟨_, rfl⟩
    · split <;> exact ⟨_, rfl⟩
  | insert len =>
    rw [exec, execInsert]
    split
    · exact ⟨_, rfl⟩
    · split
      · exact ⟨_, rfl⟩
      · split_ifs <;> exact ⟨_, rfl⟩
  | delete len =>
    rw [exec, execDelete]
    split
    · exact ⟨_, rfl⟩
    · split
      · exact ⟨_, rfl⟩
      · split_ifs <;> exact ⟨_, rfl⟩
  | lookup => rw [exec, execLookup]; split <;> exact ⟨_, rfl⟩
  | lookupBatch count =>
    rw [exec, execLookupBatch]
    split
    · exact ⟨_, rfl⟩
    · split_ifs <;> exact ⟨_, rfl⟩
  | stats => rw [exec, execStats]; split <;> exact ⟨_, rfl⟩
  | close => rw [exec, execClose]; split <;> exact ⟨_, rfl⟩

/-- A write to `CMD` ends whether or not the word is a command (30_encoding.md R98). -/
theorem runCommand_ends (c : Word) (s : State) : ∃ t, runCommand c s = .next t := by
  by_cases hd : ∃ i, decode c = .instr i
  · obtain ⟨i, hi⟩ := hd
    exact runCommand_instr hi s ▸ exec_ends i s
  · exact ⟨_, runCommand_illegal (not_exists.1 hd) s⟩

/-! ### The index decides -/

theorem hostStep_outOfRange {op : HostOp} {s : State} (h : op.OutOfRange s.params) :
    hostStep op s = .refused (.hostIndexOutOfRange op) := by
  cases op with
  | regRead i => exact if_neg (Nat.not_le.2 h)
  | regWrite i v => exact (if_neg (Nat.ne_zero_of_lt h)).trans (if_neg (Nat.not_le.2 h))
  | binRead _ | binWrite _ _ | boutRead _ | boutWrite _ _ => exact if_neg (Nat.not_lt.2 h)
  | reset => exact h.elim

/-- An operation whose index lies in its space ends, the write to `CMD` because every command does. -/
theorem hostStep_ends {op : HostOp} {s : State} (h : ¬op.OutOfRange s.params) : ∃ t, hostStep op s = .next t := by
  cases op with
  | regRead i => exact ⟨_, hostStep_regRead (Nat.not_lt.1 h)⟩
  | regWrite i v =>
    by_cases h0 : i = 0
    · subst h0
      exact runCommand_ends v s
    · exact ⟨_, hostStep_regWrite h0 (Nat.not_lt.1 h) v⟩
  | binRead w => exact ⟨_, hostStep_binRead (Nat.not_le.1 h)⟩
  | binWrite w v => exact ⟨_, hostStep_binWrite (Nat.not_le.1 h) v⟩
  | boutRead i => exact ⟨_, hostStep_boutRead (Nat.not_le.1 h)⟩
  | boutWrite i v => exact ⟨_, hostStep_boutWrite (Nat.not_le.1 h) v⟩
  | reset => exact ⟨_, rfl⟩

/-- Where a host operation is refused, its index is outside its space: otherwise it would end. -/
theorem outOfRange_of_hostStep_refused {op : HostOp} {s : State} {r : Refusal} (h : hostStep op s = .refused r) :
    op.OutOfRange s.params := by
  by_contra hin
  obtain ⟨t, ht⟩ := hostStep_ends hin
  exact nomatch ht.symm.trans h

theorem step_outOfRange {s : State} {op : HostOp} {rest : List HostOp} (hp : s.pending = op :: rest)
    (h : op.OutOfRange s.params) : step s = .refused (.hostIndexOutOfRange op) :=
  (step_of_pending hp).trans (hostStep_outOfRange (s := s.withPending rest) h)

/-- A refused step is no idle one, and refuses the next operation for its index. -/
theorem outOfRange_of_step_refused {s : State} {r : Refusal} (h : step s = .refused r) :
    ∃ op rest, s.pending = op :: rest ∧ op.OutOfRange s.params := by
  cases hp : s.pending with
  | nil => exact nomatch (step_idle hp).symm.trans h
  | cons op rest =>
    exact ⟨op, rest, rfl,
      outOfRange_of_hostStep_refused (s := s.withPending rest) ((step_of_pending hp).symm.trans h)⟩

/-- Settles O9: an index outside its space refuses the step, and every other step ends in a next state. -/
theorem onlyOutOfRangeIndicesAreRefused : Obligations.OnlyOutOfRangeIndicesAreRefused := by
  refine fun s => ⟨⟨fun ⟨_, h⟩ => outOfRange_of_step_refused h, ?_⟩, fun _ _ => step_outOfRange⟩
  rintro ⟨op, rest, hp, h⟩
  exact ⟨_, step_outOfRange hp h⟩

end Sys2Proof.Machine
end

section
/-! PROOFS about 30_encoding.md R91 to R99: the words of each format, decoding and encoding as inverses, the rows of the
opcode map, and the write of an illegal word. -/

namespace Sys2Proof

/-! ### Fields of a word -/

theorem bits_eq_extractLsb' (c : Word) (hi lo : Nat) :
    bits c.toNat hi lo = (c.extractLsb' lo (hi + 1 - lo)).toNat := rfl

/-- Two words agree on a field exactly when they agree on both its parts. -/
theorem extractLsb'_eq_iff_split {w : Nat} {x y : BitVec w} (s a b : Nat) :
    x.extractLsb' s (b + a) = y.extractLsb' s (b + a) ↔
      x.extractLsb' s a = y.extractLsb' s a ∧ x.extractLsb' (s + a) b = y.extractLsb' (s + a) b := by
  constructor
  · intro h
    have hbit (i : Nat) (hi : i < b + a) : x.getLsbD (s + i) = y.getLsbD (s + i) := by
      simpa [hi] using congrArg (BitVec.getLsbD · i) h
    refine ⟨BitVec.eq_of_getLsbD_eq fun i hi => ?_, BitVec.eq_of_getLsbD_eq fun i hi => ?_⟩
    · simp [hi, hbit i (by omega)]
    · simp [hi, Nat.add_assoc, hbit (a + i) (by omega)]
  · rintro ⟨hlow, hhigh⟩
    rw [← BitVec.extractLsb'_append_extractLsb'_eq_extractLsb' rfl, hlow, hhigh,
      BitVec.extractLsb'_append_extractLsb'_eq_extractLsb' rfl]

theorem extractLsb'_eq_zero_iff_split {w : Nat} {x : BitVec w} (s a b : Nat) :
    x.extractLsb' s (b + a) = 0#(b + a) ↔ x.extractLsb' s a = 0#a ∧ x.extractLsb' (s + a) b = 0#b := by
  simpa using extractLsb'_eq_iff_split (x := x) (y := 0#w) s a b

theorem eq_opcode_iff {x : Word} {op : BitVec 4} :
    x = op.setWidth 32 ↔ x.extractLsb' 0 4 = op ∧ x.extractLsb' 4 28 = 0#28 := by
  have hop : (op.setWidth 32).extractLsb' 0 4 = op ∧ (op.setWidth 32).extractLsb' 4 28 = 0#28 := by
    revert op; decide
  simpa [hop] using extractLsb'_eq_iff_split (x := x) (y := op.setWidth 32) 0 4 28

theorem extractLsb'_and_of_ones {c m : Word} {s n : Nat} (h : m.extractLsb' s n = BitVec.allOnes n) :
    (c &&& m).extractLsb' s n = c.extractLsb' s n := by
  rw [BitVec.extractLsb'_and, h, BitVec.and_allOnes]

theorem extractLsb'_and_of_zeros {c m : Word} {s n : Nat} (h : m.extractLsb' s n = 0#n) :
    (c &&& m).extractLsb' s n = 0#n := by
  rw [BitVec.extractLsb'_and, h, BitVec.and_zero]

/-! ### The masks of the four formats (30_encoding.md R91, R92) -/

theorem and_maskC_eq_iff {c : Word} {op : BitVec 4} : c &&& 0xFFFFFF0F#32 = op.setWidth 32 ↔
    c.extractLsb' 0 4 = op ∧ c.extractLsb' 8 24 = 0#24 := by
  rw [eq_opcode_iff, extractLsb'_and_of_ones (by decide), extractLsb'_eq_zero_iff_split 4 4 24,
    extractLsb'_and_of_zeros (by decide), extractLsb'_and_of_ones (by decide)]
  simp

theorem and_maskP_eq_iff {c : Word} {op : BitVec 4} : c &&& 0xFFFF00FF#32 = op.setWidth 32 ↔
    c.extractLsb' 0 4 = op ∧ c.extractLsb' 16 16 = 0#16 ∧ c.extractLsb' 4 4 = 0#4 := by
  rw [eq_opcode_iff, extractLsb'_and_of_ones (by decide), extractLsb'_eq_zero_iff_split 4 4 24,
    extractLsb'_and_of_ones (by decide), extractLsb'_eq_zero_iff_split 8 8 16,
    extractLsb'_and_of_zeros (by decide), extractLsb'_and_of_ones (by decide)]
  simp [and_comm]

theorem and_maskZ_eq_iff {c : Word} {op : BitVec 4} : c &&& 0xFFFFFFFF#32 = op.setWidth 32 ↔
    c.extractLsb' 0 4 = op ∧ c.extractLsb' 4 28 = 0#28 := by
  rw [eq_opcode_iff, extractLsb'_and_of_ones (by decide), extractLsb'_and_of_ones (by decide)]

theorem and_maskB_eq_iff {c : Word} {op : BitVec 4} : c &&& 0x000000FF#32 = op.setWidth 32 ↔
    c.extractLsb' 0 4 = op ∧ c.extractLsb' 4 4 = 0#4 := by
  rw [eq_opcode_iff, extractLsb'_and_of_ones (by decide), extractLsb'_eq_zero_iff_split 4 4 24,
    extractLsb'_and_of_ones (by decide), extractLsb'_and_of_zeros (by decide)]
  simp

/-! ### The words of each command -/

/-- `c` is a word of the command: the opcode is the command's, the must-be-zero bits of its format are zero, and the
fields stand where the format has them (30_encoding.md R91 to R95). -/
inductive WordOf (c : Word) : Instr → Prop
  | construct : c.extractLsb' 0 4 = 1#4 → c.extractLsb' 8 24 = 0#24 →
      WordOf c (.construct (AlgoTag.ofBits (c.extractLsb' 4 2).toNat) (Family.ofBit (c.extractLsb' 6 1).toNat)
        (c.getLsbD 7))
  | insert : c.extractLsb' 0 4 = 2#4 → c.extractLsb' 16 16 = 0#16 → c.extractLsb' 4 4 = 0#4 →
      WordOf c (.insert (c.extractLsb' 8 8).toNat)
  | delete : c.extractLsb' 0 4 = 3#4 → c.extractLsb' 16 16 = 0#16 → c.extractLsb' 4 4 = 0#4 →
      WordOf c (.delete (c.extractLsb' 8 8).toNat)
  | lookup : c.extractLsb' 0 4 = 4#4 → c.extractLsb' 4 28 = 0#28 → WordOf c .lookup
  | lookupBatch : c.extractLsb' 0 4 = 5#4 → c.extractLsb' 4 4 = 0#4 →
      WordOf c (.lookupBatch (c.extractLsb' 8 24).toNat)
  | stats : c.extractLsb' 0 4 = 6#4 → c.extractLsb' 4 28 = 0#28 → WordOf c .stats
  | close : c.extractLsb' 0 4 = 7#4 → c.extractLsb' 4 28 = 0#28 → WordOf c .close

theorem decide_bits_eq_getLsbD (c : Word) (i : Nat) : decide (bits c.toNat i i = 1) = c.getLsbD i := by
  rw [BitVec.getLsbD, Nat.testBit_eq_decide_div_mod_eq, bits, Nat.add_sub_cancel_left, Nat.shiftRight_eq_div_pow,
    pow_one]

/-- A command is decoded from its words and from no others. -/
theorem decode_eq_instr_iff {c : Word} {i : Instr} : decode c = .instr i ↔ WordOf c i := by
  constructor
  · intro h
    simp only [decode, decide_bits_eq_getLsbD] at h
    split_ifs at h with h1 z1 h2 z2 h3 z3 h4 z4 h5 z5 h6 z6 h7 z7 <;> cases h
    · exact .construct (BitVec.eq_of_toNat_eq h1) (BitVec.eq_of_toNat_eq z1)
    · exact .insert (BitVec.eq_of_toNat_eq h2) (BitVec.eq_of_toNat_eq z2.1) (BitVec.eq_of_toNat_eq z2.2)
    · exact .delete (BitVec.eq_of_toNat_eq h3) (BitVec.eq_of_toNat_eq z3.1) (BitVec.eq_of_toNat_eq z3.2)
    · exact .lookup (BitVec.eq_of_toNat_eq h4) (BitVec.eq_of_toNat_eq z4)
    · exact .lookupBatch (BitVec.eq_of_toNat_eq h5) (BitVec.eq_of_toNat_eq z5)
    · exact .stats (BitVec.eq_of_toNat_eq h6) (BitVec.eq_of_toNat_eq z6)
    · exact .close (BitVec.eq_of_toNat_eq h7) (BitVec.eq_of_toNat_eq z7)
  · intro h
    cases h with
    | construct hop hz | lookup hop hz | lookupBatch hop hz | stats hop hz | close hop hz =>
      simp only [decode, decide_bits_eq_getLsbD]
      simp [bits_eq_extractLsb', hop, hz]
    | insert hop hz hz' | delete hop hz hz' => simp [decode, bits_eq_extractLsb', hop, hz, hz']

/-- Settles O2: a word of a format is decoded to its command. -/
theorem decodeReadsTheFormats : Obligations.DecodeReadsTheFormats := by
  refine fun c => ⟨fun hop hz => ⟨_, _, decode_eq_instr_iff.2 (.construct hop hz), ?_⟩,
    fun hop hz hz' => decode_eq_instr_iff.2 (.insert hop hz hz'),
    fun hop hz hz' => decode_eq_instr_iff.2 (.delete hop hz hz'),
    fun hop hz => decode_eq_instr_iff.2 (.lookup hop hz),
    fun hop hz => decode_eq_instr_iff.2 (.lookupBatch hop hz),
    fun hop hz => decode_eq_instr_iff.2 (.stats hop hz), fun hop hz => decode_eq_instr_iff.2 (.close hop hz)⟩
  refine ⟨?_, ?_, ?_, ?_, ?_, ?_⟩ <;> intro h <;> rw [h] <;> rfl

/-- Settles O4, by evaluating the decoder on each word. -/
theorem sampleWordsDecode : Obligations.SampleWordsDecode := by
  unfold Obligations.SampleWordsDecode
  decide

/-! ### Decoding and encoding -/

theorem AlgoTag.toBits_ofBits : ∀ n : BitVec 2, (AlgoTag.ofBits n.toNat).toBits = n.toNat := by decide

theorem Family.toBit_ofBit : ∀ n : BitVec 1, (Family.ofBit n.toNat).toBit = n.toNat := by decide

theorem toNat_encode {i : Instr} (h : i.wellFormed = true) : (encode i).toNat = i.opcode + i.fieldBits := by
  cases i with
  | construct algo family strict => exact (Laws.EncodeKeepsFields.construct algo family strict h).1
  | insert len => exact (Laws.EncodeKeepsFields.insert len h).1
  | delete len => exact (Laws.EncodeKeepsFields.delete len h).1
  | lookup => exact (Laws.EncodeKeepsFields.lookup h).1
  | lookupBatch count => exact (Laws.EncodeKeepsFields.lookupBatch count h).1
  | stats => exact (Laws.EncodeKeepsFields.stats h).1
  | close => exact (Laws.EncodeKeepsFields.close h).1

theorem WordOf.wellFormed {c : Word} {i : Instr} (h : WordOf c i) : i.wellFormed = true := by
  cases h with
  | insert _ _ _ | delete _ _ _ | lookupBatch _ _ => exact decide_eq_true (BitVec.isLt _)
  | construct _ _ | lookup _ _ | stats _ _ | close _ _ => rfl

theorem extractLsb'_eq_iff_toNat {c : Word} {s n : Nat} {k : BitVec n} :
    c.extractLsb' s n = k ↔ c.toNat / 2 ^ s % 2 ^ n = k.toNat := by
  rw [← BitVec.toNat_inj, BitVec.extractLsb'_toNat, Nat.shiftRight_eq_div_pow]

theorem toNat_getLsbD (c : Word) (i : Nat) : (c.getLsbD i).toNat = c.toNat / 2 ^ i % 2 := by
  rw [BitVec.getLsbD, Nat.toNat_testBit]

/-- The opcode and the fields of a word of a command make up the whole word. -/
theorem WordOf.toNat_eq {c : Word} {i : Instr} (h : WordOf c i) : c.toNat = i.opcode + i.fieldBits := by
  cases h with
  | construct hop hz =>
    simp only [extractLsb'_eq_iff_toNat, BitVec.toNat_ofNat] at hop hz
    simp only [Instr.opcode, Instr.fieldBits]
    rw [AlgoTag.toBits_ofBits, Family.toBit_ofBit, toNat_getLsbD]
    simp only [BitVec.extractLsb'_toNat, Nat.shiftLeft_eq, Nat.shiftRight_eq_div_pow]
    omega
  | insert _ _ _ | delete _ _ _ | lookup _ _ | lookupBatch _ _ | stats _ _ | close _ _ =>
    simp only [extractLsb'_eq_iff_toNat, BitVec.toNat_ofNat, BitVec.extractLsb'_toNat, Instr.opcode, Instr.fieldBits,
      Nat.shiftLeft_eq, Nat.shiftRight_eq_div_pow] at *
    omega

/-- Formats P and B: an opcode and a field from bit 8 upward. -/
theorem fields_of_toNat_eq {c : Word} {op : BitVec 4} {f : Nat} (h : c.toNat = op.toNat + f <<< 8) :
    c.extractLsb' 0 4 = op ∧ c.extractLsb' 4 4 = 0#4 ∧ (c.extractLsb' 8 24).toNat = f := by
  have hop := op.isLt
  simp only [extractLsb'_eq_iff_toNat, BitVec.toNat_ofNat, BitVec.extractLsb'_toNat, Nat.shiftRight_eq_div_pow,
    Nat.shiftLeft_eq] at *
  omega

/-- Format P: the field ends below bit 16. -/
theorem lengthField_of_lt {c : Word} {len : Nat} (h : (c.extractLsb' 8 24).toNat = len) (hlen : len < 2 ^ 8) :
    c.extractLsb' 16 16 = 0#16 ∧ (c.extractLsb' 8 8).toNat = len := by
  simp only [extractLsb'_eq_iff_toNat, BitVec.toNat_ofNat, BitVec.extractLsb'_toNat, Nat.shiftRight_eq_div_pow] at *
  omega

theorem wordOf_encode {i : Instr} (h : i.wellFormed = true) : WordOf (encode i) i := by
  have hn := toNat_encode h
  cases i with
  | construct algo family strict =>
    rw [← decode_eq_instr_iff]
    cases algo <;> cases family <;> cases strict <;> rfl
  | insert len =>
    obtain ⟨hop, hz, hf⟩ := fields_of_toNat_eq (op := 2#4) hn
    obtain ⟨hz', hlen⟩ := lengthField_of_lt hf (of_decide_eq_true h)
    simpa only [hlen] using WordOf.insert hop hz' hz
  | delete len =>
    obtain ⟨hop, hz, hf⟩ := fields_of_toNat_eq (op := 3#4) hn
    obtain ⟨hz', hlen⟩ := lengthField_of_lt hf (of_decide_eq_true h)
    simpa only [hlen] using WordOf.delete hop hz' hz
  | lookup => exact .lookup rfl rfl
  | lookupBatch count =>
    obtain ⟨hop, hz, hf⟩ := fields_of_toNat_eq (op := 5#4) hn
    simpa only [hf] using WordOf.lookupBatch hop hz
  | stats => exact .stats rfl rfl
  | close => exact .close rfl rfl

/-- Settles O1: a command's word is one of its words, and the only one. -/
theorem decodeEncodeAgree : Obligations.DecodeEncodeAgree := by
  refine ⟨fun i h => decode_eq_instr_iff.2 (wordOf_encode h), fun c i h => ?_⟩
  have hw := decode_eq_instr_iff.1 h
  exact ⟨hw.wellFormed, BitVec.eq_of_toNat_eq ((toNat_encode hw.wellFormed).trans hw.toNat_eq.symm)⟩

/-! ### The rows of the opcode map -/

theorem matchesWord_iff {r : OpcodeRow} {c : Word} : r.matchesWord c = true ↔ c &&& r.mask = r.pattern :=
  decide_eq_true_iff

/-- Every mask covers the opcode. -/
theorem opcode_of_matchesWord {r : OpcodeRow} (hr : r ∈ opcodeRows) {c : Word} (h : r.matchesWord c = true) :
    r.pattern.extractLsb' 0 4 = c.extractLsb' 0 4 := by
  have hmask : ∀ r ∈ opcodeRows, r.mask.extractLsb' 0 4 = BitVec.allOnes 4 := by decide
  rw [← matchesWord_iff.1 h, extractLsb'_and_of_ones (hmask r hr)]

/-- The opcode tells the rows apart. -/
theorem opcodeRow_eq_of_opcode_eq : ∀ r ∈ opcodeRows, ∀ r' ∈ opcodeRows,
    r.pattern.extractLsb' 0 4 = r'.pattern.extractLsb' 0 4 → r = r' := by decide

theorem opcodeRow_eq_of_matchesWord {r r' : OpcodeRow} (hr : r ∈ opcodeRows) (hr' : r' ∈ opcodeRows) {c : Word}
    (h : r.matchesWord c = true) (h' : r'.matchesWord c = true) : r = r' :=
  opcodeRow_eq_of_opcode_eq r hr r' hr' ((opcode_of_matchesWord hr h).trans (opcode_of_matchesWord hr' h').symm)

/-- A word of a command matches the command's row. -/
theorem WordOf.exists_row {c : Word} {i : Instr} (h : WordOf c i) :
    ∃ r ∈ opcodeRows, r.matchesWord c = true ∧ r.mnemonic = i.mnemonic := by
  cases h with
  | construct hop hz =>
    exact ⟨opcodeRows[0], List.getElem_mem _, matchesWord_iff.2 (and_maskC_eq_iff.2 ⟨hop, hz⟩), rfl⟩
  | insert hop hz hz' =>
    exact ⟨opcodeRows[1], List.getElem_mem _, matchesWord_iff.2 (and_maskP_eq_iff.2 ⟨hop, hz, hz'⟩), rfl⟩
  | delete hop hz hz' =>
    exact ⟨opcodeRows[2], List.getElem_mem _, matchesWord_iff.2 (and_maskP_eq_iff.2 ⟨hop, hz, hz'⟩), rfl⟩
  | lookup hop hz =>
    exact ⟨opcodeRows[3], List.getElem_mem _, matchesWord_iff.2 (and_maskZ_eq_iff.2 ⟨hop, hz⟩), rfl⟩
  | lookupBatch hop hz =>
    exact ⟨opcodeRows[4], List.getElem_mem _, matchesWord_iff.2 (and_maskB_eq_iff.2 ⟨hop, hz⟩), rfl⟩
  | stats hop hz =>
    exact ⟨opcodeRows[5], List.getElem_mem _, matchesWord_iff.2 (and_maskZ_eq_iff.2 ⟨hop, hz⟩), rfl⟩
  | close hop hz =>
    exact ⟨opcodeRows[6], List.getElem_mem _, matchesWord_iff.2 (and_maskZ_eq_iff.2 ⟨hop, hz⟩), rfl⟩

/-- A word that matches a row is a word of a command of that row. -/
theorem exists_wordOf_of_matchesWord {r : OpcodeRow} (hr : r ∈ opcodeRows) {c : Word} (h : r.matchesWord c = true) :
    ∃ i, WordOf c i ∧ i.mnemonic = r.mnemonic := by
  rw [matchesWord_iff] at h
  simp only [opcodeRows, List.mem_cons, List.not_mem_nil, or_false] at hr
  obtain rfl | rfl | rfl | rfl | rfl | rfl | rfl := hr
  · obtain ⟨hop, hz⟩ := (and_maskC_eq_iff (op := 1#4)).1 h
    exact ⟨_, .construct hop hz, rfl⟩
  · obtain ⟨hop, hz, hz'⟩ := (and_maskP_eq_iff (op := 2#4)).1 h
    exact ⟨_, .insert hop hz hz', rfl⟩
  · obtain ⟨hop, hz, hz'⟩ := (and_maskP_eq_iff (op := 3#4)).1 h
    exact ⟨_, .delete hop hz hz', rfl⟩
  · obtain ⟨hop, hz⟩ := (and_maskZ_eq_iff (op := 4#4)).1 h
    exact ⟨_, .lookup hop hz, rfl⟩
  · obtain ⟨hop, hz⟩ := (and_maskB_eq_iff (op := 5#4)).1 h
    exact ⟨_, .lookupBatch hop hz, rfl⟩
  · obtain ⟨hop, hz⟩ := (and_maskZ_eq_iff (op := 6#4)).1 h
    exact ⟨_, .stats hop hz, rfl⟩
  · obtain ⟨hop, hz⟩ := (and_maskZ_eq_iff (op := 7#4)).1 h
    exact ⟨_, .close hop hz, rfl⟩

/-- Settles O3: the words of a row's command are those the row matches. -/
theorem rowsDecideTheCommand : Obligations.RowsDecideTheCommand := by
  refine ⟨fun c m => ⟨?_, ?_⟩, fun _ _ hr _ hr' => opcodeRow_eq_of_matchesWord hr hr'⟩
  · rintro ⟨i, hd, rfl⟩
    exact (decode_eq_instr_iff.1 hd).exists_row
  · rintro ⟨r, hr, h, rfl⟩
    obtain ⟨i, hw, hm⟩ := exists_wordOf_of_matchesWord hr h
    exact ⟨i, decode_eq_instr_iff.2 hw, hm⟩

/-! ### Illegal words -/

theorem opcodeRow_opcode_range : ∀ r ∈ opcodeRows,
    r.pattern.extractLsb' 0 4 ≠ 0#4 ∧ (r.pattern.extractLsb' 0 4).toNat < 8 := by decide

/-- A word that is no row's is illegal: a command's word has its row's opcode and matches no other row
(30_encoding.md R98). -/
theorem decode_ne_instr {c : Word} (h : c.extractLsb' 0 4 = 0#4 ∨ 8 ≤ (c.extractLsb' 0 4).toNat ∨
    ∃ r ∈ opcodeRows, r.pattern.extractLsb' 0 4 = c.extractLsb' 0 4 ∧ c &&& r.mask ≠ r.pattern) (i : Instr) :
    decode c ≠ .instr i := by
  intro hd
  obtain ⟨r, hr, hm, -⟩ := (decode_eq_instr_iff.1 hd).exists_row
  have hop := opcode_of_matchesWord hr hm
  obtain ⟨hne, hlt⟩ := opcodeRow_opcode_range r hr
  rw [hop] at hne hlt
  obtain h0 | h8 | ⟨r', hr', hop', hmask⟩ := h
  · exact hne h0
  · omega
  · obtain rfl := opcodeRow_eq_of_opcode_eq r hr r' hr' (hop.trans hop'.symm)
    exact hmask (matchesWord_iff.1 hm)

end Sys2Proof

namespace Sys2Proof.Machine

/-- Settles O6: an illegal word is no command, and the write of such a word raises the code. -/
theorem illegalWordWritesOnlyTheCode : Obligations.IllegalWordWritesOnlyTheCode := fun s _ rest hp h =>
  (step_of_pending hp).trans (runCommand_illegal (decode_ne_instr h) (s.withPending rest))

end Sys2Proof.Machine
end

section
/-! PROOFS about 40_commands_common.md R134, R137: what a re-insert and a DELETE do to the slots, layout by layout. -/

namespace Sys2Proof.Machine

/-! ### Slots that a re-insert leaves as they are -/

/-- A change of a range keeps a slot that it fixes wherever it reaches it. -/
theorem Table.slot_mapSlots_fixed {t : Table} (h : t.ArraysWf) {a a' : SlotArray} {base cnt j : Nat} {f : Slot → Slot}
    (hf : a' = a → base ≤ j → j < base + cnt → f (t.slot a' j) = t.slot a' j) :
    (t.mapSlots a base cnt f).slot a' j = t.slot a' j := by
  rw [Table.slot_mapSlots h]
  split_ifs with hin
  · obtain ⟨rfl, -, hlo, hhi⟩ := hin
    exact hf rfl hlo hhi
  · rfl

/-- A change of whole blocks keeps a slot that it fixes wherever it reaches it. -/
theorem Table.slot_foldBlocks_fixed {f : Slot → Slot} {a : SlotArray} {j : Nat} (bs : List Nat) :
    ∀ {t : Table}, t.ArraysWf → ((∃ b ∈ bs, a = .node b ∧ j < nodeSlots) → f (t.slot a j) = t.slot a j) →
      (bs.foldl (fun t b => t.mapSlots (.node b) 0 nodeSlots f) t).slot a j = t.slot a j := by
  induction bs with
  | nil => intro t _ _; rfl
  | cons b bs ih =>
    intro t hwf hf
    have hhead : (t.mapSlots (.node b) 0 nodeSlots f).slot a j = t.slot a j :=
      Table.slot_mapSlots_fixed hwf fun ha _ hj => hf ⟨b, List.mem_cons_self, ha, by omega⟩
    refine (ih (hwf.mapSlots _ _ _ _) ?_).trans hhead
    rintro ⟨b', hb', ha, hj⟩
    rw [hhead]
    exact hf ⟨b', List.mem_cons_of_mem _ hb', ha, hj⟩

/-- A change of the extension blocks under a range keeps a slot that it fixes wherever it reaches it. -/
theorem Table.slot_mapExtensions_fixed {t : Table} (h : t.ArraysWf) {f : Slot → Slot} {a : SlotArray} {base cnt j : Nat}
    (hf : (∃ i b, base ≤ i ∧ i < base + cnt ∧ t.childAt .dir i = some b ∧ a = .node b ∧ j < nodeSlots) →
      f (t.slot a j) = t.slot a j) :
    (t.mapExtensions base cnt f).slot a j = t.slot a j := by
  refine Table.slot_foldBlocks_fixed _ h ?_
  rintro ⟨b, hb, ha, hj⟩
  obtain ⟨i, hlo, hhi, hi⟩ := (Runs.mem_childrenIn (h .dir) base cnt b).1 hb
  exact hf ⟨i, b, hlo, hhi, hi, ha, hj⟩

/-- Writing a range of direct slots and the extension blocks under it keeps a slot that `fan_write` fixes wherever it
reaches it (42_dir24_8.md R193). -/
theorem Table.slot_fanDirect_fixed {t : Table} (h : t.ArraysWf) {v : Word} {a : SlotArray} {base cnt len j : Nat}
    (hf : ((a = .dir ∧ base ≤ j ∧ j < base + cnt) ∨ ∃ i b, base ≤ i ∧ i < base + cnt ∧ t.childAt .dir i = some b ∧
        a = .node b ∧ j < nodeSlots) → (t.slot a j).fanWrite v len = t.slot a j) :
    ((t.fanWrite .dir base cnt v len).mapExtensions base cnt (Slot.fanWrite v len)).slot a j = t.slot a j := by
  have hdirect : (t.fanWrite .dir base cnt v len).slot a j = t.slot a j :=
    Table.slot_mapSlots_fixed h fun ha hlo hhi => hf (.inl ⟨ha, hlo, hhi⟩)
  refine (Table.slot_mapExtensions_fixed (h.mapSlots .dir base cnt _) fun hin => ?_).trans hdirect
  obtain ⟨i, b, hlo, hhi, hchild, ha, hj⟩ := hin
  rw [Table.childAt_mapSlots h .dir base cnt _ (Slot.child_fanWrite v len)] at hchild
  exact (congrArg (Slot.fanWrite v len) hdirect).trans
    ((hf (.inr ⟨i, b, hlo, hhi, hchild, ha, hj⟩)).trans hdirect.symm)

/-- A walk that lacks no block allocates none: it is the walk of a DELETE (41_stride8.md R160, R163, R166). -/
theorem Table.openPath_of_missing {t : Table} {n w N : Nat} (steps : Nat) :
    ∀ {k b : Nat}, t.missing w N steps k b = 0 → Table.openPath n w N steps k b t = (t.walkDown w N steps k b, t) := by
  induction steps with
  | zero => intro k b _; rfl
  | succ steps ih =>
    intro k b h
    rw [Table.missing] at h
    cases hc : t.childAt (.node b) (byte w N k) with
    | none => rw [hc] at h; exact absurd h (Nat.succ_ne_zero steps)
    | some m =>
      rw [hc] at h
      rw [Table.openPath, Table.openChild_some hc, Table.walkDown, Table.ptrAt, hc]
      exact ih h

/-- The slots of its terminal node that a prefix fans out over (41_stride8.md R161). -/
def Prefix.fansInNode (w : Nat) (q : Prefix) (j : Nat) : Prop :=
  byte w q.net (terminalLevel q.len) ≤ j ∧ j < byte w q.net (terminalLevel q.len) + 2 ^ (8 - inNodeLength q.len)

/-- The slots that a prefix on whose path no block is missing fans out over, in the table's layout (41_stride8.md R161,
42_dir24_8.md R191, R193, 43_wide16.md R221). -/
def Table.FansOver (t : Table) (q : Prefix) (a : SlotArray) (j : Nat) : Prop :=
  match t.algo with
  | .stride8 => a = .node (t.walkDown t.width q.net (terminalLevel q.len) 0 t.rootb) ∧ q.fansInNode t.width j
  | .dir24 =>
    if q.len ≤ 24 then
      (a = .dir ∧ dirIndex q.net ≤ j ∧ j < dirIndex q.net + 2 ^ (24 - q.len)) ∨
        ∃ i b, dirIndex q.net ≤ i ∧ i < dirIndex q.net + 2 ^ (24 - q.len) ∧ t.childAt .dir i = some b ∧
          a = .node b ∧ j < nodeSlots
    else a = .node (t.extBlock (dirIndex q.net)) ∧ extIndex q.net ≤ j ∧ j < extIndex q.net + 2 ^ (32 - q.len)
  | .wide16 =>
    if q.len ≤ 16 then a = .root16 ∧ rootIndex q.net ≤ j ∧ j < rootIndex q.net + 2 ^ (16 - q.len)
    else a = .node (t.walkDown 128 q.net (terminalLevel q.len - 2) 2 (t.subRoot q.net)) ∧ q.fansInNode 128 j

theorem Table.openExtension_of_need {t : Table} {n N len : Nat} (hl : ¬len ≤ 24) (h : t.d24Need N len = 0) :
    t.openExtension n (dirIndex N) = t := by
  unfold Table.d24Need at h
  unfold Table.openExtension
  cases hc : t.childAt .dir (dirIndex N) with
  | none => simp [hl, hc] at h
  | some b => rfl

theorem Table.w16Open_of_need {t : Table} {n N len : Nat} (hl : ¬len ≤ 16) (h : t.w16Need N len = 0) :
    t.w16Open n N len = (t.walkDown 128 N (terminalLevel len - 2) 2 (t.subRoot N), t) := by
  unfold Table.w16Need at h
  rw [if_neg hl] at h
  unfold Table.w16Open Table.subRoot Table.ptrAt
  cases hc : t.childAt .root16 (rootIndex N) with
  | none =>
    have hkt : 2 ≤ terminalLevel len := by unfold terminalLevel; split_ifs <;> omega
    simp only [hc] at h
    omega
  | some b =>
    simp only [hc] at h
    rw [Table.openChild_some hc]
    exact Table.openPath_of_missing _ h

/-- A re-insert that needs no block keeps every slot but those it fans out over, and of these the ones that `fan_write`
fixes (41_stride8.md R163, 42_dir24_8.md R193, R194, 43_wide16.md R223, R224). -/
theorem Table.slot_reinsert_fixed {t : Table} (h : t.ArraysWf) {n : Nat} {q : Prefix} {v : Word} (hneed : t.need q = 0)
    {a : SlotArray} {j : Nat} (hf : t.FansOver q a j → (t.slot a j).fanWrite v q.len = t.slot a j) :
    (t.layoutInsert n q v true).slot a j = t.slot a j := by
  unfold Table.need at hneed
  unfold Table.FansOver at hf
  unfold Table.layoutInsert
  cases halgo : t.algo with
  | stride8 =>
    simp only [halgo] at hneed hf ⊢
    rw [Table.s8Insert, Table.openPath_of_missing _ hneed]
    exact Table.slot_mapSlots_fixed h fun ha hlo hhi => hf ⟨ha, hlo, hhi⟩
  | dir24 =>
    simp only [halgo] at hneed hf ⊢
    unfold Table.d24Insert
    by_cases hl : q.len ≤ 24
    · simp only [if_pos hl] at hf ⊢
      exact Table.slot_fanDirect_fixed h hf
    · simp only [if_neg hl, if_true, Table.openExtension_of_need hl hneed] at hf ⊢
      exact Table.slot_mapSlots_fixed h fun ha hlo hhi => hf ⟨ha, hlo, hhi⟩
  | wide16 =>
    simp only [halgo] at hneed hf ⊢
    unfold Table.w16Insert
    split_ifs at hf ⊢ with hl
    · exact Table.slot_mapSlots_fixed h fun ha hlo hhi => hf ⟨ha, hlo, hhi⟩
    · rw [Table.w16Open_of_need hl hneed]
      exact Table.slot_mapSlots_fixed h fun ha hlo hhi => hf ⟨ha, hlo, hhi⟩

/-! ### The leaves that a stored prefix fans out over -/

/-- Storing a prefix again with its own next-hop is no change (40_commands_common.md R134). -/
theorem put_stored {ps : PrefixStore} (hw : Assoc.wf Prefix.before ps = true) {q : Prefix} {v : Word}
    (h : Assoc.get? ps q = some v) : Assoc.put Prefix.before ps q v = ps := by
  refine Assoc.ext_get? prefixBefore_order (Assoc.wf_put prefixBefore_order hw q v) hw fun k => ?_
  rw [Assoc.get?_put]
  split_ifs with hk
  · rw [hk, h]
  · rfl

theorem Slot.fanWrite_fixed {s : Slot} {v : Word} {len : Nat} (h : leafWrite v len s.leaf = s.leaf) :
    s.fanWrite v len = s :=
  Slot.ext_iff' ((Slot.leaf_fanWrite v len s).trans h) (Slot.child_fanWrite v len s)

/-- Longest wins: a leaf of a longer prefix stays (41_stride8.md R162). -/
theorem Slot.fanWrite_longer {s : Slot} {l : Leaf} (hs : s.leaf = some l) (v : Word) {len : Nat} (h : len < l.tag) :
    s.fanWrite v len = s := by
  refine Slot.fanWrite_fixed ?_
  rw [hs, leafWrite, if_neg (by omega)]

/-- The walk along a stored prefix's path ends in its terminal node. -/
theorem TrieIs.walkDown_stored {t : Table} {R : Nat → Option Nat} {ps : PrefixStore} {w c : Nat}
    (h : TrieFor t R ps w c) (hw : w % 8 = 0) (h0 : 0 < w) {q : Prefix} {v : Word} (hq : Fits w q)
    (hmem : Assoc.get? ps q = some v) (hc : c ≤ terminalLevel q.len) {b0 : Nat} (hb0 : R (path w q.net c) = some b0) :
    t.nodeFrom R (terminalLevel q.len - c) (path w q.net (terminalLevel q.len)) =
      some (t.walkDown w q.net (terminalLevel q.len - c) c b0) := by
  have hkt := terminalLevel_le hq.1 hw h0
  have hwalk := (h.walkDown (N := q.net) (terminalLevel q.len - c) 0 b0 hb0 (by omega) fun d _ => by
    rw [NodeAt.nodeOr_erase hmem hq hc]
    exact .inr ⟨by omega, rfl⟩).1
  rwa [Nat.zero_add, Nat.add_zero, Nat.add_sub_cancel' hc] at hwalk

/-- In its terminal node a stored prefix is written already. -/
theorem TrieIs.leafWrite_stored {t : Table} {R : Nat → Option Nat} {ps : PrefixStore} {w c : Nat}
    (h : TrieFor t R ps w c) (hw : w % 8 = 0) (h0 : 0 < w) (hsort : Assoc.wf Prefix.before ps = true) {q : Prefix}
    {v : Word} (hq : Fits w q) (hmem : Assoc.get? ps q = some v) (hc : c ≤ terminalLevel q.len) {b j : Nat}
    (hb : t.nodeFrom R (terminalLevel q.len - c) (path w q.net (terminalLevel q.len)) = some b)
    (hj : q.fansInNode w j) : leafWrite v q.len (t.slot (.node b) j).leaf = (t.slot (.node b) j).leaf := by
  have hkt := terminalLevel_le hq.1 hw h0
  have hlevel : c + (terminalLevel q.len - c) = terminalLevel q.len := Nat.add_sub_cancel' hc
  have hj256 : j < 256 := hj.2.trans_le (fan_range hq hkt rfl)
  have hput := leafAt_put (ps := ps) (c := c) (d := terminalLevel q.len - c)
    (p := path w q.net (terminalLevel q.len)) v hq (by rwa [hlevel])
    (by rw [hlevel]; exact path_lt hq.2.1 (by omega)) hj256
  rw [put_stored hsort hmem, hlevel, if_pos ⟨rfl, rfl, hj⟩] at hput
  rw [h.leaf _ _ _ hb j hj256, ← hput]

/-- Among the direct slots and the extension blocks a stored prefix is written already. -/
theorem DirIs.leafWrite_stored {t : Table} {ps : PrefixStore} {n : Nat} (h : DirIs t ps) (hp : t.PoolOk n)
    (hsort : Assoc.wf Prefix.before ps = true) {q : Prefix} {v : Word} (hq : Fits 32 q)
    (hmem : Assoc.get? ps q = some v) (halgo : t.algo = .dir24) {a : SlotArray} {j : Nat} (hf : t.FansOver q a j) :
    leafWrite v q.len (t.slot a j).leaf = (t.slot a j).leaf := by
  have hext : ∀ {i b j}, t.childAt .dir i = some b → j < 256 → extCovered q i j →
      leafWrite v q.len (t.slot (.node b) j).leaf = (t.slot (.node b) j).leaf := by
    intro i b j hb hj hcov
    classical
    have hput := extLeaf_put (ps := ps) v hq (DirIs.child_lt hp hb) hj
    rw [put_stored hsort hmem, if_pos hcov] at hput
    rw [h.ext i b hb j hj, ← hput]
  simp only [Table.FansOver, halgo] at hf
  split_ifs at hf with hl
  · obtain ⟨rfl, hlo, hhi⟩ | ⟨i, b, hlo, hhi, hb, rfl, hj⟩ := hf
    · have hj : j < 16777216 := hhi.trans_le (dir_range hq hl)
      have hput := dirLeaf_put (ps := ps) v hq hj
      rw [put_stored hsort hmem, if_pos ⟨hl, hlo, hhi⟩] at hput
      rw [h.leaf j hj, ← hput]
    · exact hext hb hj (by rw [extCovered, if_pos hl]; exact ⟨hlo, hhi⟩)
  · obtain ⟨rfl, hlo, hhi⟩ := hf
    have hbelow : below ps 32 3 (dirIndex q.net) = true := below_of_get? hmem (by omega)
    obtain ⟨b, hb⟩ := Option.isSome_iff_exists.1 ((h.child _).2 hbelow)
    rw [Table.extBlock, hb]
    exact hext hb (hhi.trans_le (ext_range hq (by omega))) (by rw [extCovered, if_neg hl]; exact ⟨rfl, hlo, hhi⟩)

/-- In the root and the sub-tries a stored prefix is written already. -/
theorem WideIs.leafWrite_stored {t : Table} {ps : PrefixStore} (h : WideIs t ps)
    (hsort : Assoc.wf Prefix.before ps = true) {q : Prefix} {v : Word} (hq : Fits 128 q)
    (hmem : Assoc.get? ps q = some v) (halgo : t.algo = .wide16) {a : SlotArray} {j : Nat} (hf : t.FansOver q a j) :
    leafWrite v q.len (t.slot a j).leaf = (t.slot a j).leaf := by
  simp only [Table.FansOver, halgo] at hf
  split_ifs at hf with hl
  · obtain ⟨rfl, hlo, hhi⟩ := hf
    have hj : j < 65536 := hhi.trans_le (root_range hq hl)
    have hput := rootLeaf_put (ps := ps) v hq hj
    rw [put_stored hsort hmem, if_pos ⟨hl, hlo, hhi⟩] at hput
    rw [h.leaves j hj, ← hput]
  · obtain ⟨rfl, hj⟩ := hf
    have hkt : 2 ≤ terminalLevel q.len := by unfold terminalLevel; split_ifs <;> omega
    have hnode : NodeAt ps 128 2 0 (rootIndex q.net) := by
      rw [NodeAt.nodeOr_erase hmem hq hkt]
      exact .inr ⟨Nat.zero_le _, rfl⟩
    obtain ⟨b0, hb0⟩ := Option.isSome_iff_exists.1 ((h.trie.exist 0 _).2 hnode)
    have hsub : t.subRoots (path 128 q.net 2) = some (t.subRoot q.net) := by
      have hchild : t.childAt .root16 (rootIndex q.net) = some b0 := hb0
      rw [Table.subRoot, Table.ptrAt, hchild]
      exact hb0
    exact h.trie.leafWrite_stored (by norm_num) (by norm_num) hsort hq hmem hkt
      (h.trie.walkDown_stored (by norm_num) (by norm_num) hq hmem hkt hsub) hj

/-- Where a stored prefix fans out, `fan_write` of it with its own next-hop changes no leaf. -/
theorem Laid.leafWrite_stored {t : Table} {n : Nat} (h : Laid t t.prefixes) (hp : t.PoolOk n)
    (hl : legalPair t.algo t.family) (hsort : Assoc.wf Prefix.before t.prefixes = true) {q : Prefix} {v : Word}
    (hq : Fits t.width q) (hmem : Assoc.get? t.prefixes q = some v) {a : SlotArray} {j : Nat}
    (hf : t.FansOver q a j) : leafWrite v q.len (t.slot a j).leaf = (t.slot a j).leaf := by
  obtain ⟨hmod, hpos⟩ := width_facts t.family
  obtain ⟨hdir, hwide⟩ := legal_width hl
  unfold Laid at h
  cases halgo : t.algo with
  | stride8 =>
    rw [halgo] at h
    simp only [Table.FansOver, halgo] at hf
    obtain ⟨rfl, hj⟩ := hf
    have hroot : t.trieRoot (path t.width q.net 0) = some t.rootb := by rw [path_zero hq.2.1]; rfl
    exact TrieIs.leafWrite_stored h hmod hpos hsort hq hmem (Nat.zero_le _)
      (TrieIs.walkDown_stored h hmod hpos hq hmem (Nat.zero_le _) hroot) hj
  | dir24 =>
    rw [halgo] at h
    exact DirIs.leafWrite_stored h hp hsort (hdir halgo ▸ hq) hmem halgo hf
  | wide16 =>
    rw [halgo] at h
    exact WideIs.leafWrite_stored h hsort (hwide halgo ▸ hq) hmem halgo hf

/-! ### The leaves that a DELETE leaves as they are -/

/-- From `t` to `t'` no array leaves its form, no block comes into use, and the leaf of a slot that is still there is
another one only where it had the tag `len` (40_commands_common.md R137). -/
structure Table.LeavesKept (len : Nat) (t t' : Table) : Prop where
  arrays : t'.ArraysWf
  inUse : ∀ b, t'.inUse b = true → t.inUse b = true
  leaf : ∀ a j, t'.usable a = true →
    (t'.slot a j).leaf = (t.slot a j).leaf ∨ ∃ l, (t.slot a j).leaf = some l ∧ l.tag = len

theorem Table.LeavesKept.refl {t : Table} (h : t.ArraysWf) (len : Nat) : t.LeavesKept len t :=
  ⟨h, fun _ hb => hb, fun _ _ _ => .inl rfl⟩

theorem Table.usable_iff {t : Table} {a : SlotArray} : t.usable a = true ↔ ∀ b, a = .node b → t.inUse b = true := by
  cases a <;> simp [Table.usable]

theorem Table.LeavesKept.usable {len : Nat} {t t' : Table} (h : t.LeavesKept len t') {a : SlotArray}
    (ha : t'.usable a = true) : t.usable a = true :=
  Table.usable_iff.2 fun b hb => h.inUse b (Table.usable_iff.1 ha b hb)

theorem Table.LeavesKept.trans {len : Nat} {t t' t'' : Table} (h : t.LeavesKept len t')
    (h' : t'.LeavesKept len t'') : t.LeavesKept len t'' where
  arrays := h'.arrays
  inUse b hb := h.inUse b (h'.inUse b hb)
  leaf a j ha := by
    obtain hsame | htag := h.leaf a j (h'.usable ha)
    · rw [← hsame]
      exact h'.leaf a j ha
    · exact .inr htag

/-- `fan_clear` changes a leaf only where the tag is the prefix's (41_stride8.md R162). -/
theorem Slot.leaf_fanClear_cases (len : Nat) (sh : Option Leaf) (s : Slot) :
    (s.fanClear len sh).leaf = s.leaf ∨ ∃ l, s.leaf = some l ∧ l.tag = len := by
  rw [Slot.leaf_fanClear]
  cases hs : s.leaf with
  | none => exact .inl rfl
  | some l =>
    by_cases htag : l.tag = len
    · exact .inr ⟨l, rfl, htag⟩
    · exact .inl (if_neg htag)

theorem Table.leavesKept_fanClear {t : Table} (h : t.ArraysWf) (a : SlotArray) (base cnt len : Nat)
    (sh : Option Leaf) : t.LeavesKept len (t.fanClear a base cnt len sh) where
  arrays := h.mapSlots _ _ _ _
  inUse b hb := by rwa [Table.fanClear, Table.inUse_mapSlots] at hb
  leaf a' j _ := by
    rw [Table.fanClear, Table.slot_mapSlots h]
    split_ifs with hin
    · obtain ⟨rfl, -⟩ := hin
      exact Slot.leaf_fanClear_cases len sh _
    · exact .inl rfl

theorem Table.leavesKept_setChild {t : Table} (h : t.ArraysWf) (len : Nat) (a : SlotArray) (j : Nat) (c : Option Nat) :
    t.LeavesKept len (t.setChild a j c) where
  arrays := h.mapSlots _ _ _ _
  inUse b hb := by rwa [Table.inUse_setChild] at hb
  leaf a' j' _ := .inl (Table.leaf_setChild h a j c a' j')

theorem Table.leavesKept_setCnt {t : Table} (h : t.ArraysWf) (len b c : Nat) : t.LeavesKept len (t.setCnt b c) where
  arrays := h.setCnt b c
  inUse b' hb := by rwa [Table.inUse_setCnt] at hb
  leaf a j _ := .inl (by rw [Table.slot_setCnt])

theorem Table.ArraysWf.freeBlock {t : Table} (h : t.ArraysWf) (b : Nat) : (t.freeBlock b).ArraysWf := fun a => by
  cases a with
  | node b' =>
    rw [Table.array, Table.block_freeBlock]
    split_ifs
    · rfl
    · exact h (.node b')
  | dir => exact h .dir
  | root16 => exact h .root16

/-- A freed block is no longer in use; every other array is as before (10_state.md R34). -/
theorem Table.leavesKept_freeBlock {t : Table} (h : t.ArraysWf) (len b : Nat) : t.LeavesKept len (t.freeBlock b) where
  arrays := h.freeBlock b
  inUse b' hb := by
    rw [Table.inUse_freeBlock, Bool.and_eq_true] at hb
    exact hb.2
  leaf a j ha := by
    have hne : a ≠ .node b := by
      rintro rfl
      simp [Table.usable, Table.inUse_freeBlock] at ha
    rw [Table.slot_freeBlock, if_neg hne]
    exact .inl rfl

theorem Table.leavesKept_detach {t : Table} (h : t.ArraysWf) (len b : Nat) (a : SlotArray) (j : Nat) :
    t.LeavesKept len ((t.freeBlock b).setChild a j none) :=
  (Table.leavesKept_freeBlock h len b).trans (Table.leavesKept_setChild (h.freeBlock b) len a j none)

theorem Table.leavesKept_prune (len : Nat) (trail : List (SlotArray × Nat × Nat)) :
    ∀ {t : Table}, t.ArraysWf → t.LeavesKept len (Table.prune trail t) := by
  induction trail with
  | nil => exact fun h => .refl h len
  | cons e trail ih =>
    intro t h
    obtain ⟨a, j, b⟩ := e
    rw [Table.prune]
    split_ifs
    · have hdetach := Table.leavesKept_detach h len b a j
      exact hdetach.trans (ih hdetach.arrays)
    · exact .refl h len

theorem Table.leavesKept_mapExtensions {t : Table} (h : t.ArraysWf) (base cnt len : Nat) (sh : Option Leaf) :
    t.LeavesKept len (t.mapExtensions base cnt (Slot.fanClear len sh)) := by
  unfold Table.mapExtensions
  generalize t.dir.childrenIn base cnt = bs
  induction bs generalizing t with
  | nil => exact .refl h len
  | cons b bs ih =>
    have hclear := Table.leavesKept_fanClear h (.node b) 0 nodeSlots len sh
    exact hclear.trans (ih hclear.arrays)

/-- Whatever the layout, a DELETE changes only leaves of the prefix's own length (40_commands_common.md R137). -/
theorem Table.leavesKept_layoutDelete {t : Table} (h : t.ArraysWf) (q : Prefix) :
    t.LeavesKept q.len (t.layoutDelete q) := by
  have hprune : ∀ a base cnt sh trail, t.LeavesKept q.len (Table.prune trail (t.fanClear a base cnt q.len sh)) :=
    fun a base cnt sh trail =>
      have hclear := Table.leavesKept_fanClear h a base cnt q.len sh
      hclear.trans (Table.leavesKept_prune q.len trail hclear.arrays)
  unfold Table.layoutDelete
  cases t.algo with
  | stride8 => exact hprune _ _ _ _ _
  | dir24 =>
    have hlong : ∀ b base cnt sh c, t.LeavesKept q.len ((t.fanClear (.node b) base cnt q.len sh).setCnt b c) :=
      fun b base cnt sh c =>
        have hclear := Table.leavesKept_fanClear h (.node b) base cnt q.len sh
        hclear.trans (Table.leavesKept_setCnt hclear.arrays q.len b c)
    simp only [Table.d24Delete]
    split_ifs
    · have hclear := Table.leavesKept_fanClear h .dir (dirIndex q.net) (2 ^ (24 - q.len)) q.len
        (bestBelow t.prefixes 32 0 q.len q.net)
      exact hclear.trans (Table.leavesKept_mapExtensions hclear.arrays _ _ _ _)
    · exact (hlong _ _ _ _ _).trans (Table.leavesKept_detach (hlong _ _ _ _ _).arrays q.len _ _ _)
    · exact hlong _ _ _ _ _
  | wide16 =>
    simp only [Table.w16Delete]
    split_ifs
    · exact Table.leavesKept_fanClear h _ _ _ _ _
    · exact hprune _ _ _ _ _

end Sys2Proof.Machine
end

section
/-! PROOFS about 40_commands_common.md R124 to R144: what each command makes of the table. -/

namespace Sys2Proof.Machine

/-! ### The abstract machine -/

/-- Settles O54: command by command, the slot-level machine without its slot arrays is the abstract one. -/
theorem slotsRefineTheAbstractMachine : Obligations.SlotsRefineTheAbstractMachine := fun _ _ _ => exec_forget

/-! ### Operands and checks -/

theorem State.prefixOperand_of_valid {s : State} {len : Nat} (h : s.ValidPrefix len) :
    s.prefixOperand len = some (s.operand len) := by
  obtain ⟨hlen, hstrict⟩ := h
  have hhost : ¬(hostbits s.table.width s.keyAddress len ≠ 0 ∧ s.table.strict = true) :=
    fun ⟨hne, hs⟩ => hne (hstrict hs)
  exact (if_neg (Nat.not_lt.2 hlen)).trans (if_neg hhost)

theorem State.operand_fits {s : State} {len : Nat} (h : s.ValidPrefix len) : Fits s.table.width (s.operand len) :=
  State.prefixOperand_fits (State.prefixOperand_of_valid h)

theorem State.lacksRoom_of_hasRoom {s : State} {p : Prefix} (h : s.HasRoom p) : s.lacksRoom p = false := by
  obtain ⟨hstore, hpool⟩ := h
  have hfull : (!s.table.stores p && decide (s.table.numPfx.toNat = s.params.maxPrefixes)) = false := by
    simpa [imp_iff_not_or] using hstore
  rw [State.lacksRoom, hfull, Bool.false_or]
  exact decide_eq_false (Nat.not_lt.2 hpool)

/-- The state after an INSERT that passes its checks (40_commands_common.md R132). -/
def State.inserted (s : State) (len : Nat) : State :=
  (s.withTable (s.table.insertPrefix s.params.nNodes (s.operand len) s.nh)).complete

/-- The state after a DELETE that passes its checks (40_commands_common.md R136). -/
def State.deleted (s : State) (len : Nat) : State := (s.withTable (s.table.deletePrefix (s.operand len))).complete

@[simp] theorem State.inserted_table (s : State) (len : Nat) :
    (s.inserted len).table = s.table.insertPrefix s.params.nNodes (s.operand len) s.nh := rfl

@[simp] theorem State.deleted_table (s : State) (len : Nat) :
    (s.deleted len).table = s.table.deletePrefix (s.operand len) := rfl

/-- An INSERT that passes its checks (40_commands_common.md R132). -/
theorem exec_insert_of_canInsert {s : State} {len : Nat} (h : s.CanInsert len) :
    exec (.insert len) s = .next (s.inserted len) := by
  obtain ⟨ho, hv, hnh, hroom⟩ := h
  simp [exec, execInsert, ho, State.prefixOperand_of_valid hv, hnh, State.lacksRoom_of_hasRoom hroom, State.inserted]

/-- A DELETE that passes its checks (40_commands_common.md R136). -/
theorem exec_delete_of_canDelete {s : State} {len : Nat} (h : s.CanDelete len) :
    exec (.delete len) s = .next (s.deleted len) := by
  obtain ⟨ho, hv, hst⟩ := h
  simp [exec, execDelete, ho, State.prefixOperand_of_valid hv, hst, State.deleted]

theorem State.Inv.inserted {s : State} {len : Nat} (hs : s.Inv) (h : s.CanInsert len) : (s.inserted len).Inv := by
  obtain ⟨ho, hv, hnh, hroom⟩ := h
  have heffect := CommandEffect.inserted ho (State.prefixOperand_of_valid hv) hnh (State.lacksRoom_of_hasRoom hroom)
  exact ⟨hs.params, heffect.table_ok hs, hs.bin, hs.bout⟩

theorem State.Inv.deleted {s : State} {len : Nat} (hs : s.Inv) (h : s.CanDelete len) : (s.deleted len).Inv := by
  obtain ⟨ho, hv, hst⟩ := h
  have heffect := CommandEffect.deleted ho (State.prefixOperand_of_valid hv) hst
  exact ⟨hs.params, heffect.table_ok hs, hs.bin, hs.bout⟩

/-- A re-insert needs no block (40_commands_common.md R134). -/
theorem Table.Ok.need_stored {ps : Params} {t : Table} (h : t.Ok ps) (ho : t.life = .opened) {q : Prefix}
    (hq : Fits t.width q) (hst : t.stores q = true) : t.need q = 0 := by
  obtain ⟨v, hv⟩ := Option.isSome_iff_exists.1 hst
  have hneed := (h.laid ho).need (h.legal ho) v hq
  rw [put_stored h.store.sorted hv] at hneed
  omega

/-! ### The counters and the root handle after INSERT and DELETE -/

section
variable (t : Table) (n : Nat) (p : Prefix) (v : Word)

@[simp] theorem Table.insertPrefix_numPfx :
    (t.insertPrefix n p v).numPfx = if t.stores p then t.numPfx else t.numPfx + 1#32 :=
  congrArg (fun c => if t.stores p then c else c + 1#32) (Table.head_numPfx (Table.head_layoutInsert t n p v _))

@[simp] theorem Table.insertPrefix_numWide : (t.insertPrefix n p v).numWide = t.numWide :=
  (Table.head_numWide (Table.head_layoutInsert t n p v _) :)

@[simp] theorem Table.insertPrefix_rootb : (t.insertPrefix n p v).rootb = t.rootb :=
  (Table.head_rootb (Table.head_layoutInsert t n p v _) :)

@[simp] theorem Table.insertPrefix_width : (t.insertPrefix n p v).width = t.width :=
  congrArg Family.width (Table.insertPrefix_family t n p v)

@[simp] theorem Table.deletePrefix_numPfx : (t.deletePrefix p).numPfx = t.numPfx - 1#32 :=
  (Table.head_numPfx (Table.head_layoutDelete (t.removePrefix p) p) :)

@[simp] theorem Table.deletePrefix_numWide : (t.deletePrefix p).numWide = t.numWide :=
  (Table.head_numWide (Table.head_layoutDelete (t.removePrefix p) p) :)

@[simp] theorem Table.deletePrefix_rootb : (t.deletePrefix p).rootb = t.rootb :=
  (Table.head_rootb (Table.head_layoutDelete (t.removePrefix p) p) :)

@[simp] theorem Table.deletePrefix_width : (t.deletePrefix p).width = t.width :=
  congrArg Family.width (Table.deletePrefix_family t p)

end

/-- A finished INSERT or DELETE leaves the engine open. -/
theorem State.inserted_life {s : State} (ho : s.table.life = .opened) (len : Nat) :
    (s.inserted len).table.life = .opened := (Table.insertPrefix_life ..).trans ho

theorem State.deleted_life {s : State} (ho : s.table.life = .opened) (len : Nat) :
    (s.deleted len).table.life = .opened := (Table.deletePrefix_life ..).trans ho

/-! ### CONSTRUCT, CLOSE and STATS -/

theorem legalLayout_eq_none {a : AlgoTag} {f : Family} : legalLayout a f = none ↔ IllegalPair a f := by
  cases a <;> cases f <;> decide

/-- The layout that a CONSTRUCT of a legal pair selects is the one it names. -/
theorem legalLayout_of_legal {a : AlgoTag} {f : Family} (h : ¬IllegalPair a f) :
    ∃ b, legalLayout a f = some b ∧ (a = .stride8 → b = .stride8) ∧ (a = .dir24 → b = .dir24 ∧ f = .ipv4) ∧
      (a = .wide16 → b = .wide16 ∧ f = .ipv6) := by
  revert h
  cases a <;> cases f <;> simp [legalLayout]

theorem exec_construct_opened {s : State} (ho : s.table.life = .opened) (algo : AlgoTag) (family : Family)
    (strict : Bool) : exec (.construct algo family strict) s = .next (s.raise .errState) := by
  rw [exec, execConstruct, ho]

theorem exec_construct_illegal {s : State} (hc : s.table.life = .closed) {algo : AlgoTag} {family : Family}
    (h : IllegalPair algo family) (strict : Bool) :
    exec (.construct algo family strict) s = .next (s.raise .errInvalidAlgo) := by
  rw [exec, execConstruct, hc, legalLayout_eq_none.2 h]

theorem exec_construct_legal {s : State} (hc : s.table.life = .closed) {algo : AlgoTag} {family : Family} {a : Algo}
    (h : legalLayout algo family = some a) (strict : Bool) : exec (.construct algo family strict) s =
      .next (s.withTable (s.table.construct s.params.nNodes a family strict)).complete := by
  rw [exec, execConstruct, hc, h]

@[simp] theorem Table.construct_numPfx (t : Table) (n : Nat) (a : Algo) (f : Family) (b : Bool) :
    (t.construct n a f b).numPfx = 0#32 := by cases a <;> rfl

/-- The first allocation of an empty pool takes a block of the pool (10_state.md R34). -/
theorem Table.pickFree_lt_of_empty {t : Table} (h : t.pool = []) {n : Nat} (hn : 1 ≤ n) : t.pickFree n < n := by
  have hleast : Pool.leastFree 0 t.pool < n := by rw [h]; exact hn
  unfold Table.pickFree
  split
  · exact hleast
  · split_ifs with hb
    · simp only [Bool.and_eq_true, decide_eq_true_eq] at hb
      exact hb.1
    · exact hleast

/-- A new Stride8 table has one block in use, the root block, and it is empty (40_commands_common.md R124). -/
theorem Table.construct_stride8 (t : Table) {n : Nat} (hn : 1 ≤ n) (f : Family) (strict : Bool) :
    (t.construct n .stride8 f strict).rootb < n ∧
      (∀ b, (t.construct n .stride8 f strict).inUse b = true ↔ b = (t.construct n .stride8 f strict).rootb) ∧
      ∀ j, (t.construct n .stride8 f strict).slot (.node (t.construct n .stride8 f strict).rootb) j = Slot.empty := by
  refine ⟨Table.pickFree_lt_of_empty (t := t.latch .stride8 f strict) rfl hn, fun b => ?_, fun j => ?_⟩
  · have huse : (t.latch .stride8 f strict).inUse b = false := rfl
    have halloc := Table.inUse_allocBlock (t.latch .stride8 f strict) n b
    rw [huse, Bool.or_false] at halloc
    exact (Bool.eq_iff_iff.1 halloc).trans decide_eq_true_iff
  · have hblock := Table.block_allocBlock (t.latch .stride8 f strict) n ((t.latch .stride8 f strict).pickFree n)
    rw [if_pos rfl] at hblock
    exact congrArg (fun blk : Block => blk.slots.get j) hblock

/-- `STATUS` of an open engine without an error, by its configuration (10_state.md R25). -/
theorem State.status_of_opened {s : State} (ho : s.table.life = .opened) (hc : s.code = .ok) :
    s.status.toNat = 16 + 32 * s.table.algo.number + 128 * s.table.family.toBit +
      (if s.table.strict = true then 256 else 0) := by
  simp only [State.status, Table.strictBit, Table.familyBit, Table.algoBits, Table.openBit, ho, hc, decide_true,
    Bool.true_and, if_true]
  cases s.table.algo <;> cases s.table.family <;> cases s.table.strict <;> rfl

/-- Settles O23: the three checks, and each layout's new root structure. -/
theorem constructMakesAnEmptyTable : Obligations.ConstructMakesAnEmptyTable := by
  intro algo family strict s hp
  refine ⟨fun ho => exec_construct_opened ho _ _ _, fun hc hill => exec_construct_illegal hc hill _,
    fun hc hlegal => ?_⟩
  obtain ⟨a, ha, hstride, hdir, hwide⟩ := legalLayout_of_legal hlegal
  refine ⟨_, exec_construct_legal hc ha strict, rfl, Table.construct_life .., Table.construct_family ..,
    Table.construct_strict .., Table.construct_prefixes .., Table.construct_numPfx .., fun h => ?_, fun h => ?_,
    fun h => ?_⟩ <;>
    rw [State.status_of_opened (Table.construct_life ..) rfl]
  · obtain rfl := hstride h
    obtain ⟨hroot, huse, hslot⟩ := s.table.construct_stride8 hp.1.1 family strict
    exact ⟨rfl, by cases family <;> rfl, rfl, rfl, hroot, huse, fun j _ => hslot j⟩
  · obtain ⟨rfl, rfl⟩ := hdir h
    exact ⟨rfl, rfl, rfl, rfl, fun _ => rfl, fun _ _ => rfl⟩
  · obtain ⟨rfl, rfl⟩ := hwide h
    exact ⟨rfl, rfl, rfl, rfl, fun _ => rfl, fun _ _ => rfl⟩

theorem exec_close_closed {s : State} (h : s.table.life = .closed) : exec .close s = .next s.complete := by
  rw [exec, execClose, h]

theorem exec_close_opened {s : State} (h : s.table.life = .opened) :
    exec .close s = .next (s.withTable s.table.shut).complete := by
  rw [exec, execClose, h]

/-- A closed engine fails every table command (40_commands_common.md R122). -/
theorem exec_closed_code {s u : State} (h : s.table.life = .closed) {i : Instr} (hu : exec i s = .next u) :
    u.code = .errClosed ∨ i = .close ∨ ∃ a f x, i = .construct a f x := by
  cases i with
  | construct a f x => exact .inr (.inr ⟨a, f, x, rfl⟩)
  | close => exact .inr (.inl rfl)
  | insert | delete | lookup | lookupBatch | stats =>
    simp only [exec, execInsert, execDelete, execLookup, execLookupBatch, execStats, h] at hu
    exact .inl (Host.Outcome.next.inj hu ▸ rfl)

/-- `STATUS` of a closed engine without an error (10_state.md R25). -/
theorem State.status_of_closed {s : State} (hl : s.table.life = .closed) (hc : s.code = .ok) : s.status = 0#32 := by
  have hopen := Table.openBit_closed hl
  simp only [State.status, Table.strictBit, Table.familyBit, Table.algoBits, hopen, hc, Bool.false_and,
    Bool.false_eq_true, if_false]
  rfl

/-- Settles O24: the closed arm, and what the table shut is. -/
theorem closeReleasesTheTable : Obligations.CloseReleasesTheTable := fun s =>
  ⟨exec_close_closed, fun ho => ⟨(s.withTable s.table.shut).complete, exec_close_opened ho, rfl, rfl, rfl,
    fun _ => rfl, rfl, rfl, rfl, State.status_of_closed rfl rfl, exec_close_closed rfl,
    fun _ _ => exec_closed_code rfl⟩⟩

/-- Settles O25: the two arms of STATS. -/
theorem statsLatchesTheCounts : Obligations.StatsLatchesTheCounts := by
  intro s
  constructor <;> intro hl <;> rw [exec, execStats, hl] <;> rfl

/-- A closed well-formed table is, but for what is unreachable, the reset table (10_state.md R26, R44). -/
theorem Table.Ok.forget_closed {ps : Params} {t : Table} (h : t.Ok ps) (hc : t.life = .closed) :
    t.forget = Table.reset := by
  obtain ⟨hprefixes, hpool, halgo, hfamily, hstrict⟩ := h.closed hc
  have hpfx := word_eq_ofNat h.counters.pfx
  have hnodes := word_eq_ofNat h.counters.nodes
  have hwide := h.counters.wide
  rw [hprefixes] at hpfx
  rw [hpool] at hnodes
  rw [hc, if_neg (by simp)] at hwide
  unfold Table.forget Table.reset
  rw [hc, halgo, hfamily, hstrict, hprefixes, hpfx, hnodes, hwide]
  rfl

/-- Settles O59: a closed table stays and an open one is shut; either way what is left is the reset table. -/
theorem closeZeroesTheConfiguration : Obligations.CloseZeroesTheConfiguration := by
  intro s rest hs
  have hclose : ∃ t, exec .close s = .next t ∧ t.table.forget = Table.reset := by
    cases hl : s.table.life with
    | closed => exact ⟨_, exec_close_closed hl, hs.table.forget_closed hl⟩
    | opened => exact ⟨_, exec_close_opened hl, rfl⟩
  obtain ⟨t, ht, hforget⟩ := hclose
  exact ⟨t, (s.withPending rest).afterReset, ht, step_of_pending (s := { s with pending := .reset :: rest }) rfl,
    hforget, rfl⟩

/-! ### LOOKUP -/

theorem exec_lookup_closed {s : State} (h : s.table.life = .closed) :
    exec .lookup s = .next ((s.withResult sentinel).raise .errClosed) := by
  rw [exec, execLookup, h]

/-- A LOOKUP on a well-formed open table answers `LPM(P, A)` (40_commands_common.md R140). -/
theorem exec_lookup_opened {s : State} {ps : Params} (h : s.table.Ok ps) (ho : s.table.life = .opened) :
    exec .lookup s = .next (s.withResult (lpm s.table.prefixes s.table.width s.keyAddress)).complete := by
  rw [exec, execLookup, ho, ← h.lookup ho s.keyAddress_lt]

/-- The same for another address put in `KEY0 .. KEY3`. -/
theorem exec_lookup_keys {t : State} {ps : Params} (h : t.table.Ok ps) (ho : t.table.life = .opened)
    (k0 k1 k2 k3 : Word) : exec .lookup { t with key0 := k0, key1 := k1, key2 := k2, key3 := k3 } =
      .next (State.complete { t with
        key0 := k0
        key1 := k1
        key2 := k2
        key3 := k3
        result := lpm t.table.prefixes t.table.width (assemble t.table.family k0 k1 k2 k3) }) :=
  exec_lookup_opened (s := { t with key0 := k0, key1 := k1, key2 := k2, key3 := k3 }) h ho

/-- Settles O32: the sentinel on a closed engine, `LPM(P, A)` on an open one. -/
theorem lookupAnswersLpm : Obligations.LookupAnswersLpm := fun _ =>
  ⟨exec_lookup_closed, fun hs ho => exec_lookup_opened hs.table ho⟩

/-- Settles O34: `LPM(P, A)` reads the store, the family and the address alone. -/
theorem layoutsAgree : Obligations.LayoutsAgree := by
  intro s s' hs hs' ho ho' hfamily hstore haddr
  refine ⟨_, _, exec_lookup_opened hs.table ho, exec_lookup_opened hs'.table ho', ?_⟩
  have hwidth : s.table.width = s'.table.width := congrArg Family.width hfamily
  show lpm s.table.prefixes s.table.width s.keyAddress = lpm s'.table.prefixes s'.table.width s'.keyAddress
  rw [hstore, hwidth, haddr]

/-- A stored prefix that covers an address, and that no longer stored prefix does, is its best one (00_scope.md R11). -/
theorem lpm_of_longest {p : PrefixStore} {w a : Nat} {q : Prefix} {nh : Word} (hq : q.len ≤ w) (hcov : q.covers w a)
    (hmem : Assoc.get? p q = some nh) (hmax : ∀ e ∈ p, q.len < e.1.len → ¬e.1.covers w a) : lpm p w a = nh := by
  obtain ⟨len, net⟩ := q
  obtain rfl : canon w a len = net := covers_iff_canon.1 hcov
  refine lpm_of_best_eq_some (best_eq_some.2 ⟨Nat.zero_le len, hq, hmem, fun len' hlt _ => ?_⟩)
  by_contra hne
  obtain ⟨v, hv⟩ := Option.ne_none_iff_exists'.1 hne
  exact hmax _ (Assoc.mem_of_get? hv) hlt (covers_iff_canon.2 rfl)

/-- Settles O35: the default route covers every address, and no longer stored prefix covers this one. -/
theorem defaultRouteAnswersTheRest : Obligations.DefaultRouteAnswersTheRest := by
  intro s nh hs ho hmem hmax
  have hlpm : lpm s.table.prefixes s.table.width s.keyAddress = nh :=
    lpm_of_longest (Nat.zero_le _) (covers_default _ _) hmem fun e he hlt => hmax e he (Nat.ne_of_gt hlt)
  rw [exec_lookup_opened hs.table ho, hlpm]
  rfl

/-! ### Node counts -/

theorem Table.Ok.numNodes_eq {ps : Params} {t : Table} (h : t.Ok ps) (hp : ps.Legal) (ho : t.life = .opened) :
    t.numNodes.toNat = nodesOf t.algo t.width t.prefixes :=
  h.counters.nodes.trans ((h.laid ho).nodes (h.acct hp) (h.legal ho) h.store.fits)

/-- Settles O52: the blocks in use are as many as the store's nodes. -/
theorem nodeCountIsAFunctionOfTheStore : Obligations.NodeCountIsAFunctionOfTheStore := fun _ hs ho =>
  hs.table.numNodes_eq hs.params ho

/-- Settles O53: what an INSERT needs is what it adds to the store's nodes. -/
theorem needIsADifferenceOfNodeCounts : Obligations.NeedIsADifferenceOfNodeCounts := fun _ s hs ho hv =>
  (hs.table.storeNeed_eq ho (State.operand_fits hv) s.nh).symm

/-! ### INSERT -/

/-- Settles O27: what the INSERT makes of the store, its count and the configuration. -/
theorem insertStoresThePrefix : Obligations.InsertStoresThePrefix := by
  intro len s h
  refine ⟨_, exec_insert_of_canInsert h, rfl, fun q => ?_, ?_, ?_⟩
  · rw [State.inserted_table, Table.insertPrefix_prefixes, Assoc.get?_put]
  · exact Table.insertPrefix_numPfx ..
  · simp [h.1]

/-- The node counts of the two stores differ by the need (40_commands_common.md R144). -/
theorem State.Inv.inserted_numNodes {s : State} (hs : s.Inv) {len : Nat} (h : s.CanInsert len) :
    (s.inserted len).table.numNodes.toNat = s.table.numNodes.toNat + s.table.need (s.operand len) := by
  have ⟨ho, hv, _⟩ := h
  rw [(hs.inserted h).table.numNodes_eq hs.params (State.inserted_life ho len), State.inserted_table,
    Table.insertPrefix_algo, Table.insertPrefix_width, Table.insertPrefix_prefixes,
    (hs.table.laid ho).need (hs.table.legal ho) s.nh (State.operand_fits hv), ← hs.table.numNodes_eq hs.params ho]

/-- Settles O28, by the node counts before and after. -/
theorem insertTakesTheBlocksItNeeds : Obligations.InsertTakesTheBlocksItNeeds := fun _ _ hs h =>
  ⟨_, exec_insert_of_canInsert h, hs.inserted_numNodes h⟩

theorem State.canInsert_of_stored {s : State} (hs : s.Inv) (ho : s.table.life = .opened) {len : Nat}
    (hv : s.ValidPrefix len) (hnh : s.nh ≠ sentinel) (hst : s.table.stores (s.operand len) = true) :
    s.CanInsert len :=
  ⟨ho, hv, hnh, .inl hst, by rw [hs.table.need_stored ho (State.operand_fits hv) hst]; exact Nat.zero_le _⟩

/-- The slots after a re-insert that needs no block: those that `fan_write` fixes wherever it reaches them stay. -/
theorem Table.slot_insertPrefix_stored {t : Table} (h : t.ArraysWf) {n : Nat} {q : Prefix} {v : Word}
    (hst : t.stores q = true) (hneed : t.need q = 0) {a : SlotArray} {j : Nat}
    (hf : t.FansOver q a j → (t.slot a j).fanWrite v q.len = t.slot a j) :
    (t.insertPrefix n q v).slot a j = t.slot a j := by
  have hput : (t.insertPrefix n q v).slot a j = (t.layoutInsert n q v (t.stores q)).slot a j := rfl
  rw [hput, hst]
  exact Table.slot_reinsert_fixed h hneed hf

/-- Settles O29: the re-insert is an INSERT that needs no block; the slots it reaches hold no shorter leaf. -/
theorem reinsertReplacesTheNextHop : Obligations.ReinsertReplacesTheNextHop := by
  intro len s hs ho hv hnh hst
  have hfits := State.operand_fits hv
  have hneed := hs.table.need_stored ho hfits hst
  have hcan := State.canInsert_of_stored hs ho hv hnh hst
  have hok := (hs.inserted hcan).table
  have hwf := hs.table.pool.arraysWf
  refine ⟨hneed, _, exec_insert_of_canInsert hcan, rfl, fun q => ?_, ?_, ?_, ?_, fun a ha => ?_,
    fun a j l hl hlt => ?_, fun hsame => ⟨?_, fun a j => ?_⟩⟩ <;>
    simp only [State.inserted_table]
  · rw [Table.insertPrefix_prefixes, Assoc.get?_put]
  · rw [Table.insertPrefix_numPfx, if_pos hst]
  · have hnodes := hs.inserted_numNodes hcan
    rw [hneed, Nat.add_zero] at hnodes
    exact BitVec.eq_of_toNat_eq hnodes
  · exact Table.insertPrefix_numWide ..
  · have hlook := hok.lookup (State.inserted_life ho len) (a := a)
    rw [State.inserted_table, Table.insertPrefix_width] at hlook
    exact hlook ha
  · exact Table.slot_insertPrefix_stored hwf hst hneed fun _ => Slot.fanWrite_longer hl s.nh hlt
  · rw [hok.forget_insertPrefix hs.params ho, put_stored hs.table.store.sorted hsame, hs.table.forget_eq hs.params ho]
    rfl
  · exact Table.slot_insertPrefix_stored hwf hst hneed fun hf => Slot.fanWrite_fixed
      ((hs.table.laid ho).leafWrite_stored hs.table.pool (hs.table.legal ho) hs.table.store.sorted hfits hsame hf)

/-- Settles O57: the inserted prefix is stored, and the store has no new longer one. -/
theorem insertedPrefixAnswers : Obligations.InsertedPrefixAnswers := by
  intro len s k0 k1 k2 k3 hs h hcov hmax
  have ⟨ho, hv, _⟩ := h
  have hlook := exec_lookup_keys (hs.inserted h).table (State.inserted_life ho len) k0 k1 k2 k3
  refine ⟨_, _, exec_insert_of_canInsert h, hlook, ?_, rfl⟩
  simp only [State.complete_result, State.inserted_table, Table.insertPrefix_prefixes,
    Table.insertPrefix_width, Table.insertPrefix_family]
  refine lpm_of_longest hv.1 hcov (by rw [Assoc.get?_put, if_pos rfl]) fun e he hlt => ?_
  obtain rfl | hold := Assoc.mem_put he
  · exact absurd hlt (Nat.lt_irrefl _)
  · exact hmax e hold hlt

/-! ### DELETE -/

/-- Settles O30: what the DELETE makes of the store, its count and the configuration. -/
theorem deleteRemovesThePrefix : Obligations.DeleteRemovesThePrefix := by
  intro len s h
  refine ⟨_, exec_delete_of_canDelete h, rfl, fun q => ?_, ?_, ?_⟩
  · rw [State.deleted_table, Table.deletePrefix_prefixes, Assoc.get?_erase]
  · exact Table.deletePrefix_numPfx ..
  · simp [h.1]

/-- Settles O31: the table stays well formed, and a DELETE clears only leaves with the prefix's tag. -/
theorem deleteRestoresTheNextBest : Obligations.DeleteRestoresTheNextBest := by
  intro len s hs h
  refine ⟨_, exec_delete_of_canDelete h, fun k0 k1 k2 k3 u hu => ?_, fun a j huse => ?_⟩
  · have hlook := exec_lookup_keys (hs.deleted h).table (State.deleted_life h.1 len) k0 k1 k2 k3
    obtain rfl := Host.Outcome.next.inj (hu.symm.trans hlook)
    simp
  · have hwf : (s.table.removePrefix (s.operand len)).ArraysWf := hs.table.pool.arraysWf
    exact (Table.leavesKept_layoutDelete hwf (s.operand len)).leaf a j (Table.usable_iff.2 huse)

/-- Removing a prefix just stored gives the store as it was (40_commands_common.md R142). -/
theorem erase_put_new {ps : PrefixStore} (hw : Assoc.wf Prefix.before ps = true) {q : Prefix} (v : Word)
    (h : Assoc.get? ps q = none) : Assoc.erase (Assoc.put Prefix.before ps q v) q = ps := by
  refine Assoc.ext_get? prefixBefore_order (Assoc.wf_erase (Assoc.wf_put prefixBefore_order hw q v) q) hw fun k => ?_
  rw [Assoc.get?_erase, Assoc.get?_put]
  split_ifs with hk
  · rw [hk, h]
  · rfl

/-- An INSERT leaves the operand as it is: `KEY0 .. KEY3` and the family stay. -/
@[simp] theorem State.inserted_keyAddress (s : State) (len : Nat) : (s.inserted len).keyAddress = s.keyAddress :=
  congrArg (fun f => assemble f s.key0 s.key1 s.key2 s.key3) (Table.insertPrefix_family ..)

@[simp] theorem State.inserted_operand (s : State) (len : Nat) : (s.inserted len).operand len = s.operand len := by
  simp [State.operand]

/-- What an INSERT has stored a DELETE may remove. -/
theorem State.canDelete_inserted {s : State} {len : Nat} (ho : s.table.life = .opened) (hv : s.ValidPrefix len) :
    (s.inserted len).CanDelete len := by
  refine ⟨State.inserted_life ho len, by simpa [State.ValidPrefix] using hv, ?_⟩
  rw [State.inserted_operand, State.inserted_table, Table.stores, Table.insertPrefix_prefixes, Assoc.get?_put,
    if_pos rfl]
  rfl

/-- Settles O56: the store is as it was, and the counts and the answers are functions of it. -/
theorem churnLeavesNoTrace : Obligations.ChurnLeavesNoTrace := by
  intro len s hs h hnew
  have ⟨ho, hv, _⟩ := h
  have hdel := State.canDelete_inserted ho hv
  have hok := ((hs.inserted h).deleted hdel).table
  have ho' := State.deleted_life (State.inserted_life ho len) len
  have hstore : ((s.inserted len).deleted len).table.prefixes = s.table.prefixes := by
    rw [State.deleted_table, Table.deletePrefix_prefixes, State.inserted_operand, State.inserted_table,
      Table.insertPrefix_prefixes]
    exact erase_put_new hs.table.store.sorted s.nh (Option.isNone_iff_eq_none.1 (Option.isSome_eq_false_iff.1 hnew))
  have hwidth : ((s.inserted len).deleted len).table.width = s.table.width := by simp
  refine ⟨_, _, exec_insert_of_canInsert h, exec_delete_of_canDelete hdel, rfl, ?_, fun a ha => ?_⟩
  · rw [hok.forget_eq hs.params ho', hs.table.forget_eq hs.params ho, hstore]
    simp
  · rw [hok.lookup ho' (hwidth ▸ ha), hs.table.lookup ho ha, hstore, hwidth]

end Sys2Proof.Machine
end

section
/-! PROOFS of 41_stride8.md R161 and R162: what the fan-out writes in an array, and that its ranges stay inside. -/

namespace Sys2Proof.Machine

/-! ### A change of a range of one array -/

theorem Table.slot_mapSlots_same {t : Table} {a : SlotArray} (hwf : (t.array a).wf = true) (hu : t.usable a = true)
    (base cnt : Nat) (f : Slot → Slot) (j : Nat) :
    (t.mapSlots a base cnt f).slot a j = if base ≤ j ∧ j < base + cnt then f (t.slot a j) else t.slot a j := by
  rw [Table.slot, Table.array_mapSlots, if_pos ⟨rfl, hu⟩, Runs.get_mapRange hwf]
  rfl

theorem Table.slot_mapSlots_other {a a' : SlotArray} (h : a' ≠ a) (t : Table) (base cnt : Nat) (f : Slot → Slot)
    (j : Nat) : (t.mapSlots a base cnt f).slot a' j = t.slot a' j := by
  rw [Table.slot, Table.array_mapSlots, if_neg fun hsame => h hsame.1]
  rfl

/-! ### The rules of `fan_write` and `fan_clear` (41_stride8.md R162) -/

/-- Longest wins. -/
theorem Slot.leaf_fanWrite_eq_ite (v : Word) (len : Nat) (s : Slot) :
    (s.fanWrite v len).leaf = if ∀ l, s.leaf = some l → l.tag ≤ len then some ⟨v, len⟩ else s.leaf := by
  rw [Slot.leaf_fanWrite]
  cases s.leaf with
  | none => simp [leafWrite]
  | some l => simp [leafWrite]

/-- Only where the tag is ours. -/
theorem Slot.leaf_fanClear_eq_ite (len : Nat) (sh : Option Leaf) (s : Slot) :
    (s.fanClear len sh).leaf = if s.leaf.map Leaf.tag = some len then sh else s.leaf := by
  rw [Slot.leaf_fanClear]
  cases s.leaf with
  | none => simp [leafClear]
  | some l => simp [leafClear]

section
variable {t : Table} {a : SlotArray} (hwf : (t.array a).wf = true) (hu : t.usable a = true) {f : Slot → Slot}
include hwf hu

/-- A change that keeps the `child` of every slot keeps those of the array. -/
theorem Table.child_mapSlots_same (hf : ∀ s, (f s).child = s.child) (base cnt j : Nat) :
    ((t.mapSlots a base cnt f).slot a j).child = (t.slot a j).child := by
  rw [Table.slot_mapSlots_same hwf hu]
  split_ifs
  · exact hf _
  · rfl

/-- A change that sets the leaf of each slot that meets a condition sets it in the range, where the slot meets it. -/
theorem Table.leaf_mapSlots_same {p : Slot → Prop} [DecidablePred p] {x : Option Leaf}
    (hf : ∀ s, (f s).leaf = if p s then x else s.leaf) (base cnt j : Nat) :
    ((t.mapSlots a base cnt f).slot a j).leaf =
      if base ≤ j ∧ j < base + cnt ∧ p (t.slot a j) then x else (t.slot a j).leaf := by
  rw [Table.slot_mapSlots_same hwf hu]
  by_cases hin : base ≤ j ∧ j < base + cnt
  · rw [if_pos hin, hf]
    simp only [hin, true_and]
  · rw [if_neg hin, if_neg fun h => hin ⟨h.1, h.2.1⟩]

end

/-- Settles O46: inside the range one turn on the slot, outside it and in the other arrays nothing. -/
theorem fanOutRules : Obligations.FanOutRules := by
  intro t a base cnt nh len sh hwf huse j
  have hu : t.usable a = true := Table.usable_iff.2 huse
  exact ⟨Table.child_mapSlots_same hwf hu (Slot.child_fanWrite nh len) base cnt j,
    Table.child_mapSlots_same hwf hu (Slot.child_fanClear len sh) base cnt j,
    Table.leaf_mapSlots_same hwf hu (Slot.leaf_fanWrite_eq_ite nh len) base cnt j,
    Table.leaf_mapSlots_same hwf hu (Slot.leaf_fanClear_eq_ite len sh) base cnt j,
    fun _ hne => ⟨Table.slot_mapSlots_other hne t base cnt _ j, Table.slot_mapSlots_other hne t base cnt _ j⟩⟩

/-! ### The ranges (41_stride8.md R161, 42_dir24_8.md R191, 43_wide16.md R221) -/

/-- The range in the terminal node: its level exists, its first slot is aligned, and it ends inside the node. -/
theorem Fits.nodeRange {w : Nat} {q : Prefix} (hq : Fits w q) (hmod : w % 8 = 0) (hpos : 0 < w) :
    8 * (terminalLevel q.len + 1) ≤ w ∧ byte w q.net (terminalLevel q.len) % 2 ^ (8 - inNodeLength q.len) = 0 ∧
      byte w q.net (terminalLevel q.len) + 2 ^ (8 - inNodeLength q.len) ≤ nodeSlots := by
  have hlevel := terminalLevel_le hq.1 hmod hpos
  obtain ⟨hfree, -, -⟩ := inNodeLength_eq (len := q.len) rfl
  exact ⟨hlevel, hfree ▸ byte_aligned hq hlevel rfl, fan_range hq hlevel rfl⟩

/-- Settles O47: a canonical prefix's first slot is a multiple of the number of slots it fans out over. -/
theorem fanOutRangesFit : Obligations.FanOutRangesFit := by
  intro w q hw hlen hnet hcanon
  have hq : Fits w q := ⟨hlen, hnet, hcanon⟩
  refine ⟨?_, ?_, ?_, ?_⟩
  · exact hq.nodeRange (by omega) (by omega)
  · rintro rfl hshort
    exact dir_range hq hshort
  · rintro rfl hlong
    exact ext_range hq hlong
  · rintro rfl hshort
    exact root_range hq hshort

end Sys2Proof.Machine
end

section
/-! PROOFS about 44_batch.md R253 and R254: what a batch writes, entry by entry, and what an empty one does not. -/

namespace Sys2Proof.Machine

/-! ### `BOUT` after the batch loop -/

/-- Writing an entry of `BOUT` changes that entry alone. -/
theorem State.boutWord_write (s : State) (m : Memory) (n : Nat) (v : Word) (i : Nat) :
    State.boutWord { s with bout := m.write n v } i = if i = n then v else State.boutWord { s with bout := m } i := by
  simp only [State.boutWord, Memory.read?_write]
  split <;> rfl

/-- After `n` turns the first `n` entries hold their answers and the rest are as before (44_batch.md R252). -/
theorem State.boutWord_batchOut (s : State) (n i : Nat) : State.boutWord { s with bout := s.batchOut n } i =
    if i < n then s.table.layoutLookup (s.binAddress i) else s.boutWord i := by
  induction n with
  | zero => rfl
  | succ n ih =>
    rw [State.batchOut, State.boutWord_write, ih]
    rcases Nat.lt_trichotomy i n with hlt | rfl | hgt
    · rw [if_neg hlt.ne, if_pos hlt, if_pos (Nat.lt_succ_of_lt hlt)]
    · rw [if_pos rfl, if_pos (Nat.lt_succ_self i)]
    · rw [if_neg hgt.ne', if_neg hgt.not_gt, if_neg (Nat.not_lt.2 hgt)]

/-! ### The arms of LOOKUP_BATCH -/

theorem exec_lookupBatch_closed {s : State} (h : s.table.life = .closed) (count : Nat) :
    exec (.lookupBatch count) s = .next (s.raise .errClosed) := by
  rw [exec, execLookupBatch, h]

/-- A batch that `BIN` and `BOUT` can hold runs its loop (44_batch.md R252). -/
theorem exec_lookupBatch_opened {s : State} (ho : s.table.life = .opened) {count : Nat}
    (hc : count ≤ s.params.batchMax) :
    exec (.lookupBatch count) s = .next (State.complete { s with bout := s.batchOut count }) := by
  rw [exec, execLookupBatch, ho]
  exact if_neg (Nat.not_lt.2 hc)

/-- A LOOKUP of entry `i` walks the table with the entry's address (44_batch.md R253). -/
theorem exec_lookup_entry {s : State} (ho : s.table.life = .opened) (i : Nat) : exec .lookup (s.withKeysOfEntry i) =
    .next ((s.withKeysOfEntry i).withResult (s.table.layoutLookup (s.binAddress i))).complete := by
  have hlife : (s.withKeysOfEntry i).table.life = .opened := ho
  rw [exec, execLookup, hlife]
  rfl

/-- Settles O36: the loop writes in entry `i` what a LOOKUP of the entry answers, and that is `LPM(P, A)`. -/
theorem batchIsManyLookups : Obligations.BatchIsManyLookups := by
  intro count s ho hc
  have hbout (i : Nat) : (State.complete { s with bout := s.batchOut count }).boutWord i =
      if i < count then s.table.layoutLookup (s.binAddress i) else s.boutWord i := State.boutWord_batchOut s count i
  refine ⟨_, exec_lookupBatch_opened ho hc, rfl, fun i hi => ?_, fun i hi => ?_, fun hs i hi => ?_⟩
  · exact ⟨_, exec_lookup_entry ho i, (hbout i).trans (if_pos hi)⟩
  · exact (hbout i).trans (if_neg (Nat.not_lt.2 hi))
  · rw [hbout, if_pos hi, hs.table.lookup ho (s.binAddress_lt i)]

/-- Settles O37: the loop of an empty batch takes no turn, and a closed engine fails it. -/
theorem emptyBatchTouchesNothing : Obligations.EmptyBatchTouchesNothing := fun s =>
  ⟨fun ho => exec_lookupBatch_opened ho (Nat.zero_le s.params.batchMax), fun h => exec_lookupBatch_closed h 0⟩

end Sys2Proof.Machine
end

section
/-! PROOFS of 60_exceptions.md: which check of a command fails first, what a failing command leaves as it was, and which
codes a command can end with in each lifecycle state. -/

namespace Sys2Proof.Machine

/-! ### The idle step and the codes' numbers -/

/-- Settles O7, by the model's idle step. -/
theorem idleStepKeepsTheState : Obligations.IdleStepKeepsTheState := fun _ => step_idle

/-- Settles O14, by evaluating the number of each code. -/
theorem codeNumbers : Obligations.CodeNumbers := rfl

/-! ### The failing checks of an operand -/

/-- Validation refuses a length above the table's width and, in a strict table, host bits (40_commands_common.md
R130). -/
theorem State.prefixOperand_of_not_valid {s : State} {len : Nat} (h : ¬s.ValidPrefix len) :
    s.prefixOperand len = none := by
  by_cases hlen : s.table.width < len
  · exact if_pos hlen
  · have hhost : hostbits s.table.width s.keyAddress len ≠ 0 ∧ s.table.strict = true := by
      rw [State.ValidPrefix, not_and, Classical.not_imp] at h
      exact (h (Nat.not_lt.1 hlen)).symm
    exact (if_neg hlen).trans (if_pos hhost)

/-- The store is full for a new prefix, or the pool has fewer blocks than are needed (40_commands_common.md R132). -/
theorem State.lacksRoom_of_not_hasRoom {s : State} {p : Prefix} (h : ¬s.HasRoom p) : s.lacksRoom p = true := by
  rw [State.lacksRoom]
  obtain hstore | hpool := not_and_or.1 h
  · obtain ⟨hnew, hfull⟩ := not_or.1 hstore
    simp [hnew, not_not.1 hfull]
  · simp [Table.free, Nat.not_le.1 hpool]

/-! ### The arms of a closed engine -/

theorem exec_insert_closed {s : State} (h : s.table.life = .closed) (len : Nat) :
    exec (.insert len) s = .next (s.raise .errClosed) := by
  rw [exec, execInsert, h]

theorem exec_delete_closed {s : State} (h : s.table.life = .closed) (len : Nat) :
    exec (.delete len) s = .next (s.raise .errClosed) := by
  rw [exec, execDelete, h]

theorem exec_stats_closed {s : State} (h : s.table.life = .closed) : exec .stats s = .next (s.raise .errClosed) := by
  rw [exec, execStats, h]

/-! ### The arms of an open engine -/

section
variable {s : State} (ho : s.table.life = .opened)
include ho

theorem exec_insert_invalidPrefix {len : Nat} (hv : ¬s.ValidPrefix len) :
    exec (.insert len) s = .next (s.raise .errInvalidPrefix) := by
  rw [exec, execInsert, ho, State.prefixOperand_of_not_valid hv]

theorem exec_delete_invalidPrefix {len : Nat} (hv : ¬s.ValidPrefix len) :
    exec (.delete len) s = .next (s.raise .errInvalidPrefix) := by
  rw [exec, execDelete, ho, State.prefixOperand_of_not_valid hv]

theorem exec_insert_invalidNexthop {len : Nat} (hv : s.ValidPrefix len) (hnh : s.nh = sentinel) :
    exec (.insert len) s = .next (s.raise .errInvalidNexthop) := by
  rw [exec, execInsert, ho, State.prefixOperand_of_valid hv]
  exact if_pos hnh

theorem exec_insert_noRoom {len : Nat} (hv : s.ValidPrefix len) (hnh : s.nh ≠ sentinel)
    (hroom : ¬s.HasRoom (s.operand len)) : exec (.insert len) s = .next (s.raise .errAlloc) := by
  rw [exec, execInsert, ho, State.prefixOperand_of_valid hv]
  exact (if_neg hnh).trans (if_pos (State.lacksRoom_of_not_hasRoom hroom))

theorem exec_delete_notFound {len : Nat} (hv : s.ValidPrefix len) (hst : s.table.stores (s.operand len) = false) :
    exec (.delete len) s = .next (s.raise .errNotFound) := by
  rw [exec, execDelete, ho, State.prefixOperand_of_valid hv]
  exact if_neg (ne_true_of_eq_false hst)

theorem exec_lookup_walk : exec .lookup s = .next (s.withResult (s.table.layoutLookup s.keyAddress)).complete := by
  rw [exec, execLookup, ho]

theorem exec_lookupBatch_tooLong {count : Nat} (hc : s.params.batchMax < count) :
    exec (.lookupBatch count) s = .next (s.raise .errBatchRange) := by
  rw [exec, execLookupBatch, ho]
  exact if_pos hc

theorem exec_stats_opened : exec .stats s = .next s.latchStats.complete := by
  rw [exec, execStats, ho]

end

/-! ### The order of the checks -/

/-- Settles O38: the failing arms of the commands, each with the checks that come before it passed. -/
theorem failurePriority : Obligations.FailurePriority := by
  intro s len count algo family strict c
  refine ⟨fun hc => runCommand_illegal hc s, fun ho => exec_construct_opened ho algo family strict,
    fun hl hpair => exec_construct_illegal hl hpair strict, fun hl => ?closed, fun ho hv => ?invalidPrefix,
    fun ho hv => exec_insert_invalidNexthop ho hv, fun ho hv => exec_insert_noRoom ho hv,
    fun ho hv => exec_delete_notFound ho hv, fun ho => exec_lookupBatch_tooLong ho⟩
  case closed =>
    exact ⟨exec_insert_closed hl len, exec_delete_closed hl len, exec_lookup_closed hl,
      exec_lookupBatch_closed hl count, exec_stats_closed hl⟩
  case invalidPrefix => exact ⟨exec_insert_invalidPrefix ho hv, exec_delete_invalidPrefix ho hv⟩

/-! ### What a failing command changes -/

/-- Settles O39: of the effects of commands only a raised code and a LOOKUP of a closed engine end without `OK`. -/
theorem failuresKeepTheTable : Obligations.FailuresKeepTheTable := by
  intro i s t h hfail
  cases exec_effect h with
  | raised => exact ⟨rfl, .inl rfl⟩
  | missed hl => exact ⟨rfl, .inr ⟨rfl, hl, rfl⟩⟩
  | constructed | inserted | deleted | answered | batched | latched | stayedClosed | released => exact absurd rfl hfail

/-! ### The codes of each lifecycle state -/

/-- The codes a command can end with when it finds the engine in a lifecycle state: the table of 60_exceptions.md R286,
split by R280. -/
def codesAt : Life → Instr → List Code
  | .closed, .construct _ _ _ => [.ok, .errInvalidAlgo]
  | .closed, .close => [.ok]
  | .closed, .insert _ | .closed, .delete _ | .closed, .lookup | .closed, .lookupBatch _ | .closed, .stats =>
    [.errClosed]
  | .opened, .construct _ _ _ => [.errState]
  | .opened, .insert _ => [.ok, .errInvalidPrefix, .errInvalidNexthop, .errAlloc]
  | .opened, .delete _ => [.ok, .errInvalidPrefix, .errNotFound]
  | .opened, .lookupBatch _ => [.ok, .errBatchRange]
  | .opened, .lookup | .opened, .stats | .opened, .close => [.ok]

theorem codesAt_subset_codesOf (l : Life) (i : Instr) : codesAt l i ⊆ codesOf i := by
  cases l <;> cases i <;> simp [codesAt, codesOf]

theorem errClosed_notMem_codesAt_opened (i : Instr) : Code.errClosed ∉ codesAt .opened i := by
  cases i <;> simp [codesAt]

/-- A command of a closed engine: CONSTRUCT checks its pair, CLOSE succeeds, the rest fail at once. -/
theorem exec_code_closed {s : State} (hl : s.table.life = .closed) (i : Instr) :
    ∃ t, exec i s = .next t ∧ t.code ∈ codesAt .closed i := by
  cases i with
  | construct algo family strict =>
    by_cases hpair : IllegalPair algo family
    · exact ⟨_, exec_construct_illegal hl hpair strict, by simp [codesAt]⟩
    · obtain ⟨a, ha, -⟩ := legalLayout_of_legal hpair
      exact ⟨_, exec_construct_legal hl ha strict, by simp [codesAt]⟩
  | insert len => exact ⟨_, exec_insert_closed hl len, by simp [codesAt]⟩
  | delete len => exact ⟨_, exec_delete_closed hl len, by simp [codesAt]⟩
  | lookup => exact ⟨_, exec_lookup_closed hl, by simp [codesAt]⟩
  | lookupBatch count => exact ⟨_, exec_lookupBatch_closed hl count, by simp [codesAt]⟩
  | stats => exact ⟨_, exec_stats_closed hl, by simp [codesAt]⟩
  | close => exact ⟨_, exec_close_closed hl, by simp [codesAt]⟩

/-- A command of an open engine: each of its checks in turn fails, or all have passed. -/
theorem exec_code_opened {s : State} (ho : s.table.life = .opened) (i : Instr) :
    ∃ t, exec i s = .next t ∧ t.code ∈ codesAt .opened i := by
  cases i with
  | construct algo family strict => exact ⟨_, exec_construct_opened ho algo family strict, by simp [codesAt]⟩
  | insert len =>
    by_cases hv : s.ValidPrefix len
    · by_cases hnh : s.nh = sentinel
      · exact ⟨_, exec_insert_invalidNexthop ho hv hnh, by simp [codesAt]⟩
      · by_cases hroom : s.HasRoom (s.operand len)
        · exact ⟨_, exec_insert_of_canInsert ⟨ho, hv, hnh, hroom⟩, by simp [codesAt, State.inserted]⟩
        · exact ⟨_, exec_insert_noRoom ho hv hnh hroom, by simp [codesAt]⟩
    · exact ⟨_, exec_insert_invalidPrefix ho hv, by simp [codesAt]⟩
  | delete len =>
    by_cases hv : s.ValidPrefix len
    · cases hst : s.table.stores (s.operand len) with
      | false => exact ⟨_, exec_delete_notFound ho hv hst, by simp [codesAt]⟩
      | true => exact ⟨_, exec_delete_of_canDelete ⟨ho, hv, hst⟩, by simp [codesAt, State.deleted]⟩
    · exact ⟨_, exec_delete_invalidPrefix ho hv, by simp [codesAt]⟩
  | lookup => exact ⟨_, exec_lookup_walk ho, by simp [codesAt]⟩
  | lookupBatch count =>
    obtain hc | hc := Nat.lt_or_ge s.params.batchMax count
    · exact ⟨_, exec_lookupBatch_tooLong ho hc, by simp [codesAt]⟩
    · exact ⟨_, exec_lookupBatch_opened ho hc, by simp [codesAt]⟩
  | stats => exact ⟨_, exec_stats_opened ho, by simp [codesAt]⟩
  | close => exact ⟨_, exec_close_opened ho, by simp [codesAt]⟩

/-- The code a command ends with is one of those that the lifecycle state it finds allows (60_exceptions.md R280). -/
theorem exec_code {i : Instr} {s t : State} (h : exec i s = .next t) : t.code ∈ codesAt s.table.life i := by
  obtain ⟨u, hu, hcode⟩ : ∃ u, exec i s = .next u ∧ u.code ∈ codesAt s.table.life i := by
    cases hl : s.table.life with
    | closed => exact exec_code_closed hl i
    | opened => exact exec_code_opened hl i
  exact Host.Outcome.next.inj (hu.symm.trans h) ▸ hcode

/-- Settles O40: in either lifecycle state the codes are among those of the command's row. -/
theorem commandsEndWithTheirCodes : Obligations.CommandsEndWithTheirCodes := fun i s _ h =>
  codesAt_subset_codesOf s.table.life i (exec_code h)

/-- Settles O41: the codes of the lifecycle state, and for CLOSE the whole next state. -/
theorem lifecycleGate : Obligations.LifecycleGate := by
  intro i s
  obtain ⟨t, ht⟩ := exec_ends i s
  have hcode := exec_code ht
  refine ⟨t, ht, fun hl => ?closed, fun ho => ?opened⟩
  case closed =>
    rw [hl] at hcode
    cases i with
    | close => exact Host.Outcome.next.inj (ht.symm.trans (exec_close_closed hl))
    | construct | insert | delete | lookup | lookupBatch | stats => simpa [codesAt] using hcode
  case opened =>
    rw [ho] at hcode
    have hne : t.code ≠ .errClosed := fun h => errClosed_notMem_codesAt_opened i (h ▸ hcode)
    cases i with
    | construct => simpa [codesAt] using hcode
    | close =>
      obtain rfl := Host.Outcome.next.inj (ht.symm.trans (exec_close_opened ho))
      exact ⟨rfl, rfl⟩
    | insert | delete | lookup | lookupBatch | stats => exact hne

end Sys2Proof.Machine
end

section
/-! PROOFS of 70_reset_and_hazards.md: a reset and a CLOSE leave no table, the `STAT_*` registers are snapshots, the
canonicalisation of an operand is silent, and every command ends. -/

namespace Sys2Proof.Machine

/-! ### Every command ends -/

/-- Settles O8, by the branches of each command's meaning. -/
theorem everyCommandEnds : Obligations.EveryCommandEnds := exec_ends

/-! ### Reset and CLOSE -/

/-- Settles O21: the reset is taken off the pending list and puts the engine at its reset state. -/
theorem resetDiscardsTheTable : Obligations.ResetDiscardsTheTable := fun _ _ => step_of_pending

/-- The table state of a closed engine, which is no table (10_state.md R26). -/
def Table.Absent (t : Table) : Prop :=
  t.life = .closed ∧ t.prefixes = [] ∧ (∀ b, t.inUse b = false) ∧
    t.numPfx = 0#32 ∧ t.numNodes = 0#32 ∧ t.numWide = 0#32

theorem Table.inUse_of_pool_nil {t : Table} (h : t.pool = []) (b : Nat) : t.inUse b = false := by
  rw [Table.inUse, h]; rfl

/-- A table is absent where its pool is empty and the rest, but for what is unreachable, is the reset table's. -/
theorem Table.absent_of_forget {t : Table} (h : t.forget = Table.reset) (hpool : t.pool = []) : t.Absent :=
  ⟨congrArg Table.life h, congrArg Table.prefixes h, Table.inUse_of_pool_nil hpool, congrArg Table.numPfx h,
    congrArg Table.numNodes h, congrArg Table.numWide h⟩

theorem Table.Ok.absent_of_closed {ps : Params} {t : Table} (h : t.Ok ps) (hc : t.life = .closed) : t.Absent := by
  obtain ⟨-, hpool, -⟩ := h.closed hc
  exact Table.absent_of_forget (h.forget_closed hc) hpool

/-- A CLOSE writes the code and leaves no table, whether it finds the engine open or closed (40_commands_common.md
R126). -/
theorem State.Inv.exec_close {s : State} (hs : s.Inv) :
    ∃ c : Table, exec .close s = .next (s.withTable c).complete ∧ c.Absent := by
  cases hl : s.table.life with
  | closed => exact ⟨s.table, exec_close_closed hl, hs.table.absent_of_closed hl⟩
  | opened => exact ⟨s.table.shut, exec_close_opened hl, Table.absent_of_forget rfl rfl⟩

/-- A reset leaves no table, whatever it finds (70_reset_and_hazards.md R300). -/
theorem State.afterReset_absent (s : State) : s.afterReset.table.Absent := Table.absent_of_forget rfl rfl

/-- Settles O22: both leave no table; CLOSE writes the code alone beside it, the reset every host register. -/
theorem closeLeavesTheResetTable : Obligations.CloseLeavesTheResetTable := by
  intro s rest hs
  obtain ⟨c, hclose, hc⟩ := hs.exec_close
  have hreset := (s.withPending rest).afterReset_absent
  refine ⟨(s.withTable c).complete, (s.withPending rest).afterReset, hclose,
    step_of_pending (s := { s with pending := .reset :: rest }) rfl, ?tables, State.status_of_closed hc.1 rfl,
    State.status_of_closed hreset.1 rfl, rfl, rfl, rfl, rfl, rfl, rfl, rfl, rfl, rfl, rfl, rfl⟩
  case tables =>
    rintro v (rfl | rfl)
    · exact hc
    · exact hreset

/-! ### The `STAT_*` registers -/

/-- The snapshots of the counts are the same in both states (10_state.md R21). -/
def State.SameStats (t s : State) : Prop :=
  t.statPfx = s.statPfx ∧ t.statNode = s.statNode ∧ t.statWide = s.statWide

theorem State.SameStats.refl (s : State) : s.SameStats s := ⟨rfl, rfl, rfl⟩

theorem State.setReg_sameStats (s : State) (i : Nat) (v : Word) : (s.setReg i v).SameStats s := by
  rw [State.setReg_frame]; exact State.SameStats.refl s

/-- Of the effects of commands only a successful STATS latches the counts (40_commands_common.md R128). -/
theorem CommandEffect.stats {i : Instr} {s t : State} (h : CommandEffect s i t) :
    t.SameStats s ∨ (i = .stats ∧ t.code = .ok) := by
  cases h with
  | latched => exact .inr ⟨rfl, rfl⟩
  | raised | missed | constructed | inserted | deleted | answered | batched | stayedClosed | released =>
    exact .inl ⟨rfl, rfl, rfl⟩

/-- Of the host operations only a successful STATS and a reset touch the snapshots. -/
theorem HostEffect.stats {op : HostOp} {s t : State} (h : HostEffect s op t) :
    t.SameStats s ∨ (∃ c, op = .regWrite 0 c ∧ decode c = .instr .stats ∧ t.code = .ok) ∨ op = .reset := by
  cases h with
  | command hd hx =>
    obtain hsame | ⟨rfl, hok⟩ := (exec_effect hx).stats
    · exact .inl hsame
    · exact .inr (.inl ⟨_, rfl, hd, hok⟩)
  | regWrite _ _ => exact .inl (s.setReg_sameStats _ _)
  | reset => exact .inr (.inr rfl)
  | illegal | regRead | binRead | binWrite | boutRead | boutWrite => exact .inl ⟨rfl, rfl, rfl⟩

/-- Settles O26: idling keeps the snapshots, and so does every host operation but the two. -/
theorem statsAreSnapshots : Obligations.StatsAreSnapshots := by
  intro s t h hne
  have hdiff : ¬t.SameStats s := by
    unfold State.SameStats
    tauto
  obtain ⟨-, rfl⟩ | ⟨op, rest, hp, he⟩ := step_cases h
  · exact absurd (State.SameStats.refl t) hdiff
  · obtain hsame | ⟨c, rfl, hd, hok⟩ | rfl := he.stats
    · exact absurd hsame hdiff
    · exact .inl ⟨c, rest, hp, hd, hok⟩
    · exact .inr ⟨rest, hp⟩

/-! ### Canonicalisation -/

/-- The state with other words in `KEY0 .. KEY3`. -/
def State.withKeys (s : State) (k0 k1 k2 k3 : Word) : State :=
  { s with key0 := k0, key1 := k1, key2 := k2, key3 := k3 }

@[simp] theorem State.withKeys_table (s : State) (k0 k1 k2 k3 : Word) : (s.withKeys k0 k1 k2 k3).table = s.table := rfl

/-- With `STRICT = 0` validation looks at the length alone and canonicalises the network (40_commands_common.md
R130). -/
theorem State.prefixOperand_of_not_strict {s : State} (h : s.table.strict = false) (len : Nat) :
    s.prefixOperand len = if s.table.width < len then none else some (s.operand len) := by
  simp only [State.prefixOperand, validate, h, Bool.false_eq_true, and_false, if_false]
  rfl

/-- INSERT and DELETE read the `KEY` registers through their validated operand alone. -/
theorem exec_withKeys {s t : State} {i : Instr} {len : Nat} {k0 k1 k2 k3 : Word}
    (hi : i = .insert len ∨ i = .delete len)
    (hop : (s.withKeys k0 k1 k2 k3).prefixOperand len = s.prefixOperand len) (h : exec i s = .next t) :
    exec i (s.withKeys k0 k1 k2 k3) = .next (t.withKeys k0 k1 k2 k3) := by
  obtain rfl | rfl := hi
  · simp only [exec, execInsert, State.withKeys_table, hop] at h ⊢
    split at h
    · exact Host.Outcome.next.inj h ▸ rfl
    · split at h
      · exact Host.Outcome.next.inj h ▸ rfl
      · split_ifs at h with hnh hlack <;> obtain rfl := Host.Outcome.next.inj h
        · exact if_pos hnh
        · exact (if_neg hnh).trans (if_pos hlack)
        · exact (if_neg hnh).trans (if_neg hlack)
  · simp only [exec, execDelete, State.withKeys_table, hop] at h ⊢
    split at h
    · exact Host.Outcome.next.inj h ▸ rfl
    · split at h
      · exact Host.Outcome.next.inj h ▸ rfl
      · split_ifs at h with hst <;> obtain rfl := Host.Outcome.next.inj h
        · exact if_pos hst
        · exact if_neg hst

/-- Settles O58: without `STRICT` two spellings of a prefix validate to the same operand. -/
theorem canonicalisationIsSilent : Obligations.CanonicalisationIsSilent := by
  intro len s s' t i hi hstrict hkeys hoperand h
  have hs' : s' = s.withKeys s'.key0 s'.key1 s'.key2 s'.key3 := hkeys
  generalize s'.key0 = k0, s'.key1 = k1, s'.key2 = k2, s'.key3 = k3 at hs' ⊢
  subst hs'
  have hop : (s.withKeys k0 k1 k2 k3).prefixOperand len = s.prefixOperand len := by
    rw [State.prefixOperand_of_not_strict (s := s.withKeys k0 k1 k2 k3) hstrict,
      State.prefixOperand_of_not_strict hstrict, hoperand, State.withKeys_table]
  exact exec_withKeys hi hop h

end Sys2Proof.Machine
end
